-- ==== Sys2Proof/Word.lean ====
section
/-!
DEFINITION. The fixed-width words of the engine (spec/30_encoding.md, sections 1 and 2).

Values whose width is an open parameter of the spec (PORT_WIDTH, ADDR_WIDTH, TIMER_WIDTH, R9) are natural numbers, as R13
has it ("All values are unsigned naturals unless a width is stated"); the operations that store one reduce it to its width
(assumption log 2).
-/

namespace Sys2Proof

/-- An 8-bit byte: ARG0, ARG1, pattern and text bytes, instruction and data bytes (R101, R105). -/
abbrev Byte := BitVec 8

/-- A 4-bit value on DB7..DB4 (R106, R113). -/
abbrev Nibble := BitVec 4

/-- The 4-bit operation code `CMD_OP` of a host command (R100). -/
abbrev CmdOp := BitVec 4

/-- A byte transfer `r bbbbbbbb`, RS in bit 8 (R105). -/
abbrev Bus9 := BitVec 9

/-- A nibble transfer `r nnnn`, RS in bit 4 (R106). -/
abbrev Bus5 := BitVec 5

end Sys2Proof
end

