-- ==== Sys2Proof/Config.lean ====
section
/-!
DEFINITION. What an implementation fixes (spec/00_scope.md R8 to R12) and the free values of the spec.

The parameters R9, R11 and R12 leave to the platform are ONE record, `Params`, "the model takes each as an argument": the
state carries it (assumption log 1), every step keeps it, and a statement about every state holds for every value of it.
The free values are constants without a body.
-/

namespace Sys2Proof

/-- The two settings of the long-wait predicate (R11). -/
inductive LongWaitRule where
  | equal
  | below4
  deriving DecidableEq, Repr

/-- The platform parameters (R9), the timing parameters (R12) and the long-wait rule (R11). -/
structure Params where
  coreClockHz : Nat
  timerWidth : Nat
  ticksPerUs : Nat
  ticksPerMs : Nat
  portWidth : Nat
  addrWidth : Nat
  tPowerOnMs : Nat
  tWake1Us : Nat
  tWake2Us : Nat
  tWake3Us : Nat
  tSetupUs : Nat
  tPulseUs : Nat
  tSettleUs : Nat
  tLongMs : Nat
  longWaitRule : LongWaitRule
  deriving DecidableEq, Repr

/-- The timing parameters at the defaults of R12 and the rule at the default of R11; the open parameters of R9 at the values
of the spec's test configuration (spec/95_test_vectors.md, section 0). DESIGN CHOICE: PORT_WIDTH 8 and ADDR_WIDTH 16
(assumption log 1). -/
def Params.standard : Params where
  coreClockHz := 16000000
  timerWidth := 24
  ticksPerUs := 16
  ticksPerMs := 16000
  portWidth := 8
  addrWidth := 16
  tPowerOnMs := 15
  tWake1Us := 4100
  tWake2Us := 100
  tWake3Us := 0
  tSetupUs := 1
  tPulseUs := 1
  tSettleUs := 45
  tLongMs := 5
  longWaitRule := .equal

/-- Free value: bits PORT_WIDTH-1..8 of the data port after the `k`-th draw, taken modulo the number of bits the draw has
(R75, U8; assumption log 10). -/
opaque Config.freePortBits : Nat → Nat

/-- Free value: how many core-clock cycles after the count flag's setting the poll of the `k`-th draw sees it (R283 bounds the
wait from below only; assumption log 11). -/
opaque Config.freePollLatency : Nat → Nat

/-- Free value: the count flag when the poll of the `k`-th draw has ended; a read "may or may not clear it" (R286, U10;
assumption log 11). -/
opaque Config.freeFlagAfterPoll : Nat → Bool

end Sys2Proof
end

