-- ==== Sys2Proof/Syntax.lean ====
section
/-!
DEFINITION. The instructions: one constructor for each row of spec/opcode_table.json (16 host commands, 9 byte transfers, 2
stand-alone nibble transfers), the presented command with all its operand fields, and the three encodings.
-/

namespace Sys2Proof

/-- A PinRef: output-register address and one-bit mask (R31). -/
structure PinRef where
  addr : Nat
  mask : Nat
  deriving DecidableEq, Repr

/-- A host command with every operand field R101 names; the command latch of R39 holds one. -/
structure Command where
  op : CmdOp
  arg0 : Byte
  arg1 : Byte
  pattern : Vector Byte 7
  text : List Byte
  initRs : PinRef
  initEn : PinRef
  initPort : Nat
  initW8 : Bool
  deriving DecidableEq, Repr

/-- The opcode table's rows. -/
inductive Instr where
  -- host_cmd rows: CMD_OP 0x0 to 0xF (R100)
  | init (rs en : PinRef) (port : Nat) (w8 : Bool)
  | setcur (col row : Byte)
  | putc (b : Byte)
  | print (text : List Byte)
  | scrl
  | scrr
  | curon (arg0 : Byte)
  | curoff
  | glyph (index : Byte) (pattern : Vector Byte 7)
  | clear
  | home
  | reservedB
  | reservedC
  | reservedD
  | reservedE
  | reservedF
  -- bus9 rows: byte transfers (R105, R107)
  | clearDisplay
  | returnHome
  | entryModeSet (i s : Bool)
  | displayControl (d c b : Bool)
  | cursorDisplayShift (sc rl : Bool)
  | functionSet (dl n f : Bool)
  | setCgramAddr (a : BitVec 6)
  | setDdramAddr (a : BitVec 7)
  | writeData (d : Byte)
  -- bus5 rows: stand-alone nibble transfers (R106)
  | functionSetNibble8bit
  | functionSetNibble4bit
  deriving DecidableEq, Repr

/-- What stands for an instruction outside the model: a command on the command port, or the bus word of a transfer. The three
formats of spec/30_encoding.md belong to different ports of the engine, so a word is always read in the format of its port. -/
inductive Encoding where
  | hostCmd (c : Command)
  | bus9 (w : Bus9)
  | bus5 (w : Bus5)
  deriving DecidableEq, Repr

/-- Why a bus word is no instruction. -/
inductive DecodeError where
  /-- The byte transfer `0 00000000`: "no HD44780 instruction" (R110). -/
  | noInstruction
  /-- A nibble transfer that is neither row of format bus5. -/
  | noStandAloneNibble
  deriving DecidableEq, Repr

end Sys2Proof
end

