-- ==== Sys2Proof/WellFormed.lean ====
section
/-!
DEFINITION. Which instructions can be presented: the operands fit the widths of spec/30_encoding.md R101. Byte, nibble and
address-field widths are in the types; what is left are INIT's three addresses of ADDR_WIDTH bits. INIT's masks need no check
here: a mask with a bit outside PORT_WIDTH fails R193(a) and is answered with ConfigInvalid.
-/

namespace Sys2Proof

/-- The address is one of the output-register space (R70: "registers addressed by ADDR_WIDTH-bit addresses"). -/
def Params.hasAddr (p : Params) (addr : Nat) : Bool := addr < 2 ^ p.addrWidth

/-- The instruction's operands fit their fields under the parameters `p` (R101). -/
def Instr.wf (p : Params) : Instr → Bool
  | .init rs en port _ => p.hasAddr rs.addr && p.hasAddr en.addr && p.hasAddr port
  | .setcur _ _ => true
  | .putc _ => true
  | .print _ => true
  | .scrl => true
  | .scrr => true
  | .curon _ => true
  | .curoff => true
  | .glyph _ _ => true
  | .clear => true
  | .home => true
  | .reservedB => true
  | .reservedC => true
  | .reservedD => true
  | .reservedE => true
  | .reservedF => true
  | .clearDisplay => true
  | .returnHome => true
  | .entryModeSet _ _ => true
  | .displayControl _ _ _ => true
  | .cursorDisplayShift _ _ => true
  | .functionSet _ _ _ => true
  | .setCgramAddr _ => true
  | .setDdramAddr _ => true
  | .writeData _ => true
  | .functionSetNibble8bit => true
  | .functionSetNibble4bit => true

end Sys2Proof
end

