-- ==== Sys2Proof/Decode.lean ====
section
/-!
DEFINITION. The decoder of the three formats, the instruction encoder of spec/41_instruction_encoder.md, the encoder of whole
instructions, and the host's table words.
-/

namespace Sys2Proof

/-! ### The instruction encoder (spec/41_instruction_encoder.md R170 to R178): pure functions to one byte, don't-care bits 0
(R108). The layouts R107 marks "from general knowledge" are PRESUMED (assumption log 21). -/

/-- One bit of an instruction byte, in place `k`. -/
def bitAt (b : Bool) (k : Nat) : Byte := (BitVec.ofBool b).setWidth 8 <<< k

/-- R171. -/
def encClear : Byte := 0x01#8

/-- R172. -/
def encReturnHome : Byte := 0x02#8

/-- R173. -/
def encEntryMode (i s : Bool) : Byte := 0x04#8 ||| bitAt i 1 ||| bitAt s 0

/-- R174. -/
def encDisplayControl (d c b : Bool) : Byte := 0x08#8 ||| bitAt d 2 ||| bitAt c 1 ||| bitAt b 0

/-- R175. -/
def encShift (sc rl : Bool) : Byte := 0x10#8 ||| bitAt sc 3 ||| bitAt rl 2

/-- R176. -/
def encFunctionSet (dl n f : Bool) : Byte := 0x20#8 ||| bitAt dl 4 ||| bitAt n 3 ||| bitAt f 2

/-- R177. -/
def encSetCgram (a : BitVec 6) : Byte := 0x40#8 ||| a.setWidth 8

/-- R178. -/
def encSetDdram (a : BitVec 7) : Byte := 0x80#8 ||| a.setWidth 8

/-! ### Bus words -/

/-- The byte transfer `(RS, b)` as a 9-bit word, RS in bit 8 (R105). -/
def byteWord (rs : Bool) (b : Byte) : Bus9 := BitVec.ofBool rs ++ b

/-- The nibble transfer `(RS, n)` as a 5-bit word, RS in bit 4 (R106). -/
def nibbleWord (rs : Bool) (n : Nibble) : Bus5 := BitVec.ofBool rs ++ n

/-- The high nibble of a byte (R113). -/
def hiNibble (b : Byte) : Nibble := b.extractLsb' 4 4

/-- The low nibble of a byte (R113). -/
def loNibble (b : Byte) : Nibble := b.extractLsb' 0 4

/-- Stand-alone nibble of the wake-up: the high nibble of the 8-bit function set 0x30 (R176(a)). -/
def nibbleWakeUp : Nibble := hiNibble (encFunctionSet true false false)

/-- Stand-alone nibble of the switch to 4-bit: the high nibble of 0x20 (R176(b)). -/
def nibbleSwitch4 : Nibble := hiNibble (encFunctionSet false false false)

/-! ### Decoding -/

/-- A byte transfer against the bus9 rows of the opcode table: `w & mask = match` (R107). -/
def decodeBus9 (w : Bus9) : Except DecodeError Instr :=
  if w &&& 0x1FF#9 = 0x001#9 then .ok .clearDisplay
  else if w &&& 0x1FE#9 = 0x002#9 then .ok .returnHome
  else if w &&& 0x1FC#9 = 0x004#9 then .ok (.entryModeSet (w.getLsbD 1) (w.getLsbD 0))
  else if w &&& 0x1F8#9 = 0x008#9 then .ok (.displayControl (w.getLsbD 2) (w.getLsbD 1) (w.getLsbD 0))
  else if w &&& 0x1F0#9 = 0x010#9 then .ok (.cursorDisplayShift (w.getLsbD 3) (w.getLsbD 2))
  else if w &&& 0x1E0#9 = 0x020#9 then .ok (.functionSet (w.getLsbD 4) (w.getLsbD 3) (w.getLsbD 2))
  else if w &&& 0x1C0#9 = 0x040#9 then .ok (.setCgramAddr (w.extractLsb' 0 6))
  else if w &&& 0x180#9 = 0x080#9 then .ok (.setDdramAddr (w.extractLsb' 0 7))
  else if w &&& 0x100#9 = 0x100#9 then .ok (.writeData (w.extractLsb' 0 8))
  else .error .noInstruction

/-- A stand-alone nibble transfer against the bus5 rows of the opcode table (R106, R176). -/
def decodeBus5 (w : Bus5) : Except DecodeError Instr :=
  if w &&& 0x1F#5 = 0x03#5 then .ok .functionSetNibble8bit
  else if w &&& 0x1F#5 = 0x02#5 then .ok .functionSetNibble4bit
  else .error .noStandAloneNibble

/-- A command on the command port (R100, R101): every `CMD_OP` is a row; a command takes the operand fields it names. -/
def decodeCmd (c : Command) : Instr :=
  match c.op with
  | 0x0#4 => .init c.initRs c.initEn c.initPort c.initW8
  | 0x1#4 => .setcur c.arg0 c.arg1
  | 0x2#4 => .putc c.arg0
  | 0x3#4 => .print c.text
  | 0x4#4 => .scrl
  | 0x5#4 => .scrr
  | 0x6#4 => .curon c.arg0
  | 0x7#4 => .curoff
  | 0x8#4 => .glyph c.arg0 c.pattern
  | 0x9#4 => .clear
  | 0xA#4 => .home
  | 0xB#4 => .reservedB
  | 0xC#4 => .reservedC
  | 0xD#4 => .reservedD
  | 0xE#4 => .reservedE
  | _ => .reservedF -- 0xF, the one value left

/-- The decoder, total on every word of each format. -/
def decode : Encoding → Except DecodeError Instr
  | .hostCmd c => .ok (decodeCmd c)
  | .bus9 w => decodeBus9 w
  | .bus5 w => decodeBus5 w

/-! ### Encoding -/

/-- A command with operation code `op` and every operand field zero. -/
def Command.blank (op : CmdOp) : Command where
  op := op
  arg0 := 0
  arg1 := 0
  pattern := Vector.replicate 7 0
  text := []
  initRs := ⟨0, 0⟩
  initEn := ⟨0, 0⟩
  initPort := 0
  initW8 := false

/-- The command `i` presented over a command port that holds `base`: the operation code and the fields the command names are
the instruction's, every other field is the port's (R101). A bus transfer is no command and leaves the port as it is. -/
def Instr.onPort (base : Command) : Instr → Command
  | .init rs en port w8 => { base with op := 0x0#4, initRs := rs, initEn := en, initPort := port, initW8 := w8 }
  | .setcur col row => { base with op := 0x1#4, arg0 := col, arg1 := row }
  | .putc b => { base with op := 0x2#4, arg0 := b }
  | .print text => { base with op := 0x3#4, text := text }
  | .scrl => { base with op := 0x4#4 }
  | .scrr => { base with op := 0x5#4 }
  | .curon arg0 => { base with op := 0x6#4, arg0 := arg0 }
  | .curoff => { base with op := 0x7#4 }
  | .glyph index pattern => { base with op := 0x8#4, arg0 := index, pattern := pattern }
  | .clear => { base with op := 0x9#4 }
  | .home => { base with op := 0xA#4 }
  | .reservedB => { base with op := 0xB#4 }
  | .reservedC => { base with op := 0xC#4 }
  | .reservedD => { base with op := 0xD#4 }
  | .reservedE => { base with op := 0xE#4 }
  | .reservedF => { base with op := 0xF#4 }
  | .clearDisplay => base
  | .returnHome => base
  | .entryModeSet _ _ => base
  | .displayControl _ _ _ => base
  | .cursorDisplayShift _ _ => base
  | .functionSet _ _ _ => base
  | .setCgramAddr _ => base
  | .setDdramAddr _ => base
  | .writeData _ => base
  | .functionSetNibble8bit => base
  | .functionSetNibble4bit => base

/-- The word of an instruction in its format: a command with the fields it does not name zero, or a bus word with its
don't-care bits zero (R108). -/
def encode (i : Instr) : Encoding :=
  match i with
  | .clearDisplay => .bus9 (byteWord false encClear)
  | .returnHome => .bus9 (byteWord false encReturnHome)
  | .entryModeSet i s => .bus9 (byteWord false (encEntryMode i s))
  | .displayControl d c b => .bus9 (byteWord false (encDisplayControl d c b))
  | .cursorDisplayShift sc rl => .bus9 (byteWord false (encShift sc rl))
  | .functionSet dl n f => .bus9 (byteWord false (encFunctionSet dl n f))
  | .setCgramAddr a => .bus9 (byteWord false (encSetCgram a))
  | .setDdramAddr a => .bus9 (byteWord false (encSetDdram a))
  | .writeData d => .bus9 (byteWord true d)
  | .functionSetNibble8bit => .bus5 (nibbleWord false nibbleWakeUp)
  | .functionSetNibble4bit => .bus5 (nibbleWord false nibbleSwitch4)
  | .init rs en port w8 => .hostCmd (Instr.onPort (Command.blank 0) (.init rs en port w8))
  | .setcur col row => .hostCmd (Instr.onPort (Command.blank 0) (.setcur col row))
  | .putc b => .hostCmd (Instr.onPort (Command.blank 0) (.putc b))
  | .print text => .hostCmd (Instr.onPort (Command.blank 0) (.print text))
  | .scrl => .hostCmd (Instr.onPort (Command.blank 0) .scrl)
  | .scrr => .hostCmd (Instr.onPort (Command.blank 0) .scrr)
  | .curon arg0 => .hostCmd (Instr.onPort (Command.blank 0) (.curon arg0))
  | .curoff => .hostCmd (Instr.onPort (Command.blank 0) .curoff)
  | .glyph index pattern => .hostCmd (Instr.onPort (Command.blank 0) (.glyph index pattern))
  | .clear => .hostCmd (Instr.onPort (Command.blank 0) .clear)
  | .home => .hostCmd (Instr.onPort (Command.blank 0) .home)
  | .reservedB => .hostCmd (Instr.onPort (Command.blank 0) .reservedB)
  | .reservedC => .hostCmd (Instr.onPort (Command.blank 0) .reservedC)
  | .reservedD => .hostCmd (Instr.onPort (Command.blank 0) .reservedD)
  | .reservedE => .hostCmd (Instr.onPort (Command.blank 0) .reservedE)
  | .reservedF => .hostCmd (Instr.onPort (Command.blank 0) .reservedF)

/-! ### The host's table words (assumption log 16) -/

/-- A word numbered as spec/opcode_table.json numbers it, in the format its length says: more than 8 bits is a byte transfer,
exactly 5 bits a nibble transfer, and anything else a command, whose `CMD_OP` is bits 3..0 and whose operand fields are zero.
The rows of formats host_cmd and bus5 are both one byte long, so a one-byte word is read on the command port. -/
def tableEncoding (nbits w : Nat) : Encoding :=
  if 8 < nbits then .bus9 (BitVec.ofNat 9 w)
  else if nbits = 5 then .bus5 (BitVec.ofNat 5 w)
  else .hostCmd (Command.blank (BitVec.ofNat 4 w))

/-- The instruction the decoder reads from a table word. -/
def decodeTableWord (nbits w : Nat) : Option Instr :=
  (decode (tableEncoding nbits w)).toOption

end Sys2Proof
end

