-- ==== Sys2Proof/Machine/State.lean ====
section
/-!
DEFINITION. The state of the engine (spec/10_state.md), its value after reset (R50, R300), and the reasons a step can stop.
-/

namespace Sys2Proof.Machine

/-- The command FSM (R36, R190). -/
inductive Fsm where
  | uninitialized
  | poweringOn
  | configuring
  | ready
  deriving DecidableEq, Repr

/-- The events of the trace (R45). Each is also the primitive micro-operation that emits it: SET_RS (R140), SET_E (R141), BUS8
(R142), BUS4 (R143), WAIT_US and WAIT_MS (R145). -/
inductive Event where
  | setRS (b : Bool)
  | setE (b : Bool)
  | bus8 (v : Byte)
  | bus4 (n : Nibble)
  | waitUs (n : Nat)
  | waitMs (n : Nat)
  deriving DecidableEq, Repr

/-- The micro-operations a micro-program is made of (spec/40_bus_strobing.md), and the register writes of INIT's program
(spec/42_init_fsm.md R195, R196, R199, R201). -/
inductive MicroOp where
  /-- A primitive micro-operation, named by the event it emits (R140 to R143, R145). -/
  | line (e : Event)
  /-- ENABLE_PULSE (R144). -/
  | enablePulse
  /-- SEND_BYTE (R146). -/
  | sendByte (rs : Bool) (b : Byte)
  /-- SEND_NIBBLE (R148). -/
  | sendNibble (rs : Bool) (n : Nibble)
  /-- TIMER_INIT (R282). -/
  | timerInit
  /-- `CFG_* <- INIT operands` (R195), read from the command latch. -/
  | storeConfig
  /-- `FSM <- f` (R196, R199, R201). -/
  | setFsm (f : Fsm)
  deriving DecidableEq, Repr

/-- The delay timer's registers (R44). -/
structure Timer where
  configured : Bool
  reload : Nat
  current : Nat
  countFlag : Bool
  clkSrc : Bool
  deriving DecidableEq, Repr

/-- The fault reasons of R261, each with what the table says it records. -/
inductive FaultReason where
  | notInitialized (op : CmdOp)
  | reservedCommand (op : CmdOp)
  | configInvalid (rs en : PinRef) (port : Nat) (w8 : Bool)
  | alreadyInitialized (op : CmdOp)
  deriving DecidableEq, Repr

/-- What the host does between commands: present a command (R192), or write an output register (R43, R73). -/
inductive HostMove where
  | command (c : Command)
  | writeReg (addr value : Nat)
  deriving DecidableEq, Repr

/-- The output registers: (address, value) pairs, addresses strictly rising, no value equal to what an unlisted register reads
as (R43, R70). The spec's smallest addressable unit is one register of PORT_WIDTH bits (R77). -/
abbrev Memory := List (Nat × Nat)

/-- The engine's state. `params` is what the platform fixes (R9, R11, R12); `presented` and `draws` are the model's own. -/
structure State where
  /-- Platform and timing parameters (R9, R11, R12); no step writes them. -/
  params : Params
  /-- `CFG_RS` (R31). -/
  cfgRS : PinRef
  /-- `CFG_EN` (R32). -/
  cfgEN : PinRef
  /-- `CFG_PORT` (R33). -/
  cfgPort : Nat
  /-- `CFG_WIDTH`, `true` for the 8-bit interface (R34). -/
  cfgW8 : Bool
  /-- `FSM` (R36). -/
  fsm : Fsm
  /-- `BUSY` (R38). -/
  busy : Bool
  /-- `PROG` (R37, R40). -/
  prog : List MicroOp
  /-- `upc` (R40). -/
  upc : Nat
  /-- The command latch (R39). -/
  latch : Command
  /-- `OUTREG` (R43). -/
  outreg : Memory
  /-- The delay-timer registers (R44). -/
  timer : Timer
  /-- `TRACE`, oldest event first (R45). -/
  trace : List Event
  /-- `FAULT` (R46). -/
  fault : Option FaultReason
  /-- The host's moves still to come, oldest first (assumption log 17). -/
  presented : List HostMove
  /-- How many free values have been drawn (assumption log 12). -/
  draws : Nat
  deriving DecidableEq, Repr

/-- Why the machine stops. -/
inductive Fault where
  /-- Raised by every step of an engine whose FAULT is set: "no step at all" (R192, R269). Safe: the spec's own stop. -/
  | halted (r : FaultReason)
  /-- Raised by a wait whose count flag never sets, so that the poll never ends: the timer is not configured, or its reload value
  is 0 (R283, R286, U11 "stuck"). Safe: the hardware polls for ever there. -/
  | waitNeverReturns
  /-- Raised by an access to an address outside the output-register space of ADDR_WIDTH-bit addresses (R70). Safe: no such
  register exists. -/
  | noSuchRegister (addr : Nat)
  deriving DecidableEq, Repr

/-- Why the machine gives no meaning. -/
inductive Refusal where
  /-- Raised by exec for an instruction without a meaning. Safe. -/
  | notModelled (mnemonic : String)
  /-- Raised by a host command executed while BUSY = 1: "not a move the model has" (R266, U5). Safe; no step raises it. -/
  | commandWhileBusy
  /-- Raised by the step for a presented INIT with an address of more than ADDR_WIDTH bits, which its fields cannot hold (R101).
  Safe. -/
  | operandTooWide
  /-- Raised by an INIT that acceptance would let through while the Enable line its operands name is high: "A run whose E starts
  high is outside every claim" (R303), "refuse" (U20; assumption log 24). Safe: nothing is claimed of such a run. -/
  | enableHigh
  deriving DecidableEq, Repr

/-- A timer before its initialisation: not configured (R44); the registers R50 leaves unspecified at 0 (DESIGN CHOICE,
assumption log 8). -/
def Timer.reset : Timer where
  configured := false
  reload := 0
  current := 0
  countFlag := false
  clkSrc := false

/-- The engine right after power-on (R50, R300). DESIGN CHOICE: what R50 leaves unspecified is 0 (assumption logs 6 to 9), the
open parameters are those of `Params.standard` (log 1), the host has presented nothing (log 17) and no free value is drawn
(log 12). -/
def State.reset : State where
  params := Params.standard
  cfgRS := ⟨0, 0⟩
  cfgEN := ⟨0, 0⟩
  cfgPort := 0
  cfgW8 := false
  fsm := .uninitialized
  busy := false
  prog := []
  upc := 0
  latch := Command.blank 0
  outreg := []
  timer := Timer.reset
  trace := []
  fault := none
  presented := []
  draws := 0

end Sys2Proof.Machine
end

