-- ==== Sys2Proof/Machine/Flags.lean ====
section
/-!
DEFINITION. The one flag of the engine, the timer's count flag, with its counting law (spec/60_exceptions.md R286; the engine has
no other flag, R47), and the long-wait predicate (spec/40_bus_strobing.md R150).
-/

namespace Sys2Proof.Machine

/-! ### The count flag (R286; the law is PRESUMED, assumption log 22) -/

/-- Any write to `TMR_CURRENT` "sets it to 0 and clears `TMR_COUNTFLAG`" (R286). -/
def Timer.clearCurrent (t : Timer) : Timer := { t with current := 0, countFlag := false }

/-- One core-clock cycle (R286): nothing while not configured; at 0 reload, flag unchanged; else decrement, and set the flag on
reaching 0. -/
def Timer.cycle (t : Timer) : Timer :=
  if t.configured then
    if t.current = 0 then { t with current := t.reload }
    else { t with current := t.current - 1, countFlag := t.countFlag || t.current == 1 }
  else t

/-- `n` core-clock cycles. -/
def Timer.run : Nat → Timer → Timer
  | 0, t => t
  | n + 1, t => Timer.run n t.cycle

/-! ### The long wait -/

/-- `LONG(rs, b)` (R150): an instruction byte whose opcode is clear-display or return-home, by name or, under `Below4`, by
being numerically below 4. -/
def longWait (p : Params) (rs : Bool) (b : Byte) : Bool :=
  !rs && (match p.longWaitRule with
    | .equal => b == encClear || b == encReturnHome
    | .below4 => decide (b.toNat < 4))

end Sys2Proof.Machine
end

