-- ==== Sys2Proof/Machine/Operands.lean ====
section
/-!
DEFINITION. Operand forms: how a command's fields become addresses and bytes (spec/30_encoding.md R101, R102, R111 to R113;
spec/20_memory.md R84, R85), and the bit fields of an output register (R74 to R76).
-/

namespace Sys2Proof.Machine

/-- The cursor range check, unsigned (R102, R221): `col < 16` and `row < 2`. -/
def cursorInRange (col row : Byte) : Bool := decide (col.toNat < 16) && decide (row.toNat < 2)

/-- The DDRAM address of cell `(col, row)` (R84): `0x00 + col` in row 0, `0x40 + col` in row 1. -/
def ddramAddr (col row : Byte) : BitVec 7 := (if row = 0 then 0x00#7 else 0x40#7) + col.setWidth 7

/-- The glyph index check, unsigned (R102, R228): `index < 8`. -/
def glyphInRange (index : Byte) : Bool := decide (index.toNat < 8)

/-- The CGRAM address of glyph `index` (R85): `index × 8`. -/
def cgramAddr (index : Byte) : BitVec 6 := index.setWidth 6 * 8#6

/-- The blink operand of CURON: bit 0 of ARG0, bits 7..1 ignored (R101, R226). -/
def blinkOf (arg0 : Byte) : Bool := arg0.getLsbD 0

/-- The bytes PRINT sends: those before the first zero byte, all of them where there is none (R223). -/
def textToSend (text : List Byte) : List Byte := text.takeWhile (· ≠ 0)

/-- `v & ~mask` on registers of any width (R74). -/
def clearBits (v mask : Nat) : Nat := v ^^^ (v &&& mask)

/-- The read-modify-write of one line: `(old & ~mask) | (b ? mask : 0)` (R74). -/
def withLine (old mask : Nat) (b : Bool) : Nat := clearBits old mask ||| (if b then mask else 0)

/-- The read-modify-write of the 4-bit data write: `{old[PORT_WIDTH-1:4], n[3:0]}` (R76). -/
def withLowNibble (old : Nat) (n : Nibble) : Nat := (old >>> 4) <<< 4 ||| n.toNat

/-- The 8-bit data write: `{upper, v[7:0]}` (R75). -/
def withLowByte (upper : Nat) (v : Byte) : Nat := upper <<< 8 ||| v.toNat

end Sys2Proof.Machine
end

