-- ==== Sys2Proof/Machine/Ops.lean ====
section
/-!
DEFINITION. The shared operations: memory, lines and timer, the micro-operations (spec/40_bus_strobing.md), raising a fault
(spec/60_exceptions.md R269), command acceptance and the run of a micro-program (spec/42_init_fsm.md R192, spec/10_state.md
R37 to R40).
-/

namespace Sys2Proof.Machine

/-- The three outcomes on this machine. -/
abbrev Result := Host.Outcome State Fault Refusal

/-- Go on from a next state; a stop stays that stop. -/
def andThen (o : Result) (f : State → Result) : Result :=
  match o with
  | .next s => f s
  | .fault r => .fault r
  | .refused r => .refused r

/-! ### Memory: the output registers (R70, R73, R77) -/

/-- What an unlisted register reads as. DESIGN CHOICE: 0; the spec leaves a register's value at reset to the host (R43; assumption
log 9). -/
def Memory.unlisted : Nat := 0

/-- The register's value. -/
def Memory.read (m : Memory) (addr : Nat) : Nat :=
  match m with
  | [] => Memory.unlisted
  | (a, v) :: rest => if a = addr then v else Memory.read rest addr

/-- Put `(addr, v)` before `m`, unless an unlisted register reads as `v` anyway. -/
def Memory.list (m : Memory) (addr v : Nat) : Memory :=
  if v = Memory.unlisted then m else (addr, v) :: m

/-- Write a register, keeping the canonical form. -/
def Memory.write (m : Memory) (addr v : Nat) : Memory :=
  match m with
  | [] => Memory.list [] addr v
  | (a, u) :: rest =>
    if addr < a then Memory.list ((a, u) :: rest) addr v
    else if addr = a then Memory.list rest addr v
    else (a, u) :: Memory.write rest addr v

/-- The canonical form: addresses strictly rising, and no entry an unlisted register reads as. -/
abbrev Memory.wf (m : Memory) : Prop :=
  m.Pairwise (fun c d => c.1 < d.1) ∧ ∀ c ∈ m, c.2 ≠ Memory.unlisted

/-- Every listed register is one of the space, with a value of PORT_WIDTH bits (R70). -/
abbrev Memory.fits (p : Params) (m : Memory) : Prop :=
  ∀ c ∈ m, c.1 < 2 ^ p.addrWidth ∧ c.2 < 2 ^ p.portWidth

/-- `MemRead(addr, PORT_WIDTH)` (R14, R73). -/
def State.memRead (s : State) (addr : Nat) : Nat := s.outreg.read addr

/-- `MemWrite(addr, PORT_WIDTH, v)` (R14): a PORT_WIDTH-bit register keeps the low PORT_WIDTH bits. -/
def State.memWrite (s : State) (addr v : Nat) : State :=
  { s with outreg := s.outreg.write addr (v % 2 ^ s.params.portWidth) }

/-! ### Small updates of the state -/

/-- `emit(e)` (R14). -/
def State.emit (s : State) (e : Event) : State := { s with trace := s.trace ++ [e] }

/-- Replace the timer's registers. -/
def State.setTimer (s : State) (t : Timer) : State := { s with timer := t }

/-- `n` free values have been drawn. -/
def State.drew (s : State) (n : Nat) : State := { s with draws := s.draws + n }

/-- `upc <- upc + 1` (R40). -/
def State.advance (s : State) : State := { s with upc := s.upc + 1 }

/-- `BUSY <- 0` (R40). -/
def State.complete (s : State) : State := { s with busy := false }

/-- Fault entry (R269): `FAULT <- reason`; "nothing else is saved; no mode, mask or stack changes". There is no return from a
fault (R270). -/
def State.raise (s : State) (r : FaultReason) : State := { s with fault := some r }

/-- The code R261 gives a fault reason. -/
def FaultReason.code : FaultReason → Nat
  | .notInitialized _ => 1
  | .reservedCommand _ => 2
  | .configInvalid _ _ _ _ => 3
  | .alreadyInitialized _ => 4

/-- The 2-bit code of an FSM state (R36). -/
def Fsm.code : Fsm → BitVec 2
  | .uninitialized => 0b00#2
  | .poweringOn => 0b01#2
  | .configuring => 0b10#2
  | .ready => 0b11#2

/-- Go on to `t` if `addr` is an address of the output-register space (R70). -/
def accessing (s : State) (addr : Nat) (t : State) : Result :=
  if s.params.hasAddr addr then .next t else .fault (.noSuchRegister addr)

/-! ### The output lines (R42, R74 to R76) -/

/-- The level of the line at PinRef `pin`: `(OUTREG[pin.addr] & pin.mask) ≠ 0` (R42). -/
def State.pinHigh (s : State) (pin : PinRef) : Bool := s.memRead pin.addr &&& pin.mask != 0

/-- A line write to PinRef `p` (R74). -/
def State.writeLine (s : State) (p : PinRef) (b : Bool) : State :=
  s.memWrite p.addr (withLine (s.memRead p.addr) p.mask b)

/-- `draw(n)`: `n` free bits, none for `n = 0` (R75). -/
def State.drawBits (s : State) (n : Nat) : Nat :=
  if n = 0 then 0 else Config.freePortBits s.draws % 2 ^ n

/-- The 8-bit data write (R75). -/
def State.writeBus8 (s : State) (v : Byte) : State :=
  (s.memWrite s.cfgPort (withLowByte (s.drawBits (s.params.portWidth - 8)) v)).drew 1

/-- The 4-bit data write (R76). -/
def State.writeBus4 (s : State) (n : Nibble) : State :=
  s.memWrite s.cfgPort (withLowNibble (s.memRead s.cfgPort) n)

/-! ### The delay timer (R282 to R285) -/

/-- `TIMER_INIT` (R282), for a timer of `w` bits. -/
def Timer.init (w : Nat) (t : Timer) : Timer :=
  { ({ t with clkSrc := true, reload := 2 ^ w - 1 } : Timer).clearCurrent with configured := true }

/-- The first two lines of `wait_ticks(p)` (R283): `TMR_RELOAD <- trunc_W(p - 1)`, `TMR_CURRENT <- 0`. -/
def Timer.load (w p : Nat) (t : Timer) : Timer :=
  ({ t with reload := (p - 1) % 2 ^ w } : Timer).clearCurrent

/-- How many core-clock cycles the poll of a loaded timer takes: `TMR_RELOAD + 1`, after which the flag is set, and the free
number of cycles until the poll reads it (R283, R286; free value, assumption log 11). -/
def Timer.pollCycles (k : Nat) (t : Timer) : Nat := t.reload + 1 + Config.freePollLatency k

/-- The loaded timer when the poll has ended; the read may or may not clear the flag (R283, R286; free value, assumption
log 11). -/
def Timer.polled (k : Nat) (t : Timer) : Timer :=
  { t with
    current := (Timer.run (t.pollCycles k) t).current
    countFlag := Config.freeFlagAfterPoll k }

/-- The flag of a loaded timer will be set: it is configured, and its reload value is not 0 (R286; the other case is "stuck",
U11). -/
def Timer.counts (t : Timer) : Bool := t.configured && t.reload != 0

/-- `wait_ticks(p)` with free value `k` (R283); `none` where the poll never ends. -/
def Timer.waitTicks (w p k : Nat) (t : Timer) : Option Timer :=
  if (t.load w p).counts then some ((t.load w p).polled k) else none

/-- `n` calls of `wait_ticks(p)`, the first with free value `k` (R284, R285). Each call loads the timer anew, so the registers
are those the last call leaves; that this is the `n`-fold composition is stated as an obligation. -/
def Timer.waitUnits (w p n k : Nat) (t : Timer) : Option Timer :=
  match n with
  | 0 => some t
  | n + 1 => t.waitTicks w p (k + n)

/-- `wait_us(n)` and `wait_ms(n)` (R284, R285): emit the event and make `n` calls of `wait_ticks(p)`. -/
def waiting (p n : Nat) (e : Event) (s : State) : Result :=
  match s.timer.waitUnits s.params.timerWidth p n s.draws with
  | some t => .next (((s.emit e).setTimer t).drew n)
  | none => .fault .waitNeverReturns

/-! ### The primitive micro-operations (R140 to R143, R145) -/

/-- Perform the micro-operation that emits `e`, and emit it. -/
def drive (e : Event) (s : State) : Result :=
  match e with
  | .setRS b => accessing s s.cfgRS.addr ((s.writeLine s.cfgRS b).emit e)
  | .setE b => accessing s s.cfgEN.addr ((s.writeLine s.cfgEN b).emit e)
  | .bus8 v => accessing s s.cfgPort ((s.writeBus8 v).emit e)
  | .bus4 n => accessing s s.cfgPort ((s.writeBus4 n).emit e)
  | .waitUs n => waiting s.params.ticksPerUs n e s
  | .waitMs n => waiting s.params.ticksPerMs n e s

/-- Perform primitive micro-operations in list order (R37). -/
def driveAll : List Event → State → Result
  | [], s => .next s
  | e :: es, s => andThen (drive e s) (driveAll es)

/-- A `wait_us(n)` as issued: "A wait of length 0 is never issued and emits no event" (R145). -/
def issueUs (n : Nat) : List Event := if n = 0 then [] else [.waitUs n]

/-- A `wait_ms(n)` as issued (R145). -/
def issueMs (n : Nat) : List Event := if n = 0 then [] else [.waitMs n]

/-! ### The composed micro-operations (R144, R146, R148) -/

/-- ENABLE_PULSE (R144). -/
def pulseEvents (p : Params) : List Event :=
  issueUs p.tSetupUs ++ [.setE true] ++ issueUs p.tPulseUs ++ [.setE false] ++ issueUs p.tSettleUs

/-- SEND_BYTE (R146) on the interface of width `w8`: one pulse, or two with the high nibble first; then the long wait. -/
def byteEvents (p : Params) (w8 rs : Bool) (b : Byte) : List Event :=
  [.setRS rs]
    ++ (if w8 then .bus8 b :: pulseEvents p
        else .bus4 (hiNibble b) :: pulseEvents p ++ .bus4 (loNibble b) :: pulseEvents p)
    ++ (if longWait p rs b then issueMs p.tLongMs else [])

/-- SEND_NIBBLE (R148): no long wait. -/
def nibbleEvents (p : Params) (rs : Bool) (n : Nibble) : List Event :=
  [.setRS rs, .bus4 n] ++ pulseEvents p

/-- The primitive micro-operations a micro-operation consists of, under the parameters and the interface width; a register
write has none. -/
def MicroOp.events (p : Params) (w8 : Bool) : MicroOp → List Event
  | .line (.waitUs n) => issueUs n
  | .line (.waitMs n) => issueMs n
  | .line e => [e]
  | .enablePulse => pulseEvents p
  | .sendByte rs b => byteEvents p w8 rs b
  | .sendNibble rs n => nibbleEvents p rs n
  | .timerInit => []
  | .storeConfig => []
  | .setFsm _ => []

/-- `CFG_* <- INIT operands` (R195). -/
def State.storeConfig (s : State) : State :=
  { s with cfgRS := s.latch.initRs, cfgEN := s.latch.initEn, cfgPort := s.latch.initPort, cfgW8 := s.latch.initW8 }

/-- `FSM <- f` (R36). -/
def State.setFsm (s : State) (f : Fsm) : State := { s with fsm := f }

/-- The register write of a micro-operation, none for one that drives lines (R195, R196, R199, R201, R282). -/
def MicroOp.writes (op : MicroOp) (s : State) : State :=
  match op with
  | .line _ => s
  | .enablePulse => s
  | .sendByte _ _ => s
  | .sendNibble _ _ => s
  | .timerInit => s.setTimer (s.timer.init s.params.timerWidth)
  | .storeConfig => s.storeConfig
  | .setFsm f => s.setFsm f

/-- Perform one micro-operation. -/
def perform (op : MicroOp) (s : State) : Result :=
  driveAll (op.events s.params s.cfgW8) (op.writes s)

/-! ### Micro-programs (R37, R40, R147) -/

/-- `INSTR(b)` (R147). -/
def instrOp (b : Byte) : MicroOp := .sendByte false b

/-- `DATA(b)` (R147). -/
def dataOp (b : Byte) : MicroOp := .sendByte true b

/-- Perform micro-operations in list order, advancing `upc` after each, and end the command after the last (R40). -/
def runOps : List MicroOp → State → Result
  | [], s => .next s.complete
  | op :: ops, s => andThen (perform op s) (fun t => runOps ops t.advance)

/-- Run the whole micro-program of the state: "a model may equally expand and execute in one step" (R41). -/
def runProgram (s : State) : Result := runOps s.prog s

/-! ### Command acceptance (R192) -/

/-- What stands on the command port: the command the host presents, or else the command latched last. -/
def State.commandPort (s : State) : Command :=
  match s.presented with
  | .command c :: _ => c
  | _ => s.latch

/-- The end of acceptance (R192): latch the command, `BUSY <- 1; PROG <- program(command); upc <- 0`. -/
def State.accept (s : State) (c : Command) (program : Params → Command → List MicroOp) : State :=
  { s with latch := c, busy := true, prog := program s.params c, upc := 0 }

/-- The start of acceptance: a faulted engine takes "no step at all" (R192, R269), and a command while BUSY = 1 is no move
(R266; assumption log 19). -/
def whenIdle (s : State) (o : Result) : Result :=
  match s.fault with
  | some r => .fault (.halted r)
  | none => if s.busy then .refused .commandWhileBusy else o

/-- A display command (R192, R220): `Fault(NotInitialized)` unless `FSM = Ready`. -/
def displayCommand (c : Command) (program : Params → Command → List MicroOp) (s : State) : Result :=
  whenIdle s
    (if s.fsm = .ready then runProgram (s.accept c program) else .next (s.raise (.notInitialized c.op)))

/-- A reserved operation code (R192, R263): `Fault(ReservedCommand)`, and no line is driven. -/
def reservedCommand (op : CmdOp) (s : State) : Result :=
  whenIdle s (.next (s.raise (.reservedCommand op)))

/-! ### INIT's admissibility (R193, R281, R12, R9) -/

/-- R193(a): exactly one bit set within PORT_WIDTH bits. -/
def isOneBit (p : Params) (mask : Nat) : Bool :=
  (List.range p.portWidth).any (fun k => mask == 2 ^ k)

/-- R193(c) for one PinRef: a line on the data port needs the 4-bit interface and a mask outside bits 3..0. -/
def lineOffData (pin : PinRef) (port : Nat) (w8 : Bool) : Bool :=
  pin.addr != port || (!w8 && pin.mask &&& 0xF == 0)

/-- R281: the timer constants are admissible. -/
def timerOk (p : Params) : Bool :=
  decide (2 ≤ p.ticksPerUs) && decide (p.ticksPerUs ≤ 2 ^ p.timerWidth)
    && decide (2 ≤ p.ticksPerMs) && decide (p.ticksPerMs ≤ 2 ^ p.timerWidth)
    && decide (p.coreClockHz ≤ p.ticksPerUs * 1000000) && decide (p.coreClockHz ≤ p.ticksPerMs * 1000)

/-- R12: each timing parameter is at least its minimum. -/
def timingOk (p : Params) : Bool :=
  decide (15 ≤ p.tPowerOnMs) && decide (4100 ≤ p.tWake1Us) && decide (100 ≤ p.tWake2Us)
    && decide (1 ≤ p.tSetupUs) && decide (1 ≤ p.tPulseUs) && decide (45 ≤ p.tSettleUs) && decide (5 ≤ p.tLongMs)

/-- R9: the open parameters are in their ranges. -/
def rangesOk (p : Params) : Bool :=
  decide (0 < p.coreClockHz) && decide (0 < p.timerWidth) && decide (8 ≤ p.portWidth) && decide (0 < p.addrWidth)

/-- "Model parameters outside their admitted ranges ... also make every INIT fail" (R264). -/
def paramsOk (p : Params) : Bool := timerOk p && timingOk p && rangesOk p

/-- `admissible(INIT_RS, INIT_EN, INIT_PORT, INIT_W8)` (R193). -/
def initAdmissible (p : Params) (rs en : PinRef) (port : Nat) (w8 : Bool) : Bool :=
  isOneBit p rs.mask && isOneBit p en.mask && rs != en
    && lineOffData rs port w8 && lineOffData en port w8 && paramsOk p

/-! ### Transfers run on their own (R147, R148) -/

/-- The micro-operation of a bus row, run by an engine that has not faulted (R269). -/
def transfer (op : MicroOp) (s : State) : Result :=
  match s.fault with
  | some r => .fault (.halted r)
  | none => perform op s

/-! ### The host's moves (R43, R73, R302) -/

/-- The bits of the register at `addr` that RS, E and the data lines of the current width are (R43). -/
def State.engineBits (s : State) (addr : Nat) : Nat :=
  (if s.cfgRS.addr = addr then s.cfgRS.mask else 0)
    ||| (if s.cfgEN.addr = addr then s.cfgEN.mask else 0)
    ||| (if s.cfgPort = addr then (if s.cfgW8 then 0xFF else 0xF) else 0)

/-- The bits of the register at `addr` that the engine owns: none before INIT, whose configuration names them (R31, R43). -/
def State.ownedBits (s : State) (addr : Nat) : Nat :=
  if s.fsm = .uninitialized then 0 else s.engineBits addr

/-- The host writes the bits it owns of one register (R43, R73); the engine's bits keep their value (assumption log 20). -/
def hostWrite (addr value : Nat) (s : State) : Result :=
  accessing s addr
    (s.memWrite addr (clearBits value (s.ownedBits addr) ||| (s.memRead addr &&& s.ownedBits addr)))

/-- The first of the host's moves has been made. -/
def State.consume (s : State) : State := { s with presented := s.presented.tail }

/-! ### A table word as the next instruction (assumption log 16) -/

/-- Put a micro-operation where a running command's next one is fetched: the one element of PROG, with the timer running, as INIT's
first step leaves it (R195: it "must run before any delay call"). -/
def State.withTransfer (s : State) (op : MicroOp) : State :=
  { s with busy := true, prog := [op], upc := 0, timer := s.timer.init s.params.timerWidth }

/-- `s` with the instruction of a table word as its next one: a command before the host's other moves, or a transfer as the one
micro-operation of PROG. -/
def State.withEncoding (s : State) (e : Encoding) : State :=
  match e with
  | .hostCmd c => { s with busy := false, presented := .command c :: s.presented }
  | .bus9 w => s.withTransfer (.sendByte (w.getLsbD 8) (w.extractLsb' 0 8))
  | .bus5 w => s.withTransfer (.sendNibble (w.getLsbD 4) (w.extractLsb' 0 4))

end Sys2Proof.Machine
end

