-- ==== Sys2Proof/Machine/Bus.lean ====
section
/-!
DEFINITION. The bus rows of the opcode table: the transfers the engine itself puts on RS, E and the data lines. Each row is one
SEND_BYTE of the byte its encoder function forms (spec/41_instruction_encoder.md R171 to R179, spec/40_bus_strobing.md R146,
R147), or one SEND_NIBBLE (R148, R176). A transfer makes no acceptance check: those are the command's (R192, R201).
-/

namespace Sys2Proof.Machine

/-- CLEAR_DISPLAY (R171). -/
def execClearDisplay (s : State) : Result := transfer (instrOp encClear) s

/-- RETURN_HOME (R172); no command sends it. -/
def execReturnHome (s : State) : Result := transfer (instrOp encReturnHome) s

/-- ENTRY_MODE_SET (R173). -/
def execEntryModeSet (i sh : Bool) (s : State) : Result := transfer (instrOp (encEntryMode i sh)) s

/-- DISPLAY_CONTROL (R174). -/
def execDisplayControl (d c b : Bool) (s : State) : Result := transfer (instrOp (encDisplayControl d c b)) s

/-- CURSOR_DISPLAY_SHIFT (R175). -/
def execCursorDisplayShift (sc rl : Bool) (s : State) : Result := transfer (instrOp (encShift sc rl)) s

/-- FUNCTION_SET (R176). -/
def execFunctionSet (dl n f : Bool) (s : State) : Result := transfer (instrOp (encFunctionSet dl n f)) s

/-- SET_CGRAM_ADDR (R177). -/
def execSetCgramAddr (a : BitVec 6) (s : State) : Result := transfer (instrOp (encSetCgram a)) s

/-- SET_DDRAM_ADDR (R178). -/
def execSetDdramAddr (a : BitVec 7) (s : State) : Result := transfer (instrOp (encSetDdram a)) s

/-- WRITE_DATA (R179): the byte unmodified, RS = 1. -/
def execWriteData (d : Byte) (s : State) : Result := transfer (dataOp d) s

/-- FUNCTION_SET_NIBBLE_8BIT (R176(a), R197). -/
def execFunctionSetNibble8bit (s : State) : Result := transfer (.sendNibble false nibbleWakeUp) s

/-- FUNCTION_SET_NIBBLE_4BIT (R176(b), R198). -/
def execFunctionSetNibble4bit (s : State) : Result := transfer (.sendNibble false nibbleSwitch4) s

end Sys2Proof.Machine
end

