-- ==== Sys2Proof/Machine/Display.lean ====
section
/-!
DEFINITION. The ten display commands (spec/43_display_commands.md R220 to R231): each command's micro-program, built from the
latched command, and its meaning.
-/

namespace Sys2Proof.Machine

/-! ### Micro-programs -/

/-- R221: one set-DDRAM-address instruction in range, nothing out of range. -/
def programSetcur (_ : Params) (c : Command) : List MicroOp :=
  if cursorInRange c.arg0 c.arg1 then [instrOp (encSetDdram (ddramAddr c.arg0 c.arg1))] else []

/-- R222: one data transfer of the raw code. -/
def programPutc (_ : Params) (c : Command) : List MicroOp := [dataOp c.arg0]

/-- R223: one data transfer for each byte before the first zero byte. -/
def programPrint (_ : Params) (c : Command) : List MicroOp := (textToSend c.text).map dataOp

/-- R224: shift display left. -/
def programScrl (_ : Params) (_ : Command) : List MicroOp := [instrOp (encShift true false)]

/-- R225: shift display right. -/
def programScrr (_ : Params) (_ : Command) : List MicroOp := [instrOp (encShift true true)]

/-- R226: display on, cursor on, blink as bit 0 of ARG0. -/
def programCuron (_ : Params) (c : Command) : List MicroOp := [instrOp (encDisplayControl true true (blinkOf c.arg0))]

/-- R227: display on, cursor and blink off. -/
def programCuroff (_ : Params) (_ : Command) : List MicroOp := [instrOp (encDisplayControl true false false)]

/-- R228: set-CGRAM-address, the seven pattern bytes, and the eighth row 0x00; nothing for an index out of range. -/
def programGlyph (_ : Params) (c : Command) : List MicroOp :=
  if glyphInRange c.arg0 then
    instrOp (encSetCgram (cgramAddr c.arg0)) :: c.pattern.toList.map dataOp ++ [dataOp 0x00#8]
  else []

/-- R229: clear-display, then set-DDRAM-address 0. -/
def programClear (_ : Params) (_ : Command) : List MicroOp := [instrOp encClear, instrOp (encSetDdram 0)]

/-- R230: set-DDRAM-address 0, not the return-home instruction. -/
def programHome (_ : Params) (_ : Command) : List MicroOp := [instrOp (encSetDdram 0)]

/-! ### Meanings -/

/-- `SETCUR col, row` (R221). -/
def execSetcur (col row : Byte) (s : State) : Result :=
  displayCommand (Instr.onPort s.commandPort (.setcur col row)) programSetcur s

/-- `PUTC b` (R222). -/
def execPutc (b : Byte) (s : State) : Result :=
  displayCommand (Instr.onPort s.commandPort (.putc b)) programPutc s

/-- `PRINT text` (R223). -/
def execPrint (text : List Byte) (s : State) : Result :=
  displayCommand (Instr.onPort s.commandPort (.print text)) programPrint s

/-- `SCRL` (R224). -/
def execScrl (s : State) : Result :=
  displayCommand (Instr.onPort s.commandPort .scrl) programScrl s

/-- `SCRR` (R225). -/
def execScrr (s : State) : Result :=
  displayCommand (Instr.onPort s.commandPort .scrr) programScrr s

/-- `CURON blink` (R226). -/
def execCuron (arg0 : Byte) (s : State) : Result :=
  displayCommand (Instr.onPort s.commandPort (.curon arg0)) programCuron s

/-- `CUROFF` (R227). -/
def execCuroff (s : State) : Result :=
  displayCommand (Instr.onPort s.commandPort .curoff) programCuroff s

/-- `GLYPH index, pattern` (R228). -/
def execGlyph (index : Byte) (pattern : Vector Byte 7) (s : State) : Result :=
  displayCommand (Instr.onPort s.commandPort (.glyph index pattern)) programGlyph s

/-- `CLEAR` (R229). -/
def execClear (s : State) : Result :=
  displayCommand (Instr.onPort s.commandPort .clear) programClear s

/-- `HOME` (R230). -/
def execHome (s : State) : Result :=
  displayCommand (Instr.onPort s.commandPort .home) programHome s

end Sys2Proof.Machine
end

