-- ==== Sys2Proof/Machine/Init.lean ====
section
/-!
DEFINITION. INIT (spec/42_init_fsm.md R193 to R203).
-/

namespace Sys2Proof.Machine

/-- One wake-up function set (R197): the whole byte 0x30 on the 8-bit interface, its high nibble on the 4-bit one. -/
def wakeUpOp (w8 : Bool) : MicroOp :=
  if w8 then instrOp (encFunctionSet true false false) else .sendNibble false nibbleWakeUp

/-- `if n > 0: wait_us(n)` (R145, R197). -/
def waitUsOps (n : Nat) : List MicroOp := if n = 0 then [] else [.line (.waitUs n)]

/-- `if n > 0: wait_ms(n)` (R145). -/
def waitMsOps (n : Nat) : List MicroOp := if n = 0 then [] else [.line (.waitMs n)]

/-- Step 1 (R195). -/
def initConfigure : List MicroOp := [.timerInit, .storeConfig]

/-- Step 2 (R196). -/
def initPowerOn (p : Params) : List MicroOp :=
  [.line (.setRS false)] ++ waitMsOps p.tPowerOnMs ++ [.setFsm .poweringOn]

/-- Step 3 (R197). -/
def initWakeUp (p : Params) (w8 : Bool) : List MicroOp :=
  wakeUpOp w8 :: waitUsOps p.tWake1Us ++ wakeUpOp w8 :: waitUsOps p.tWake2Us ++ wakeUpOp w8 :: waitUsOps p.tWake3Us

/-- Step 4 (R198): the 4-bit interface only. -/
def initSwitch (w8 : Bool) : List MicroOp := if w8 then [] else [.sendNibble false nibbleSwitch4]

/-- Step 5 (R199): two lines, 5x8 font. -/
def initFunctionSet (w8 : Bool) : List MicroOp := [instrOp (encFunctionSet w8 true false), .setFsm .configuring]

/-- Step 6 (R200): display off, clear, entry mode increment without shift, display on with the cursor off. -/
def initDisplay : List MicroOp :=
  [instrOp (encDisplayControl false false false), instrOp encClear, instrOp (encEntryMode true false),
    instrOp (encDisplayControl true false false)]

/-- Step 7 (R201). -/
def initHome : List MicroOp := [instrOp (encSetDdram 0), .setFsm .ready]

/-- INIT's micro-program (R202), from the latched command. -/
def programInit (p : Params) (c : Command) : List MicroOp :=
  initConfigure ++ initPowerOn p ++ initWakeUp p c.initW8 ++ initSwitch c.initW8 ++ initFunctionSet c.initW8
    ++ initDisplay ++ initHome

/-- `INIT rs, en, port, width` (R192 to R194, R202): `ConfigInvalid` before `AlreadyInitialized`, both before any line is
driven. One that would run is refused while its Enable line is high (R303, U20 "refuse"; assumption log 24). -/
def execInit (rs en : PinRef) (port : Nat) (w8 : Bool) (s : State) : Result :=
  whenIdle s
    (if initAdmissible s.params rs en port w8 then
      if s.fsm = .uninitialized then
        if s.pinHigh en then .refused .enableHigh
        else runProgram (s.accept (Instr.onPort s.commandPort (.init rs en port w8)) programInit)
      else .next (s.raise (.alreadyInitialized 0x0#4))
    else .next (s.raise (.configInvalid rs en port w8)))

end Sys2Proof.Machine
end

