-- ==== Sys2Proof/Machine/Reserved.lean ====
section
/-!
DEFINITION. The reserved operation codes 0xB to 0xF (spec/30_encoding.md R104, spec/60_exceptions.md R263): each takes
`Fault(ReservedCommand)`, as R269 describes it.
-/

namespace Sys2Proof.Machine

/-- `CMD_OP = 0xB`. -/
def execReservedB (s : State) : Result := reservedCommand 0xB#4 s

/-- `CMD_OP = 0xC`. -/
def execReservedC (s : State) : Result := reservedCommand 0xC#4 s

/-- `CMD_OP = 0xD`. -/
def execReservedD (s : State) : Result := reservedCommand 0xD#4 s

/-- `CMD_OP = 0xE`. -/
def execReservedE (s : State) : Result := reservedCommand 0xE#4 s

/-- `CMD_OP = 0xF`. -/
def execReservedF (s : State) : Result := reservedCommand 0xF#4 s

end Sys2Proof.Machine
end

