-- ==== Sys2Proof/Machine/Dispatch.lean ====
section
/-!
DEFINITION. Every instruction's meaning, one arm per row of the opcode table.
-/

namespace Sys2Proof.Machine

def exec (i : Instr) (s : State) : Host.Outcome State Fault Refusal :=
  match i with
  -- host commands
  | .init rs en port w8 => Sys2Proof.Machine.execInit rs en port w8 s
  | .setcur col row => Sys2Proof.Machine.execSetcur col row s
  | .putc b => Sys2Proof.Machine.execPutc b s
  | .print text => Sys2Proof.Machine.execPrint text s
  | .scrl => Sys2Proof.Machine.execScrl s
  | .scrr => Sys2Proof.Machine.execScrr s
  | .curon arg0 => Sys2Proof.Machine.execCuron arg0 s
  | .curoff => Sys2Proof.Machine.execCuroff s
  | .glyph index pattern => Sys2Proof.Machine.execGlyph index pattern s
  | .clear => Sys2Proof.Machine.execClear s
  | .home => Sys2Proof.Machine.execHome s
  | .reservedB => Sys2Proof.Machine.execReservedB s
  | .reservedC => Sys2Proof.Machine.execReservedC s
  | .reservedD => Sys2Proof.Machine.execReservedD s
  | .reservedE => Sys2Proof.Machine.execReservedE s
  | .reservedF => Sys2Proof.Machine.execReservedF s
  -- byte transfers
  | .clearDisplay => Sys2Proof.Machine.execClearDisplay s
  | .returnHome => Sys2Proof.Machine.execReturnHome s
  | .entryModeSet im sh => Sys2Proof.Machine.execEntryModeSet im sh s
  | .displayControl d c b => Sys2Proof.Machine.execDisplayControl d c b s
  | .cursorDisplayShift sc rl => Sys2Proof.Machine.execCursorDisplayShift sc rl s
  | .functionSet dl n f => Sys2Proof.Machine.execFunctionSet dl n f s
  | .setCgramAddr a => Sys2Proof.Machine.execSetCgramAddr a s
  | .setDdramAddr a => Sys2Proof.Machine.execSetDdramAddr a s
  | .writeData d => Sys2Proof.Machine.execWriteData d s
  -- stand-alone nibble transfers
  | .functionSetNibble8bit => Sys2Proof.Machine.execFunctionSetNibble8bit s
  | .functionSetNibble4bit => Sys2Proof.Machine.execFunctionSetNibble4bit s

end Sys2Proof.Machine
end

