-- ==== Sys2Proof/Machine/Sequencer.lean ====
section
/-!
DEFINITION. What one step does: with BUSY = 1, the next micro-operation of PROG (spec/10_state.md R40); with BUSY = 0, the host's
next move (spec/42_init_fsm.md R192), or nothing where the host presents none (R275, R301). A faulted engine takes no step
(R269).
-/

namespace Sys2Proof.Machine

/-- The instruction whose own bus word a word is, don't-care bits 0 (R108). -/
def ownWord (e : Encoding) : Option Instr :=
  match decode e with
  | .ok i => if encode i = e then some i else none
  | .error _ => none

/-- The bus row a micro-operation is, for a transfer whose word is a row's own (R105, R106). -/
def busRow (op : MicroOp) : Option Instr :=
  match op with
  | .sendByte rs b => ownWord (.bus9 (byteWord rs b))
  | .sendNibble rs n => ownWord (.bus5 (nibbleWord rs n))
  | .line _ => none
  | .enablePulse => none
  | .timerInit => none
  | .storeConfig => none
  | .setFsm _ => none

/-- Perform a fetched micro-operation: a transfer that is a bus row by that row's meaning, anything else directly. -/
def performFetched (op : MicroOp) (s : State) : Result :=
  match busRow op with
  | some i => exec i s
  | none => perform op s

/-- "the command is complete, and BUSY <- 0, when upc = length(PROG)" (R40). -/
def State.completeAtEnd (s : State) : State :=
  if s.prog.length ≤ s.upc then s.complete else s

/-- One sequencer step of a running command (R40). -/
def sequencerStep (s : State) : Result :=
  match s.prog[s.upc]? with
  | none => .next s.complete
  | some op => andThen (performFetched op s) (fun t => .next t.advance.completeAtEnd)

/-- `n` sequencer steps while the command runs. -/
def sequencerRun : Nat → State → Result
  | 0, s => .next s
  | n + 1, s => if s.busy then andThen (sequencerStep s) (sequencerRun n) else .next s

/-- The engine, idle, and the host's next move. -/
def hostStep (s : State) : Result :=
  match s.presented with
  | [] => .next s
  | .writeReg addr value :: _ => andThen (hostWrite addr value s) (fun t => .next t.consume)
  | .command c :: _ =>
    if (decodeCmd c).wf s.params then andThen (exec (decodeCmd c) s) (fun t => .next t.consume)
    else .refused .operandTooWide

/-- One step of the engine. -/
def engineStep (s : State) : Result :=
  match s.fault with
  | some r => .fault (.halted r)
  | none => if s.busy then sequencerStep s else hostStep s

end Sys2Proof.Machine
end

