-- ==== Sys2Proof/Machine/Step.lean ====
section
/-!
DEFINITION. The machine's step and the host's table words, by the operations of Machine/Sequencer.lean and Machine/Ops.lean.
-/

namespace Sys2Proof.Machine

/-- One step: a whole command of an idle engine, one micro-operation of a running one (assumption logs 4 and 5). -/
def step (s : State) : Host.Outcome State Fault Refusal := engineStep s

/-- `s` with the instruction of a table word as its next one (assumption log 16). -/
def State.withFetchWord (s : State) (nbits w : Nat) : State := s.withEncoding (tableEncoding nbits w)

end Sys2Proof.Machine
end

