-- ==== Sys2Proof/Machine/Observe.lean ====
section
/-!
DEFINITION. What is read off the state and the trace: the output lines (spec/10_state.md R42), the latched transfers
(spec/40_bus_strobing.md R154), the minimum duration (R152), the strobing properties (R153).
-/

namespace Sys2Proof.Machine

/-! ### The lines (R42) -/

/-- `RS = (OUTREG[CFG_RS.addr] & CFG_RS.mask) ≠ 0`. -/
def State.lineRS (s : State) : Bool := s.pinHigh s.cfgRS

/-- `E = (OUTREG[CFG_EN.addr] & CFG_EN.mask) ≠ 0`. -/
def State.lineE (s : State) : Bool := s.pinHigh s.cfgEN

/-- The data lines `DB[7:0]` of the 8-bit interface: port bits 7..0. -/
def State.dataLines8 (s : State) : Byte := BitVec.ofNat 8 (s.memRead s.cfgPort)

/-- The data lines `DB[7:4]` of the 4-bit interface: port bits 3..0. -/
def State.dataLines4 (s : State) : Nibble := BitVec.ofNat 4 (s.memRead s.cfgPort)

/-- The last value a list of events writes to E, `b` where it writes none. -/
def lastE (b : Bool) (es : List Event) : Bool :=
  es.foldl (fun b e => match e with
    | .setE x => x
    | .setRS _ => b
    | .bus8 _ => b
    | .bus4 _ => b
    | .waitUs _ => b
    | .waitMs _ => b) b

/-- The last value a list of events writes to RS, `b` where it writes none. -/
def lastRS (b : Bool) (es : List Event) : Bool :=
  es.foldl (fun b e => match e with
    | .setRS x => x
    | .setE _ => b
    | .bus8 _ => b
    | .bus4 _ => b
    | .waitUs _ => b
    | .waitMs _ => b) b

/-- The last byte a list of events writes to the data lines, `v` where it writes none. -/
def lastByte (v : Byte) (es : List Event) : Byte :=
  es.foldl (fun v e => match e with
    | .bus8 x => x
    | .setRS _ => v
    | .setE _ => v
    | .bus4 _ => v
    | .waitUs _ => v
    | .waitMs _ => v) v

/-- The last nibble a list of events writes to the data lines, `n` where it writes none. -/
def lastNibble (n : Nibble) (es : List Event) : Nibble :=
  es.foldl (fun n e => match e with
    | .bus4 x => x
    | .setRS _ => n
    | .setE _ => n
    | .bus8 _ => n
    | .waitUs _ => n
    | .waitMs _ => n) n

/-! ### The latched view (R154) -/

/-- What the data lines carry. -/
inductive BusValue where
  | byte (v : Byte)
  | nibble (n : Nibble)
  deriving DecidableEq, Repr

/-- One transfer as the controller takes it: RS and the value, whose constructor is the width. -/
structure Transfer where
  rs : Bool
  value : BusValue
  deriving DecidableEq, Repr

/-- One transfer for each `SetE(0)`, with the RS and the data written last before it (R154); `rs` and `d` are the last values
written so far. DESIGN CHOICE: a `SetE(0)` with no `SetRS`, or with no `Bus8` or `Bus4`, before it latches no transfer; R154 does
not say what it latches (assumption log 31). -/
def latchedFrom : Option Bool → Option BusValue → List Event → List Transfer
  | _, _, [] => []
  | _, d, .setRS b :: es => latchedFrom (some b) d es
  | rs, _, .bus8 v :: es => latchedFrom rs (some (.byte v)) es
  | rs, _, .bus4 n :: es => latchedFrom rs (some (.nibble n)) es
  | rs, d, .setE true :: es => latchedFrom rs d es
  | rs, d, .setE false :: es =>
    (match rs, d with
      | some r, some v => [⟨r, v⟩]
      | _, _ => []) ++ latchedFrom rs d es
  | rs, d, .waitUs _ :: es => latchedFrom rs d es
  | rs, d, .waitMs _ :: es => latchedFrom rs d es

/-- The transfers of a trace (R154). -/
def latched (es : List Event) : List Transfer := latchedFrom none none es

/-- The byte transfer as latched: whole on the 8-bit interface, high nibble then low nibble on the 4-bit one (R105, R146). -/
def byteLatched (w8 rs : Bool) (b : Byte) : List Transfer :=
  if w8 then [⟨rs, .byte b⟩] else [⟨rs, .nibble (hiNibble b)⟩, ⟨rs, .nibble (loNibble b)⟩]

/-- The transfers a micro-operation of a command's program puts on the bus: those of SEND_BYTE and SEND_NIBBLE (R147, R154). -/
def MicroOp.transfers (w8 : Bool) : MicroOp → List Transfer
  | .sendByte rs b => byteLatched w8 rs b
  | .sendNibble rs n => [⟨rs, .nibble n⟩]
  | .line _ => []
  | .enablePulse => []
  | .timerInit => []
  | .storeConfig => []
  | .setFsm _ => []

/-! ### Minimum duration (R15, R152) -/

/-- The least time an event takes, in microseconds (R45). -/
def Event.micros : Event → Nat
  | .setRS _ => 0
  | .setE _ => 0
  | .bus8 _ => 0
  | .bus4 _ => 0
  | .waitUs n => n
  | .waitMs n => 1000 * n

/-- The sum of the waits of a trace, in microseconds (R152, R320). -/
def minMicros (es : List Event) : Nat := (es.map Event.micros).sum

/-! ### The strobing properties of a trace (R153) -/

/-- An event that drives RS or the data lines. -/
def Event.movesLine : Event → Bool
  | .setRS _ => true
  | .setE _ => false
  | .bus8 _ => true
  | .bus4 _ => true
  | .waitUs _ => false
  | .waitMs _ => false

/-- R153(a): the values of the `SetE` events alternate; the first is `nextE`. -/
def alternates (nextE : Bool) : List Event → Bool
  | [] => true
  | .setE b :: es => b == nextE && alternates (!nextE) es
  | .setRS _ :: es => alternates nextE es
  | .bus8 _ :: es => alternates nextE es
  | .bus4 _ :: es => alternates nextE es
  | .waitUs _ :: es => alternates nextE es
  | .waitMs _ :: es => alternates nextE es

/-- R153(b): after each `SetE(1)` stand exactly `WaitUs(T_PULSE_US)` and `SetE(0)`. -/
def pulsesExact (p : Params) : List Event → Bool
  | [] => true
  | .setE true :: es => es.take 2 == [.waitUs p.tPulseUs, .setE false] && pulsesExact p es
  | .setE false :: es => pulsesExact p es
  | .setRS _ :: es => pulsesExact p es
  | .bus8 _ :: es => pulsesExact p es
  | .bus4 _ :: es => pulsesExact p es
  | .waitUs _ :: es => pulsesExact p es
  | .waitMs _ :: es => pulsesExact p es

/-- Where a trace stands with respect to the last pulse. -/
inductive PulsePhase where
  /-- RS and the data lines may move. -/
  | free
  /-- Between a `SetE(1)` and the next `SetE(0)`. -/
  | high
  /-- Between a `SetE(0)` and the `WaitUs(T_SETTLE_US)` after it. -/
  | settling
  deriving DecidableEq, Repr

/-- The phase after an event. -/
def PulsePhase.after (p : Params) (ph : PulsePhase) : Event → PulsePhase
  | .setE true => .high
  | .setE false => .settling
  | .waitUs n => if ph = .settling ∧ n = p.tSettleUs then .free else ph
  | .waitMs _ => ph
  | .setRS _ => ph
  | .bus8 _ => ph
  | .bus4 _ => ph

/-- The phase after a list of events. -/
def phaseAfter (p : Params) (ph : PulsePhase) (es : List Event) : PulsePhase := es.foldl (PulsePhase.after p) ph

/-- R153(c): RS and the data lines move only in phase `free`. -/
def linesHeld (p : Params) (ph : PulsePhase) : List Event → Bool
  | [] => true
  | e :: es => (!e.movesLine || ph == .free) && linesHeld p (ph.after p e) es

/-- An event that writes the data lines. -/
def Event.writesData : Event → Bool
  | .setRS _ => false
  | .setE _ => false
  | .bus8 _ => true
  | .bus4 _ => true
  | .waitUs _ => false
  | .waitMs _ => false

/-- R153(d): each `SetE(1)` follows `WaitUs(T_SETUP_US)`, which follows a data write; `e1` is the event before the list and `e2`
the one before that. -/
def setupKept (p : Params) (e2 e1 : Option Event) : List Event → Bool
  | [] => true
  | e :: es =>
    (e != .setE true || (e1 == some (.waitUs p.tSetupUs) && (e2.map Event.writesData).getD false))
      && setupKept p e1 (some e) es

/-- R153(e): no `Bus4` on the 8-bit interface, no `Bus8` on the 4-bit one. -/
def widthKept (w8 : Bool) : List Event → Bool
  | [] => true
  | .bus8 _ :: es => w8 && widthKept w8 es
  | .bus4 _ :: es => !w8 && widthKept w8 es
  | .setE _ :: es => widthKept w8 es
  | .setRS _ :: es => widthKept w8 es
  | .waitUs _ :: es => widthKept w8 es
  | .waitMs _ :: es => widthKept w8 es

/-- R153(a) to (e) of a whole trace on the interface of width `w8`. -/
def strobed (p : Params) (w8 : Bool) (es : List Event) : Bool :=
  alternates true es && pulsesExact p es && linesHeld p .free es && setupKept p none none es && widthKept w8 es

/-- How many Enable pulses a trace holds: its `SetE(0)` events (R151, R154). -/
def pulseCount (es : List Event) : Nat := es.countP (· == .setE false)

/-- How many data-line writes a trace holds (R151). -/
def dataWriteCount (es : List Event) : Nat := es.countP Event.writesData

end Sys2Proof.Machine
end

