-- ==== Sys2Proof/Safety.lean ====
section
/-!
DEFINITION. The terms the statements use: when an engine can drive its lines, the invariants of a run, and what an instruction
may change.
-/

namespace Sys2Proof.Machine

/-- One call of a wait of `p` ticks ends (R283: "Requires TMR_CONFIGURED = 1 and 2 ≤ p ≤ 2^W"). -/
abbrev State.waitsEnd (s : State) (p : Nat) : Prop :=
  s.timer.configured = true ∧ 2 ≤ p ∧ p ≤ 2 ^ s.params.timerWidth

/-- The engine can drive its lines: every wait ends, and the three registers it writes exist (R70, R281, R283). INIT
establishes it and every step keeps it. -/
structure State.CanDrive (s : State) : Prop where
  waitsUs : s.waitsEnd s.params.ticksPerUs
  waitsMs : s.waitsEnd s.params.ticksPerMs
  rsExists : s.cfgRS.addr < 2 ^ s.params.addrWidth
  enExists : s.cfgEN.addr < 2 ^ s.params.addrWidth
  portExists : s.cfgPort < 2 ^ s.params.addrWidth

/-- The engine accepts a display command and can run it (R192): not faulted, idle, Ready, with an admissible configuration, its
lines drivable, and its memory in canonical form. -/
structure State.AcceptsDisplay (s : State) : Prop where
  noFault : s.fault = none
  idle : s.busy = false
  ready : s.fsm = .ready
  drives : s.CanDrive
  configured : initAdmissible s.params s.cfgRS s.cfgEN s.cfgPort s.cfgW8 = true
  memWf : s.outreg.wf

/-- The engine accepts INIT with these operands (R192 to R194): not faulted, idle, Uninitialized, the operands admissible and
within their fields, and the Enable line they name low, the launch premise of R303. -/
structure State.AcceptsInit (s : State) (rs en : PinRef) (port : Nat) (w8 : Bool) : Prop where
  noFault : s.fault = none
  idle : s.busy = false
  uninitialized : s.fsm = .uninitialized
  admissible : initAdmissible s.params rs en port w8 = true
  fits : (Instr.init rs en port w8).wf s.params = true
  enableLow : s.pinHigh en = false
  memWf : s.outreg.wf

/-- What holds between commands of every run (between commands no micro-operation is pending, so the sequencer is at rest). -/
structure State.Inv (s : State) : Prop where
  /-- The memory keeps its canonical form. -/
  memWf : s.outreg.wf
  /-- Registers have ADDR_WIDTH-bit addresses and PORT_WIDTH-bit values (R70). -/
  memFits : s.outreg.fits s.params
  /-- No command is running (R38). -/
  idle : s.busy = false
  /-- The last command's program has been run to its end (R40). -/
  atEnd : s.upc = s.prog.length
  /-- "between commands the host sees only Uninitialized or Ready" (R36). -/
  fsmRest : s.fsm = .uninitialized ∨ s.fsm = .ready
  /-- Before INIT nothing has been driven (R192, R269). -/
  quiet : s.fsm = .uninitialized → s.trace = []
  /-- After INIT the configuration is admissible (R193). -/
  configured : s.fsm = .ready → initAdmissible s.params s.cfgRS s.cfgEN s.cfgPort s.cfgW8 = true
  /-- After INIT the engine can drive its lines. -/
  drives : s.fsm = .ready → s.CanDrive
  /-- After INIT the Enable line rests low (R144). -/
  enableLow : s.fsm = .ready → s.lineE = false
  /-- The whole trace is strobed as R153 says. -/
  traceStrobed : s.fsm = .ready → strobed s.params s.cfgW8 s.trace = true
  /-- The last pulse of the trace has settled, so the lines may move (R144). -/
  traceSettled : s.fsm = .ready → phaseAfter s.params .free s.trace = .free
  /-- The timer's registers have TIMER_WIDTH bits, and the counter is at most the reload value (R44, R286). -/
  timerFits : s.timer.current ≤ s.timer.reload ∧ s.timer.reload < 2 ^ s.params.timerWidth

/-- What driving lines leaves of the output registers, for the configuration of `cfg`: every register but the three it names, and
every bit of those that is no engine bit (R43, R74, R76); on the 8-bit interface the data port is the exception, whose bits above
7 are free (R75). -/
structure MemoryFrame (cfg s t : State) : Prop where
  others : ∀ a, a ≠ cfg.cfgRS.addr → a ≠ cfg.cfgEN.addr → a ≠ cfg.cfgPort → t.memRead a = s.memRead a
  hostBits : ∀ a k, k < s.params.portWidth → (a = cfg.cfgPort → cfg.cfgW8 = false) →
    (cfg.engineBits a).testBit k = false → (t.memRead a).testBit k = (s.memRead a).testBit k

/-- Each line carries what the events `es` wrote to it last (R42, R87). -/
structure LinesFollow (s : State) (es : List Event) (t : State) : Prop where
  rs : t.lineRS = lastRS s.lineRS es
  enable : t.lineE = lastE s.lineE es
  data8 : s.cfgW8 = true → t.dataLines8 = lastByte s.dataLines8 es
  data4 : s.cfgW8 = false → t.dataLines4 = lastNibble s.dataLines4 es

/-- The effect of a transfer that emits `es`: nothing but OUTREG, the timer's reload, counter and flag, TRACE and the count of free
values changes. -/
structure TransferEffect (s : State) (es : List Event) (t : State) : Prop where
  trace : t.trace = s.trace ++ es
  memory : MemoryFrame s s t
  params : t.params = s.params
  cfgRS : t.cfgRS = s.cfgRS
  cfgEN : t.cfgEN = s.cfgEN
  cfgPort : t.cfgPort = s.cfgPort
  cfgW8 : t.cfgW8 = s.cfgW8
  fsm : t.fsm = s.fsm
  busy : t.busy = s.busy
  prog : t.prog = s.prog
  upc : t.upc = s.upc
  latch : t.latch = s.latch
  fault : t.fault = s.fault
  presented : t.presented = s.presented
  timerConfigured : t.timer.configured = s.timer.configured
  timerClkSrc : t.timer.clkSrc = s.timer.clkSrc

/-- The effect of an accepted display command `i` that emits `es` (R192, R220): beside what driving lines changes, the command is
latched, its program has been run to the end, and BUSY is 0 again; each line carries what was written to it last. -/
structure DisplayEffect (s : State) (i : Instr) (es : List Event) (t : State) : Prop where
  trace : t.trace = s.trace ++ es
  memory : MemoryFrame s s t
  params : t.params = s.params
  cfgRS : t.cfgRS = s.cfgRS
  cfgEN : t.cfgEN = s.cfgEN
  cfgPort : t.cfgPort = s.cfgPort
  cfgW8 : t.cfgW8 = s.cfgW8
  fsm : t.fsm = .ready
  busy : t.busy = false
  complete : t.upc = t.prog.length
  latch : t.latch = i.onPort s.commandPort
  fault : t.fault = none
  presented : t.presented = s.presented
  timerConfigured : t.timer.configured = s.timer.configured
  timerClkSrc : t.timer.clkSrc = s.timer.clkSrc
  lines : LinesFollow s es t

/-- The effect of a silent no-op (R220(c)): the command is accepted and completes at once; no event, no line. -/
def silentNoOp (s : State) (i : Instr) : State :=
  { s with latch := i.onPort s.commandPort, prog := [], upc := 0 }

/-- The display command `i` with operation code `op` raises NotInitialized, and nothing else changes, while `FSM ≠ Ready` (R192,
R262, R269). -/
def FaultsUnlessReady (i : Instr) (op : CmdOp) : Prop :=
  ∀ s : State, s.fault = none → s.busy = false → s.fsm ≠ .ready → exec i s = .next (s.raise (.notInitialized op))

/-- The display command `i` emits `es p w8` and has no other effect than `DisplayEffect` wherever it is accepted. -/
def Emits (i : Instr) (es : Params → Bool → List Event) : Prop :=
  ∀ s : State, s.AcceptsDisplay → ∃ t, exec i s = .next t ∧ DisplayEffect s i (es s.params s.cfgW8) t

/-- INIT's events before it enters PoweringOn (R191, R196). -/
def initPowerOnEvents (p : Params) : List Event := [.setRS false] ++ issueMs p.tPowerOnMs

/-- INIT's events in PoweringOn, before it enters Configuring, in the spec's own bytes (R191, R197 to R199). -/
def initWakeUpEvents (p : Params) (w8 : Bool) : List Event :=
  wakeUp ++ issueUs p.tWake1Us ++ wakeUp ++ issueUs p.tWake2Us ++ wakeUp ++ issueUs p.tWake3Us
    ++ (if w8 then [] else nibbleEvents p false 0x2#4)
    ++ byteEvents p w8 false (if w8 then 0x38#8 else 0x28#8)
where
  wakeUp : List Event := if w8 then byteEvents p w8 false 0x30#8 else nibbleEvents p false 0x3#4

/-- INIT's events in Configuring, before it enters Ready, in the spec's own bytes (R191, R200, R201). -/
def initDisplayEvents (p : Params) (w8 : Bool) : List Event :=
  byteEvents p w8 false 0x08#8 ++ byteEvents p w8 false 0x01#8 ++ byteEvents p w8 false 0x06#8
    ++ byteEvents p w8 false 0x0C#8 ++ byteEvents p w8 false 0x80#8

/-- The events of INIT (R196 to R201). -/
def initEvents (p : Params) (w8 : Bool) : List Event :=
  initPowerOnEvents p ++ initWakeUpEvents p w8 ++ initDisplayEvents p w8

/-- The effect of an accepted INIT (R195 to R202). -/
structure InitEffect (s : State) (rs en : PinRef) (port : Nat) (w8 : Bool) (t : State) : Prop where
  trace : t.trace = s.trace ++ initEvents s.params w8
  memory : MemoryFrame t s t
  params : t.params = s.params
  cfgRS : t.cfgRS = rs
  cfgEN : t.cfgEN = en
  cfgPort : t.cfgPort = port
  cfgW8 : t.cfgW8 = w8
  fsm : t.fsm = .ready
  busy : t.busy = false
  complete : t.upc = t.prog.length
  latch : t.latch = (Instr.init rs en port w8).onPort s.commandPort
  fault : t.fault = none
  presented : t.presented = s.presented
  timerConfigured : t.timer.configured = true
  timerClkSrc : t.timer.clkSrc = true
  enableLow : t.lineE = false
  rsLow : t.lineRS = false
  data8 : w8 = true → t.dataLines8 = 0x80#8
  data4 : w8 = false → t.dataLines4 = 0x0#4

/-- `wait_ticks(p)` called `n` times in a row, the first with free value `k` (R284, R285). -/
def waitTicksTimes (w p : Nat) : Nat → Nat → Timer → Option Timer
  | 0, _, t => some t
  | n + 1, k, t => (t.waitTicks w p k).bind (waitTicksTimes w p n (k + 1))

/-- The same `n` calls with the core-clock cycles their polls take together. -/
def waitTicksCounted (w p : Nat) : Nat → Nat → Timer → Option (Timer × Nat)
  | 0, _, t => some (t, 0)
  | n + 1, k, t => (t.waitTicks w p k).bind fun u =>
    (waitTicksCounted w p n (k + 1) u).map fun v => (v.1, (t.load w p).pollCycles k + v.2)

/-- The timing parameters have the defaults of R12. -/
abbrev Params.hasDefaultTiming (p : Params) : Prop :=
  p.tPowerOnMs = 15 ∧ p.tWake1Us = 4100 ∧ p.tWake2Us = 100 ∧ p.tWake3Us = 0 ∧ p.tSetupUs = 1 ∧ p.tPulseUs = 1 ∧
    p.tSettleUs = 45 ∧ p.tLongMs = 5

/-- With default timing an accepted display command `i` adds `n8` events that last at least `us8` microseconds on the 8-bit
interface, `n4` and `us4` on the 4-bit one (R320). -/
def Costs (i : Instr) (us8 us4 n8 n4 : Nat) : Prop :=
  ∀ s : State, s.AcceptsDisplay → Params.hasDefaultTiming s.params →
    ∃ t es, exec i s = .next t ∧ t.trace = s.trace ++ es ∧ minMicros es = (if s.cfgW8 then us8 else us4) ∧
      es.length = (if s.cfgW8 then n8 else n4)

/-- Execute instructions one after another. -/
def execAll : List Instr → State → Result
  | [], s => .next s
  | i :: is, s => andThen (exec i s) (execAll is)

/-- The primitive events of a whole micro-program on the interface of width `w8` (R37). -/
def programEvents (p : Params) (w8 : Bool) (ops : List MicroOp) : List Event :=
  ops.flatMap (MicroOp.events p w8)

/-- The instruction is a host command (format host_cmd). -/
def isCommand (i : Instr) : Bool :=
  match encode i with
  | .hostCmd _ => true
  | .bus9 _ => false
  | .bus5 _ => false

end Sys2Proof.Machine
end

