-- ==== Sys2Proof/Certificates/Slice0/Obligations.lean ====
section
/-!
DEFINITION. The statements for the provers. Each docstring names the rules of spec/ it rests on.
-/

open Sys2Proof Sys2Proof.Machine

/-! ### Encodings -/

/-- R100, R101, R105 to R108: the decoder reads back every instruction, with every operand at every value. -/
def Obligations.DecodeOfEncode : Prop :=
  ∀ i : Instr, decode (encode i) = .ok i

/-- R39, R101: latching the instruction a presented command decodes to, on the port that presents it, latches the whole command,
the fields it does not name included. -/
def Obligations.PresentedCommandIsLatchedWhole : Prop :=
  ∀ c : Command, (decodeCmd c).onPort c = c

/-- R107, R110: the byte transfer 0x000 is the only one that is no instruction; the two function-set nibbles are the only
stand-alone nibble transfers (R106, R176). -/
def Obligations.UndefinedBusWords : Prop :=
  (∀ w : Bus9, decodeBus9 w = .error .noInstruction ↔ w = 0) ∧
    ∀ w : Bus5, decodeBus5 w = .error .noStandAloneNibble ↔ w ≠ 0b00011#5 ∧ w ≠ 0b00010#5

/-- R100, R107: words written out from the spec's encodings. The two clauses about `decodeTableWord 4` read a 4-bit table word as
a command with zero operand fields, which is the model's choice (DESIGN CHOICE, assumption log 16) and no encoding of the spec. -/
def Obligations.SpecWordsDecode : Prop :=
  decode (.bus9 0b000000001#9) = .ok .clearDisplay ∧
    decode (.bus9 0b000000110#9) = .ok (.entryModeSet true false) ∧
    decode (.bus9 0b000001101#9) = .ok (.displayControl true false true) ∧
    decode (.bus9 0b000011000#9) = .ok (.cursorDisplayShift true false) ∧
    decode (.bus9 0b000101000#9) = .ok (.functionSet false true false) ∧
    decode (.bus9 0b001011000#9) = .ok (.setCgramAddr 24#6) ∧
    decode (.bus9 0b011001111#9) = .ok (.setDdramAddr 0x4F#7) ∧
    decode (.bus9 0b101000001#9) = .ok (.writeData 0x41#8) ∧
    decode (.bus5 0b00011#5) = .ok .functionSetNibble8bit ∧
    decodeTableWord 4 0b0001 = some (.setcur 0 0) ∧
    decodeTableWord 4 0b1011 = some .reservedB

/-- R171 to R178: the encoder's bytes, as the numbers their pseudocode gives. -/
def Obligations.EncoderBytes : Prop :=
  encClear.toNat = 0x01 ∧ encReturnHome.toNat = 0x02 ∧
    (∀ i s, (encEntryMode i s).toNat = 0x04 + 2 * i.toNat + s.toNat) ∧
    (∀ d c b, (encDisplayControl d c b).toNat = 0x08 + 4 * d.toNat + 2 * c.toNat + b.toNat) ∧
    (∀ sc rl, (encShift sc rl).toNat = 0x10 + 8 * sc.toNat + 4 * rl.toNat) ∧
    (∀ dl n f, (encFunctionSet dl n f).toNat = 0x20 + 16 * dl.toNat + 8 * n.toNat + 4 * f.toNat) ∧
    (∀ a, (encSetCgram a).toNat = 0x40 + a.toNat) ∧
    ∀ a, (encSetDdram a).toNat = 0x80 + a.toNat

/-- R111: the set-DDRAM-address byte of a cell, as the sum and as the bit fields. -/
def Obligations.DdramByteOfCell : Prop :=
  ∀ col row : Byte, col.toNat < 16 → row.toNat < 2 →
    (encSetDdram (ddramAddr col row)).toNat = 0x80 + (if row = 0 then 0x00 else 0x40) + col.toNat ∧
      encSetDdram (ddramAddr col row) = 1#1 ++ row.extractLsb' 0 1 ++ 0#1 ++ 0#1 ++ col.extractLsb' 0 4

/-- R112: the set-CGRAM-address byte of a glyph, as the sum and as the bit fields; it ranges over 0x40 to 0x78 in steps of 8. -/
def Obligations.CgramByteOfGlyph : Prop :=
  ∀ index : Byte, index.toNat < 8 →
    (encSetCgram (cgramAddr index)).toNat = 0x40 + index.toNat * 8 ∧
      encSetCgram (cgramAddr index) = 0#1 ++ 1#1 ++ index.extractLsb' 0 3 ++ 0#1 ++ 0#1 ++ 0#1 ∧
      0x40 ≤ (encSetCgram (cgramAddr index)).toNat ∧ (encSetCgram (cgramAddr index)).toNat ≤ 0x78 ∧
      (encSetCgram (cgramAddr index)).toNat % 8 = 0

/-- R113: the nibble split in 4-bit mode, the high nibble sent first. -/
def Obligations.NibbleSplitHighFirst : Prop :=
  ∀ (p : Params) (rs : Bool) (b : Byte),
    hiNibble b = b.extractLsb' 4 4 ∧ loNibble b = b.extractLsb' 0 4 ∧ b = hiNibble b ++ loNibble b ∧
      latched (byteEvents p false rs b) = [⟨rs, .nibble (hiNibble b)⟩, ⟨rs, .nibble (loNibble b)⟩]

/-! ### Line micro-operations -/

/-- R74, R140: SET_RS changes the bits of the RS mask in one register, to `b`, and emits its event; nothing else changes. -/
def Obligations.SetRsWritesOneLine : Prop :=
  ∀ (s : State) (b : Bool), s.outreg.wf → s.cfgRS.addr < 2 ^ s.params.addrWidth →
    ∃ t, perform (.line (.setRS b)) s = .next t ∧
      t = { s with outreg := t.outreg, trace := s.trace ++ [.setRS b] } ∧
      (∀ a, a ≠ s.cfgRS.addr → t.memRead a = s.memRead a) ∧
      ∀ k, k < s.params.portWidth →
        (t.memRead s.cfgRS.addr).testBit k =
          if s.cfgRS.mask.testBit k then b else (s.memRead s.cfgRS.addr).testBit k

/-- R74, R141: SET_E changes the bits of the Enable mask in one register, to `b`, and emits its event; nothing else changes. -/
def Obligations.SetEWritesOneLine : Prop :=
  ∀ (s : State) (b : Bool), s.outreg.wf → s.cfgEN.addr < 2 ^ s.params.addrWidth →
    ∃ t, perform (.line (.setE b)) s = .next t ∧
      t = { s with outreg := t.outreg, trace := s.trace ++ [.setE b] } ∧
      (∀ a, a ≠ s.cfgEN.addr → t.memRead a = s.memRead a) ∧
      ∀ k, k < s.params.portWidth →
        (t.memRead s.cfgEN.addr).testBit k =
          if s.cfgEN.mask.testBit k then b else (s.memRead s.cfgEN.addr).testBit k

/-- R75, R142: BUS8 puts `v` in bits 7..0 of the data port, whatever the free bits above are; on an 8-bit port the register is
`v`; nothing else changes but the count of free values. -/
def Obligations.Bus8WritesLowByte : Prop :=
  ∀ (s : State) (v : Byte), s.outreg.wf → s.cfgPort < 2 ^ s.params.addrWidth → 8 ≤ s.params.portWidth →
    ∃ t, perform (.line (.bus8 v)) s = .next t ∧
      t = { s with outreg := t.outreg, trace := s.trace ++ [.bus8 v], draws := t.draws } ∧
      (∀ a, a ≠ s.cfgPort → t.memRead a = s.memRead a) ∧ t.dataLines8 = v ∧
      (s.params.portWidth = 8 → t.memRead s.cfgPort = v.toNat)

/-- R76, R143: BUS4 puts `n` in bits 3..0 of the data port and preserves every other bit; nothing else changes. -/
def Obligations.Bus4WritesLowNibble : Prop :=
  ∀ (s : State) (n : Nibble), s.outreg.wf → s.cfgPort < 2 ^ s.params.addrWidth → 8 ≤ s.params.portWidth →
    ∃ t, perform (.line (.bus4 n)) s = .next t ∧
      t = { s with outreg := t.outreg, trace := s.trace ++ [.bus4 n] } ∧
      (∀ a, a ≠ s.cfgPort → t.memRead a = s.memRead a) ∧ t.dataLines4 = n ∧
      ∀ k, 4 ≤ k → k < s.params.portWidth →
        (t.memRead s.cfgPort).testBit k = (s.memRead s.cfgPort).testBit k

/-- R144: the five events of ENABLE_PULSE; E is low after it, and nothing but the E line's register, the timer and the count of free values
changes. -/
def Obligations.EnablePulseProtocol : Prop :=
  ∀ s : State, s.CanDrive → s.outreg.wf → paramsOk s.params = true → isOneBit s.params s.cfgEN.mask = true →
    ∃ t, perform .enablePulse s = .next t ∧
      t = { s with
        outreg := t.outreg, timer := t.timer, draws := t.draws
        trace := s.trace ++ [.waitUs s.params.tSetupUs, .setE true, .waitUs s.params.tPulseUs, .setE false,
          .waitUs s.params.tSettleUs] } ∧
      t.lineE = false ∧
      (∀ a, a ≠ s.cfgEN.addr → t.memRead a = s.memRead a) ∧
      ∀ k, k < s.params.portWidth → s.cfgEN.mask.testBit k = false →
        (t.memRead s.cfgEN.addr).testBit k = (s.memRead s.cfgEN.addr).testBit k

/-- R145, R284, R285: WAIT_US and WAIT_MS of `n > 0` units emit their event and leave the reload register at the unit's period
less one; a wait of length 0 does nothing. -/
def Obligations.WaitsEmitTheirEvent : Prop :=
  ∀ (s : State) (n : Nat), s.CanDrive →
    (0 < n → ∃ t, perform (.line (.waitUs n)) s = .next t ∧
      t = { s with trace := s.trace ++ [.waitUs n], timer := t.timer, draws := t.draws } ∧
      t.timer.reload = s.params.ticksPerUs - 1) ∧
    (0 < n → ∃ t, perform (.line (.waitMs n)) s = .next t ∧
      t = { s with trace := s.trace ++ [.waitMs n], timer := t.timer, draws := t.draws } ∧
      t.timer.reload = s.params.ticksPerMs - 1) ∧
    perform (.line (.waitUs 0)) s = .next s ∧ perform (.line (.waitMs 0)) s = .next s

/-! ### Transfers -/

/-- R146, R144: SEND_BYTE's events, spelled out for both widths. -/
def Obligations.SendByteProtocol : Prop :=
  ∀ (s : State) (rs : Bool) (b : Byte), s.CanDrive → paramsOk s.params = true →
    ∃ t, perform (.sendByte rs b) s = .next t ∧
      t.trace = s.trace ++ [.setRS rs] ++
        (if s.cfgW8 then
          [.bus8 b, .waitUs s.params.tSetupUs, .setE true, .waitUs s.params.tPulseUs, .setE false,
            .waitUs s.params.tSettleUs]
        else
          [.bus4 (b.extractLsb' 4 4), .waitUs s.params.tSetupUs, .setE true, .waitUs s.params.tPulseUs, .setE false,
            .waitUs s.params.tSettleUs,
            .bus4 (b.extractLsb' 0 4), .waitUs s.params.tSetupUs, .setE true, .waitUs s.params.tPulseUs, .setE false,
            .waitUs s.params.tSettleUs]) ++
        (if longWait s.params rs b then [.waitMs s.params.tLongMs] else [])

/-- R148: SEND_NIBBLE's events; no long wait, whatever the nibble is. -/
def Obligations.SendNibbleProtocol : Prop :=
  ∀ (s : State) (rs : Bool) (n : Nibble), s.CanDrive → paramsOk s.params = true →
    ∃ t, perform (.sendNibble rs n) s = .next t ∧
      t.trace = s.trace ++ [.setRS rs, .bus4 n, .waitUs s.params.tSetupUs, .setE true, .waitUs s.params.tPulseUs,
        .setE false, .waitUs s.params.tSettleUs]

/-- R150: the long-wait predicate under both settings; they differ on the instruction bytes 0x00 and 0x03 alone, and every
command's program produces the same events under both. -/
def Obligations.LongWaitPredicate : Prop :=
  (∀ (p : Params) (rs : Bool) (b : Byte),
    longWait p rs b = true ↔
      rs = false ∧ match p.longWaitRule with
        | .equal => b = 0x01#8 ∨ b = 0x02#8
        | .below4 => b.toNat < 0x04) ∧
  (∀ (p : Params) (rs : Bool) (b : Byte),
    longWait { p with longWaitRule := .equal } rs b ≠ longWait { p with longWaitRule := .below4 } rs b ↔
      rs = false ∧ (b = 0x00#8 ∨ b = 0x03#8)) ∧
  ∀ (p : Params) (w8 : Bool) (c : Command),
    ∀ program ∈ [programInit, programSetcur, programPutc, programPrint, programScrl, programScrr, programCuron, programCuroff,
      programGlyph, programClear, programHome],
      programEvents { p with longWaitRule := .equal } w8 (program p c) =
        programEvents { p with longWaitRule := .below4 } w8 (program p c)

/-- R151: "in 4-bit mode every byte transfer ... produces exactly two Enable pulses and two 4-bit data-line writes (high nibble
first, low nibble second); in 8-bit mode, exactly one Enable pulse and one 8-bit write". -/
def Obligations.PulsesPerByte : Prop :=
  ∀ (p : Params) (rs : Bool) (b : Byte),
    (pulseCount (byteEvents p false rs b) = 2 ∧
      (byteEvents p false rs b).filter Event.writesData = [.bus4 (b.extractLsb' 4 4), .bus4 (b.extractLsb' 0 4)]) ∧
    pulseCount (byteEvents p true rs b) = 1 ∧ (byteEvents p true rs b).filter Event.writesData = [.bus8 b]

/-- R42, R87, R144, R146, R148: after a transfer row in an admissible configuration RS carries the word's RS bit, E is low, and the
data lines carry the word's byte, or its low nibble on the 4-bit interface. -/
def Obligations.LinesAfterTransfer : Prop :=
  ∀ (s : State) (i : Instr), s.fault = none → s.CanDrive → s.outreg.wf →
    initAdmissible s.params s.cfgRS s.cfgEN s.cfgPort s.cfgW8 = true →
    (∀ (rs : Bool) (b : Byte), encode i = .bus9 (byteWord rs b) →
      ∃ t, exec i s = .next t ∧ t.lineRS = rs ∧ t.lineE = false ∧
        (s.cfgW8 = true → t.dataLines8 = b) ∧ (s.cfgW8 = false → t.dataLines4 = b.extractLsb' 0 4)) ∧
    ∀ (rs : Bool) (n : Nibble), encode i = .bus5 (nibbleWord rs n) → s.cfgW8 = false →
      ∃ t, exec i s = .next t ∧ t.lineRS = rs ∧ t.lineE = false ∧ t.dataLines4 = n

/-- R105, R146, R147, R171 to R179: each byte-transfer row, on an engine that has not faulted and can drive its lines, answers
the state after SEND_BYTE of its RS bit and byte, and changes nothing else. -/
def Obligations.ByteTransferRows : Prop :=
  ∀ s : State, s.fault = none → s.CanDrive → s.outreg.wf →
    (∃ t, exec .clearDisplay s = .next t ∧ TransferEffect s (byteEvents s.params s.cfgW8 false 0x01#8) t) ∧
    (∃ t, exec .returnHome s = .next t ∧ TransferEffect s (byteEvents s.params s.cfgW8 false 0x02#8) t) ∧
    (∀ i sh, ∃ t, exec (.entryModeSet i sh) s = .next t ∧
      TransferEffect s (byteEvents s.params s.cfgW8 false (0b000001#6 ++ BitVec.ofBool i ++ BitVec.ofBool sh)) t) ∧
    (∀ d c b, ∃ t, exec (.displayControl d c b) s = .next t ∧
      TransferEffect s
        (byteEvents s.params s.cfgW8 false (0b00001#5 ++ BitVec.ofBool d ++ BitVec.ofBool c ++ BitVec.ofBool b)) t) ∧
    (∀ sc rl, ∃ t, exec (.cursorDisplayShift sc rl) s = .next t ∧
      TransferEffect s
        (byteEvents s.params s.cfgW8 false (0b0001#4 ++ BitVec.ofBool sc ++ BitVec.ofBool rl ++ 0b00#2)) t) ∧
    (∀ dl n f, ∃ t, exec (.functionSet dl n f) s = .next t ∧
      TransferEffect s
        (byteEvents s.params s.cfgW8 false
          (0b001#3 ++ BitVec.ofBool dl ++ BitVec.ofBool n ++ BitVec.ofBool f ++ 0b00#2)) t) ∧
    (∀ a, ∃ t, exec (.setCgramAddr a) s = .next t ∧
      TransferEffect s (byteEvents s.params s.cfgW8 false (0b01#2 ++ a)) t) ∧
    (∀ a, ∃ t, exec (.setDdramAddr a) s = .next t ∧
      TransferEffect s (byteEvents s.params s.cfgW8 false (0b1#1 ++ a)) t) ∧
    ∀ d, ∃ t, exec (.writeData d) s = .next t ∧ TransferEffect s (byteEvents s.params s.cfgW8 true d) t

/-- R106, R148, R176: each stand-alone nibble row answers the state after SEND_NIBBLE of its nibble with RS = 0, and changes
nothing else. That a row makes no acceptance check, whatever the FSM, and runs with CFG_WIDTH = 1 too, where R148 says it is not
issued, is the model's reading (DEDUCED and DESIGN CHOICE, assumption log 15). -/
def Obligations.NibbleTransferRows : Prop :=
  ∀ s : State, s.fault = none → s.CanDrive → s.outreg.wf →
    (∃ t, exec .functionSetNibble8bit s = .next t ∧ TransferEffect s (nibbleEvents s.params false 0x3#4) t) ∧
    ∃ t, exec .functionSetNibble4bit s = .next t ∧ TransferEffect s (nibbleEvents s.params false 0x2#4) t

/-! ### The delay timer -/

/-- R282: TIMER_INIT's registers; no event; running it again gives the same state; it is the first micro-operation of every
INIT. -/
def Obligations.TimerInitRegisters : Prop :=
  (∀ s : State, perform .timerInit s = .next (s.setTimer ⟨true, 2 ^ s.params.timerWidth - 1, 0, false, true⟩)) ∧
    (∀ s t : State, perform .timerInit s = .next t → perform .timerInit t = .next t) ∧
    ∀ (p : Params) (c : Command), (programInit p c).head? = some .timerInit

/-- R283, R286: loaded with an admissible period `p`, the flag of a configured timer is clear for the first `p - 1` cycles and set
on cycle `p`, where the counter reaches 0. -/
def Obligations.CountFlagSetsAfterPeriod : Prop :=
  ∀ (w p : Nat) (t : Timer), t.configured = true → 2 ≤ p → p ≤ 2 ^ w →
    (∀ k, k < p → (Timer.run k (t.load w p)).countFlag = false) ∧
      (Timer.run p (t.load w p)).countFlag = true ∧ (Timer.run p (t.load w p)).current = 0

/-- R283, R286, U11: a timer loaded with a period whose reload value `trunc_W(p - 1)` is 0, such as 0 or 1, or one that is not
configured, never sets its flag, and `wait_ticks` on it has no result (the counting law: log 22, from general knowledge); WAIT_US
and WAIT_MS of `n > 0` units of such a period, or on such a timer, stop with the fault `waitNeverReturns` (the model's form of
"stuck", DEDUCED, assumption log 14). -/
def Obligations.ReloadZeroIsStuck : Prop :=
  (∀ (w p : Nat) (t : Timer), (p - 1) % 2 ^ w = 0 ∨ t.configured = false →
    (∀ n, (Timer.run n (t.load w p)).countFlag = false) ∧ ∀ k, t.waitTicks w p k = none) ∧
    ∀ (s : State) (n : Nat), 0 < n →
      ((s.params.ticksPerUs - 1) % 2 ^ s.params.timerWidth = 0 ∨ s.timer.configured = false →
        perform (.line (.waitUs n)) s = .fault .waitNeverReturns) ∧
      ((s.params.ticksPerMs - 1) % 2 ^ s.params.timerWidth = 0 ∨ s.timer.configured = false →
        perform (.line (.waitMs n)) s = .fault .waitNeverReturns)

/-- R284, R285: `n` units of wait are `n` calls of `wait_ticks` one after another. -/
def Obligations.WaitComposesUnits : Prop :=
  ∀ (w p n k : Nat) (t : Timer), t.waitUnits w p n k = waitTicksTimes w p n k t

/-- R283, R286, R287: the poll of `wait_ticks(p)` takes `p` cycles and a free number more, `(t.load w p).pollCycles k` in all (free
value, assumption log 11), the flag is set after them, and the counter is where the law puts it after them; and with admissible
constants WAIT_US and WAIT_MS of `n` units leave the timer that `n` such calls leave, whose cycles together are at least `n` µs, or
`n` ms, of the core clock. -/
def Obligations.WaitsLastTheirTime : Prop :=
  (∀ (w p k : Nat) (t u : Timer), 2 ≤ p → p ≤ 2 ^ w → t.waitTicks w p k = some u →
    (t.load w p).pollCycles k = p + Config.freePollLatency k ∧
      (Timer.run ((t.load w p).pollCycles k) (t.load w p)).countFlag = true ∧
      u.current = (Timer.run ((t.load w p).pollCycles k) (t.load w p)).current ∧ u.reload = p - 1) ∧
    ∀ (s : State) (n : Nat), s.CanDrive → timerOk s.params = true → 0 < n →
      (∃ u c, waitTicksCounted s.params.timerWidth s.params.ticksPerUs n s.draws s.timer = some (u, c) ∧
        perform (.line (.waitUs n)) s =
          .next { s with trace := s.trace ++ [.waitUs n], timer := u, draws := s.draws + n } ∧
        n * s.params.coreClockHz ≤ c * 1000000) ∧
      ∃ u c, waitTicksCounted s.params.timerWidth s.params.ticksPerMs n s.draws s.timer = some (u, c) ∧
        perform (.line (.waitMs n)) s =
          .next { s with trace := s.trace ++ [.waitMs n], timer := u, draws := s.draws + n } ∧
        n * s.params.coreClockHz ≤ c * 1000

/-! ### Acceptance and faults -/

/-- R46, R192, R269: FAULT is `none` at reset, and an engine whose FAULT is set takes no step, and no instruction runs on it. -/
def Obligations.FaultedEngineTakesNoStep : Prop :=
  State.reset.fault = none ∧
    ∀ (s : State) (r : FaultReason), s.fault = some r →
      step s = .fault (.halted r) ∧ ∀ i, exec i s = .fault (.halted r)

/-- R104, R263, R269: each reserved operation code raises ReservedCommand with its code, before NotInitialized, and nothing else
changes. -/
def Obligations.ReservedCodesFault : Prop :=
  ∀ s : State, s.fault = none → s.busy = false →
    exec .reservedB s = .next (s.raise (.reservedCommand 0xB#4)) ∧
    exec .reservedC s = .next (s.raise (.reservedCommand 0xC#4)) ∧
    exec .reservedD s = .next (s.raise (.reservedCommand 0xD#4)) ∧
    exec .reservedE s = .next (s.raise (.reservedCommand 0xE#4)) ∧
    exec .reservedF s = .next (s.raise (.reservedCommand 0xF#4))

/-- R192, R194, R264, R268, R276: INIT with inadmissible operands raises ConfigInvalid with its operands in every FSM state; with
admissible ones AlreadyInitialized unless the FSM is Uninitialized; nothing else changes. -/
def Obligations.InitFaultsInOrder : Prop :=
  ∀ (s : State) (rs en : PinRef) (port : Nat) (w8 : Bool), s.fault = none → s.busy = false →
    (initAdmissible s.params rs en port w8 = false →
      exec (.init rs en port w8) s = .next (s.raise (.configInvalid rs en port w8))) ∧
    (initAdmissible s.params rs en port w8 = true → s.fsm ≠ .uninitialized →
      exec (.init rs en port w8) s = .next (s.raise (.alreadyInitialized 0x0#4)))

/-- R303: an INIT that acceptance would let through is refused by name while the Enable line it names is high, so that no statement
speaks of that run (the refusal is the model's form of the premise, DEDUCED, assumption log 24). -/
def Obligations.InitRefusedWhileEnableHigh : Prop :=
  ∀ (s : State) (rs en : PinRef) (port : Nat) (w8 : Bool), s.fault = none → s.busy = false →
    initAdmissible s.params rs en port w8 = true → s.fsm = .uninitialized → s.memRead en.addr &&& en.mask ≠ 0 →
    exec (.init rs en port w8) s = .refused .enableHigh

/-- R193, R264: what `initAdmissible` computes is (a) to (d) of R193, with the parameter ranges of R12 and R9 that R264 adds. -/
def Obligations.AdmissibleOperands : Prop :=
  ∀ (p : Params) (rs en : PinRef) (port : Nat) (w8 : Bool),
    initAdmissible p rs en port w8 = true ↔
      ((∃ k, k < p.portWidth ∧ rs.mask = 2 ^ k) ∧ (∃ k, k < p.portWidth ∧ en.mask = 2 ^ k)) ∧
      (rs.addr, rs.mask) ≠ (en.addr, en.mask) ∧
      (∀ pin ∈ [rs, en], pin.addr = port → w8 = false ∧ pin.mask &&& 0xF = 0) ∧
      timerOk p = true ∧
      (15 ≤ p.tPowerOnMs ∧ 4100 ≤ p.tWake1Us ∧ 100 ≤ p.tWake2Us ∧ 1 ≤ p.tSetupUs ∧ 1 ≤ p.tPulseUs ∧ 45 ≤ p.tSettleUs ∧
        5 ≤ p.tLongMs) ∧
      0 < p.coreClockHz ∧ 0 < p.timerWidth ∧ 8 ≤ p.portWidth ∧ 0 < p.addrWidth

/-- R281: the timer constants are admissible exactly under (a) and (b). -/
def Obligations.AdmissibleTimerConstants : Prop :=
  ∀ p : Params, timerOk p = true ↔
    ((2 ≤ p.ticksPerUs ∧ p.ticksPerUs ≤ 2 ^ p.timerWidth) ∧ (2 ≤ p.ticksPerMs ∧ p.ticksPerMs ≤ 2 ^ p.timerWidth)) ∧
      (p.ticksPerUs * 1000000 ≥ p.coreClockHz ∧ p.ticksPerMs * 1000 ≥ p.coreClockHz)

/-- R266: a host command executed while BUSY = 1 is refused by name, and the step never does it. -/
def Obligations.NoCommandWhileBusy : Prop :=
  ∀ (s : State) (i : Instr), s.fault = none → s.busy = true → isCommand i = true →
    exec i s = .refused .commandWhileBusy ∧ step s ≠ .refused .commandWhileBusy

/-! ### INIT -/

/-- R195 to R202, with E low before it by R303: an accepted INIT answers the state with the configuration stored, the timer running, the whole sequence driven,
RS and E low, the data lines at its last byte, and the FSM in Ready. -/
def Obligations.InitRunsWholeSequence : Prop :=
  ∀ (s : State) (rs en : PinRef) (port : Nat) (w8 : Bool), s.AcceptsInit rs en port w8 →
    ∃ t, exec (.init rs en port w8) s = .next t ∧ InitEffect s rs en port w8 t

/-- R36, R191, R195, R196, R199, R201: the values FSM takes while an accepted INIT runs, one sequencer step after another, and the
events before and after each write of it: Uninitialized until step 2 has run, PoweringOn from there until step 5 has run,
Configuring until step 7 has run, then Ready. Step 1 is the first two elements of PROG (what an element is: DESIGN CHOICE, log 5);
it emits nothing, and the configuration is stored and the timer configured from there on. -/
def Obligations.InitWritesFsmInOrder : Prop :=
  ∀ (s : State) (rs en : PinRef) (port : Nat) (w8 : Bool), s.AcceptsInit rs en port w8 →
    ∃ k1 k2 k3, 2 < k1 ∧ k1 < k2 ∧ k2 < k3 ∧
      k3 = (programInit s.params (Instr.onPort s.commandPort (.init rs en port w8))).length ∧
      ∀ k, k ≤ k3 → ∃ t,
        sequencerRun k (s.accept (Instr.onPort s.commandPort (.init rs en port w8)) programInit) = .next t ∧
        t.upc = k ∧ t.busy = decide (k < k3) ∧
        t.fsm = (if k < k1 then .uninitialized else if k < k2 then .poweringOn else if k < k3 then .configuring else .ready) ∧
        (k ≤ 2 → t.trace = s.trace) ∧
        (2 ≤ k → t.timer.configured = true ∧ t.cfgRS = rs ∧ t.cfgEN = en ∧ t.cfgPort = port ∧ t.cfgW8 = w8) ∧
        (k = k1 - 1 ∨ k = k1 → t.trace = s.trace ++ initPowerOnEvents s.params) ∧
        (k = k2 - 1 ∨ k = k2 → t.trace = s.trace ++ initPowerOnEvents s.params ++ initWakeUpEvents s.params w8) ∧
        (k = k3 - 1 ∨ k = k3 → t.trace = s.trace ++ initEvents s.params w8)

/-- R203, with E low before it by R303: the transfers an accepted INIT latches, its pulses, and with default timing its events and least duration. -/
def Obligations.InitLatchedTransfers : Prop :=
  ∀ (s : State) (rs en : PinRef) (port : Nat) (w8 : Bool), s.AcceptsInit rs en port w8 →
    ∃ t es, exec (.init rs en port w8) s = .next t ∧ t.trace = s.trace ++ es ∧
      latched es =
        (if w8 then
          [0x30#8, 0x30#8, 0x30#8, 0x38#8, 0x08#8, 0x01#8, 0x06#8, 0x0C#8, 0x80#8].map fun b => ⟨false, .byte b⟩
        else
          [0x3#4, 0x3#4, 0x3#4, 0x2#4, 0x2#4, 0x8#4, 0x0#4, 0x8#4, 0x0#4, 0x1#4, 0x0#4, 0x6#4, 0x0#4, 0xC#4, 0x8#4,
            0x0#4].map fun n => ⟨false, .nibble n⟩) ∧
      pulseCount es = (if w8 then 9 else 16) ∧
      (Params.hasDefaultTiming s.params →
        es.length = (if w8 then 68 else 111) ∧ minMicros es = (if w8 then 24623 else 24952))

/-- R152: the least time of each transfer with default timing. -/
def Obligations.TransferDurations : Prop :=
  ∀ p : Params, Params.hasDefaultTiming p →
    (∀ rs b, longWait p rs b = false →
      minMicros (byteEvents p true rs b) = 47 ∧ minMicros (byteEvents p false rs b) = 94) ∧
    (∀ rs b, longWait p rs b = true →
      minMicros (byteEvents p true rs b) = 5047 ∧ minMicros (byteEvents p false rs b) = 5094) ∧
    longWait p false 0x01#8 = true ∧
    ∀ rs n, minMicros (nibbleEvents p rs n) = 47

/-- R320: the least duration and the number of events of each command with default timing. -/
def Obligations.CommandDurations : Prop :=
  (∀ (s : State) (rs en : PinRef) (port : Nat) (w8 : Bool), s.AcceptsInit rs en port w8 → Params.hasDefaultTiming s.params →
    ∃ t es, exec (.init rs en port w8) s = .next t ∧ t.trace = s.trace ++ es ∧
      minMicros es = (if w8 then 24623 else 24952) ∧ es.length = (if w8 then 68 else 111)) ∧
  (∀ col row : Byte, (col.toNat < 16 ∧ row.toNat < 2 → Costs (.setcur col row) 47 94 7 13) ∧
    (¬ (col.toNat < 16 ∧ row.toNat < 2) → Costs (.setcur col row) 0 0 0 0)) ∧
  Costs .home 47 94 7 13 ∧
  (∀ b, Costs (.putc b) 47 94 7 13) ∧
  (∀ text : List Byte, Costs (.print text) (47 * (text.takeWhile (· ≠ 0)).length) (94 * (text.takeWhile (· ≠ 0)).length)
    (7 * (text.takeWhile (· ≠ 0)).length) (13 * (text.takeWhile (· ≠ 0)).length)) ∧
  Costs .scrl 47 94 7 13 ∧ Costs .scrr 47 94 7 13 ∧ (∀ arg0, Costs (.curon arg0) 47 94 7 13) ∧ Costs .curoff 47 94 7 13 ∧
  (∀ (index : Byte) (pattern : Vector Byte 7), (index.toNat < 8 → Costs (.glyph index pattern) 423 846 63 117) ∧
    (¬ index.toNat < 8 → Costs (.glyph index pattern) 0 0 0 0)) ∧
  Costs .clear 5094 5188 15 27

/-! ### The display commands -/

/-- R102, R221, R265: SETCUR in range sends 0x80 + col or 0xC0 + col; out of range it is accepted and does nothing; not Ready it
raises NotInitialized. -/
def Obligations.SetcurSendsAddress : Prop :=
  ∀ col row : Byte,
    (col.toNat < 16 ∧ row.toNat < 2 →
      Emits (.setcur col row) fun p w8 =>
        byteEvents p w8 false (BitVec.ofNat 8 ((if row = 0 then 0x80 else 0xC0) + col.toNat))) ∧
    (¬ (col.toNat < 16 ∧ row.toNat < 2) →
      ∀ s : State, s.AcceptsDisplay → exec (.setcur col row) s = .next (silentNoOp s (.setcur col row))) ∧
    FaultsUnlessReady (.setcur col row) 0x1#4

/-- R222: PUTC sends its byte as one data transfer. -/
def Obligations.PutcSendsByte : Prop :=
  ∀ b : Byte, Emits (.putc b) (fun p w8 => byteEvents p w8 true b) ∧ FaultsUnlessReady (.putc b) 0x2#4

/-- R223: PRINT sends the bytes before the first zero byte, in order, each as a data transfer; a text with no zero byte is sent
whole. -/
def Obligations.PrintSendsText : Prop :=
  (∀ sent rest : List Byte, (∀ b ∈ sent, b ≠ 0) →
    Emits (.print (sent ++ 0x00#8 :: rest)) (fun p w8 => sent.flatMap (byteEvents p w8 true)) ∧
      Emits (.print sent) (fun p w8 => sent.flatMap (byteEvents p w8 true))) ∧
    ∀ text, FaultsUnlessReady (.print text) 0x3#4

/-- R224, R225: SCRL sends 0x18, SCRR sends 0x1C. -/
def Obligations.ScrollSendsShift : Prop :=
  (Emits .scrl (fun p w8 => byteEvents p w8 false 0x18#8) ∧ FaultsUnlessReady .scrl 0x4#4) ∧
    Emits .scrr (fun p w8 => byteEvents p w8 false 0x1C#8) ∧ FaultsUnlessReady .scrr 0x5#4

/-- R226, R227: CURON sends 0x0E or 0x0F by bit 0 of ARG0 alone, CUROFF sends 0x0C. -/
def Obligations.CursorVisibility : Prop :=
  (∀ arg0 : Byte,
    Emits (.curon arg0) (fun p w8 => byteEvents p w8 false (if arg0.getLsbD 0 then 0x0F#8 else 0x0E#8)) ∧
      FaultsUnlessReady (.curon arg0) 0x6#4) ∧
    Emits .curoff (fun p w8 => byteEvents p w8 false 0x0C#8) ∧ FaultsUnlessReady .curoff 0x7#4

/-- R228, R265: GLYPH in range sends 0x40 + index × 8, the seven pattern bytes in order and unmasked, and 0x00; out of range it is
accepted and does nothing; not Ready it raises NotInitialized. -/
def Obligations.GlyphSendsPattern : Prop :=
  ∀ (index : Byte) (pattern : Vector Byte 7),
    (index.toNat < 8 →
      Emits (.glyph index pattern) fun p w8 =>
        byteEvents p w8 false (BitVec.ofNat 8 (0x40 + index.toNat * 8)) ++
          (byteEvents p w8 true pattern[0] ++ byteEvents p w8 true pattern[1] ++ byteEvents p w8 true pattern[2] ++
            byteEvents p w8 true pattern[3] ++ byteEvents p w8 true pattern[4] ++ byteEvents p w8 true pattern[5] ++
            byteEvents p w8 true pattern[6]) ++
          byteEvents p w8 true 0x00#8) ∧
    (¬ index.toNat < 8 →
      ∀ s : State, s.AcceptsDisplay → exec (.glyph index pattern) s = .next (silentNoOp s (.glyph index pattern))) ∧
    FaultsUnlessReady (.glyph index pattern) 0x8#4

/-- R229, R230: CLEAR sends 0x01, whose long wait follows it under either setting, then 0x80; HOME sends 0x80, without a long
wait. -/
def Obligations.ClearAndHome : Prop :=
  (Emits .clear (fun p w8 => byteEvents p w8 false 0x01#8 ++ byteEvents p w8 false 0x80#8) ∧
    FaultsUnlessReady .clear 0x9#4) ∧
  (Emits .home (fun p w8 => byteEvents p w8 false 0x80#8) ∧ FaultsUnlessReady .home 0xA#4) ∧
  ∀ p : Params, longWait p false 0x01#8 = true ∧ longWait p false 0x80#8 = false

/-- R115: HOME does what SETCUR 0, 0 does, CLEAR what the clear-display transfer and SETCUR 0, 0 do, PRINT what PUTC of each byte up
to the first zero does: the same trace, output registers and timer. -/
def Obligations.CommandsAreExpansions : Prop :=
  ∀ s : State, s.AcceptsDisplay →
    (∃ t u, exec .home s = .next t ∧ exec (.setcur 0 0) s = .next u ∧
      t.trace = u.trace ∧ t.outreg = u.outreg ∧ t.timer = u.timer) ∧
    (∃ t u, exec .clear s = .next t ∧ execAll [.clearDisplay, .setcur 0 0] s = .next u ∧
      t.trace = u.trace ∧ t.outreg = u.outreg ∧ t.timer = u.timer) ∧
    ∀ text : List Byte, ∃ t u, exec (.print text) s = .next t ∧
      execAll ((text.takeWhile (· ≠ 0)).map .putc) s = .next u ∧
      t.trace = u.trace ∧ t.outreg = u.outreg ∧ t.timer = u.timer

/-- R220(d): an accepted display command emits the same events in every state with the same parameters and interface width; its
past does not matter. -/
def Obligations.SameCommandSameEvents : Prop :=
  ∀ (i : Instr) (s s' t t' : State), isCommand i = true → s.AcceptsDisplay → s'.AcceptsDisplay →
    s.params = s'.params → s.cfgW8 = s'.cfgW8 → exec i s = .next t → exec i s' = .next t' →
    ∃ es, t.trace = s.trace ++ es ∧ t'.trace = s'.trace ++ es

/-- R109, R147, R148: every transfer of a command's program is one of the table's. The transfers latched from its events are those of its
SEND_BYTE and SEND_NIBBLE elements, in their order; beside these it holds no pulse and no write of the data lines or of E; and each
such element carries an instruction byte of the table or one of its two nibbles, with RS = 0, or a data byte. A display command's
program holds no nibble element, and INIT's holds one on the 4-bit interface alone. -/
def Obligations.EmittedTransfersListed : Prop :=
  ∀ (p : Params) (c : Command),
    (∀ program ∈ [programSetcur, programPutc, programPrint, programScrl, programScrr, programCuron, programCuroff, programGlyph,
      programClear, programHome], ∀ op ∈ program p c, ∀ rs n, op ≠ .sendNibble rs n) ∧
    ∀ program ∈ [programInit, programSetcur, programPutc, programPrint, programScrl, programScrr, programCuron, programCuroff,
      programGlyph, programClear, programHome],
      (∀ w8, latched (programEvents p w8 (program p c)) = (program p c).flatMap (MicroOp.transfers w8)) ∧
      ∀ op ∈ program p c,
        (op ≠ .enablePulse ∧ ∀ e, op = .line e → e = .setRS false ∨ (∃ n, e = .waitUs n) ∨ ∃ n, e = .waitMs n) ∧
        (∀ b, op = .sendByte false b →
          b ∈ [0x01#8, 0x06#8, 0x08#8, 0x0C#8, 0x0E#8, 0x0F#8, 0x18#8, 0x1C#8, 0x28#8, 0x30#8, 0x38#8] ∨
          (∃ k, k < 8 ∧ b = BitVec.ofNat 8 (0x40 + 8 * k)) ∨
          ∃ k, k < 16 ∧ (b = BitVec.ofNat 8 (0x80 + k) ∨ b = BitVec.ofNat 8 (0xC0 + k))) ∧
        ∀ rs n, op = .sendNibble rs n → rs = false ∧ (n = 0x3#4 ∨ n = 0x2#4) ∧ c.initW8 = false

/-- R153: the events an accepted display command or INIT adds are strobed: (a) to (e). -/
def Obligations.CommandTracesStrobed : Prop :=
  (∀ (i : Instr) (s t : State), isCommand i = true → s.AcceptsDisplay → exec i s = .next t →
    ∃ es, t.trace = s.trace ++ es ∧ strobed s.params s.cfgW8 es = true) ∧
  ∀ (s t : State) (rs en : PinRef) (port : Nat) (w8 : Bool), s.AcceptsInit rs en port w8 →
    exec (.init rs en port w8) s = .next t → ∃ es, t.trace = s.trace ++ es ∧ strobed s.params w8 es = true

/-! ### The machine -/

/-- R192, R40, R275, in the model's form of them: the list of presented commands and its consumption (DESIGN CHOICE, log 17), a
whole command in one step (DESIGN CHOICE, log 4), a transfer of PROG run as its bus row (DEDUCED, log 15). A step of an idle engine is `exec` of the command the host presents, which is then consumed; with nothing
presented it changes nothing; a step of a running one whose next micro-operation is a bus row's own transfer is `exec` of that
row, after which `upc` advances and BUSY ends at the program's end. A presented INIT whose addresses are too wide is the statement
PresentedInitTooWide. -/
def Obligations.StepRunsDecodedInstruction : Prop :=
  (∀ (s : State) (c : Command) (rest : List HostMove), s.fault = none → s.busy = false →
    s.presented = .command c :: rest → (decodeCmd c).wf s.params = true →
    step s = andThen (exec (decodeCmd c) s) fun t => .next t.consume) ∧
  (∀ s : State, s.fault = none → s.busy = false → s.presented = [] → step s = .next s) ∧
  (∀ (s : State) (i : Instr) (rs : Bool) (b : Byte), s.fault = none → s.busy = true →
    s.prog[s.upc]? = some (.sendByte rs b) → encode i = .bus9 (byteWord rs b) →
    step s = andThen (exec i s) fun t => .next t.advance.completeAtEnd) ∧
  ∀ (s : State) (i : Instr) (rs : Bool) (n : Nibble), s.fault = none → s.busy = true →
    s.prog[s.upc]? = some (.sendNibble rs n) → encode i = .bus5 (nibbleWord rs n) →
    step s = andThen (exec i s) fun t => .next t.advance.completeAtEnd

/-- R40, R195, R196, R199, R201: a step of a running engine is one sequencer step: it performs the next element of PROG, whichever it is,
advances `upc`, and ends BUSY at the program's end; where no element is left it ends BUSY. INIT's elements that write registers do
that and nothing else (TIMER_INIT: the statement TimerInitRegisters). What an element is: DESIGN CHOICE, log 5. -/
def Obligations.StepPerformsNextElement : Prop :=
  (∀ s : State, s.fault = none → s.busy = true →
    step s = sequencerStep s ∧
    (∀ op, s.prog[s.upc]? = some op →
      step s = andThen (perform op s) fun t => .next { t with upc := s.upc + 1, busy := decide (s.upc + 1 < s.prog.length) }) ∧
    (s.prog[s.upc]? = none → step s = .next { s with busy := false })) ∧
    ∀ s : State, (∀ f, perform (.setFsm f) s = .next { s with fsm := f }) ∧
      perform .storeConfig s = .next { s with
        cfgRS := s.latch.initRs, cfgEN := s.latch.initEn, cfgPort := s.latch.initPort, cfgW8 := s.latch.initW8 }

/-- The presented commands that are ill-formed are the INITs with an address of more than ADDR_WIDTH bits, and the step refuses each
by name (the model's reading of R70 and R101, DEDUCED, assumption log 25, in its form of presenting, log 17). What the others do
is the first clause of StepRunsDecodedInstruction. -/
def Obligations.PresentedInitTooWide : Prop :=
  (∀ (p : Params) (c : Command), (decodeCmd c).wf p = false ↔
    ∃ rs en port w8, decodeCmd c = .init rs en port w8 ∧
      (2 ^ p.addrWidth ≤ rs.addr ∨ 2 ^ p.addrWidth ≤ en.addr ∨ 2 ^ p.addrWidth ≤ port)) ∧
    ∀ (s : State) (c : Command) (rest : List HostMove), s.fault = none → s.busy = false →
      s.presented = .command c :: rest → (decodeCmd c).wf s.params = false → step s = .refused .operandTooWide

/-- R37, R38, R40, R41, R220(c): an accepted command is its acceptance followed by one sequencer step for each micro-operation of PROG, BUSY
being 1 until the last (what a micro-operation of PROG is: DESIGN CHOICE, log 5); with an empty PROG both complete at once, with
nothing but the command latched. -/
def Obligations.CommandIsSequencerRun : Prop :=
  ∀ (s : State) (c : Command) (program : Params → Command → List MicroOp), s.fault = none →
    (program s.params c ≠ [] →
      runProgram (s.accept c program) = sequencerRun (program s.params c).length (s.accept c program) ∧
        ∀ (k : Nat) (t : State), k < (program s.params c).length → sequencerRun k (s.accept c program) = .next t →
          t.busy = true ∧ t.upc = k) ∧
    (program s.params c = [] →
      runProgram (s.accept c program) = .next { s with latch := c, busy := false, prog := [], upc := 0 } ∧
        ∀ n, 0 < n → sequencerRun n (s.accept c program) = .next { s with latch := c, busy := false, prog := [], upc := 0 })

/-- The invariants of a run: every step keeps them, from every state that has them. -/
def Obligations.StepKeepsInvariants : Prop :=
  ∀ s t : State, s.Inv → step s = .next t → t.Inv

/-- The state after reset has the invariants. -/
def Obligations.ResetHasInvariants : Prop := State.reset.Inv

/-- R50, R300: the values the spec gives for reset. -/
def Obligations.ResetValues : Prop :=
  State.reset.fsm = .uninitialized ∧ State.reset.busy = false ∧ State.reset.prog = [] ∧ State.reset.upc = 0 ∧
    State.reset.timer.configured = false ∧ State.reset.trace = [] ∧ State.reset.fault = none

/-- R35, R190: once the FSM is Ready between commands, no step moves it or writes the configuration. -/
def Obligations.ReadyIsTerminal : Prop :=
  ∀ s t : State, s.busy = false → s.fsm = .ready → step s = .next t →
    t.fsm = .ready ∧ t.cfgRS = s.cfgRS ∧ t.cfgEN = s.cfgEN ∧ t.cfgPort = s.cfgPort ∧ t.cfgW8 = s.cfgW8

/-- R190, R194: only INIT moves the FSM, and only from Uninitialized to Ready; no instruction writes the parameters. -/
def Obligations.OnlyInitMovesFsm : Prop :=
  ∀ (i : Instr) (s t : State), exec i s = .next t →
    t.params = s.params ∧
      (t.fsm = s.fsm ∨ ((∃ rs en port w8, i = .init rs en port w8) ∧ s.fsm = .uninitialized ∧ t.fsm = .ready))

/-- R43, R73: a host write between commands leaves the engine's bits as they are, gives the register's other bits the host's value,
and leaves every other register. -/
def Obligations.HostWriteKeepsEngineBits : Prop :=
  ∀ (s : State) (a v : Nat) (rest : List HostMove), s.outreg.wf → s.fault = none → s.busy = false →
    s.presented = .writeReg a v :: rest → a < 2 ^ s.params.addrWidth →
    ∃ t, step s = .next t ∧ t.presented = rest ∧ t.trace = s.trace ∧
      (∀ a', a' ≠ a → t.memRead a' = s.memRead a') ∧
      ∀ k, k < s.params.portWidth →
        (t.memRead a).testBit k = if (s.ownedBits a).testBit k then (s.memRead a).testBit k else v.testBit k
end

