-- ==== Sys2Proof/Laws/State.lean ====
section
/-!
SUPPORT. What each small update of the state does to each field, so that no later proof unfolds a record update.
-/

namespace Sys2Proof.Machine

variable (s : State)

/-! `State.memWrite` -/

@[simp] theorem memWrite_params (addr v : Nat) : (s.memWrite addr v).params = s.params := rfl
@[simp] theorem memWrite_cfgRS (addr v : Nat) : (s.memWrite addr v).cfgRS = s.cfgRS := rfl
@[simp] theorem memWrite_cfgEN (addr v : Nat) : (s.memWrite addr v).cfgEN = s.cfgEN := rfl
@[simp] theorem memWrite_cfgPort (addr v : Nat) : (s.memWrite addr v).cfgPort = s.cfgPort := rfl
@[simp] theorem memWrite_cfgW8 (addr v : Nat) : (s.memWrite addr v).cfgW8 = s.cfgW8 := rfl
@[simp] theorem memWrite_fsm (addr v : Nat) : (s.memWrite addr v).fsm = s.fsm := rfl
@[simp] theorem memWrite_busy (addr v : Nat) : (s.memWrite addr v).busy = s.busy := rfl
@[simp] theorem memWrite_prog (addr v : Nat) : (s.memWrite addr v).prog = s.prog := rfl
@[simp] theorem memWrite_upc (addr v : Nat) : (s.memWrite addr v).upc = s.upc := rfl
@[simp] theorem memWrite_latch (addr v : Nat) : (s.memWrite addr v).latch = s.latch := rfl
@[simp] theorem memWrite_outreg (addr v : Nat) : (s.memWrite addr v).outreg = s.outreg.write addr (v % 2 ^ s.params.portWidth) := rfl
@[simp] theorem memWrite_timer (addr v : Nat) : (s.memWrite addr v).timer = s.timer := rfl
@[simp] theorem memWrite_trace (addr v : Nat) : (s.memWrite addr v).trace = s.trace := rfl
@[simp] theorem memWrite_fault (addr v : Nat) : (s.memWrite addr v).fault = s.fault := rfl
@[simp] theorem memWrite_presented (addr v : Nat) : (s.memWrite addr v).presented = s.presented := rfl
@[simp] theorem memWrite_draws (addr v : Nat) : (s.memWrite addr v).draws = s.draws := rfl

/-! `State.emit` -/

@[simp] theorem emit_params (e : Event) : (s.emit e).params = s.params := rfl
@[simp] theorem emit_cfgRS (e : Event) : (s.emit e).cfgRS = s.cfgRS := rfl
@[simp] theorem emit_cfgEN (e : Event) : (s.emit e).cfgEN = s.cfgEN := rfl
@[simp] theorem emit_cfgPort (e : Event) : (s.emit e).cfgPort = s.cfgPort := rfl
@[simp] theorem emit_cfgW8 (e : Event) : (s.emit e).cfgW8 = s.cfgW8 := rfl
@[simp] theorem emit_fsm (e : Event) : (s.emit e).fsm = s.fsm := rfl
@[simp] theorem emit_busy (e : Event) : (s.emit e).busy = s.busy := rfl
@[simp] theorem emit_prog (e : Event) : (s.emit e).prog = s.prog := rfl
@[simp] theorem emit_upc (e : Event) : (s.emit e).upc = s.upc := rfl
@[simp] theorem emit_latch (e : Event) : (s.emit e).latch = s.latch := rfl
@[simp] theorem emit_outreg (e : Event) : (s.emit e).outreg = s.outreg := rfl
@[simp] theorem emit_timer (e : Event) : (s.emit e).timer = s.timer := rfl
@[simp] theorem emit_trace (e : Event) : (s.emit e).trace = s.trace ++ [e] := rfl
@[simp] theorem emit_fault (e : Event) : (s.emit e).fault = s.fault := rfl
@[simp] theorem emit_presented (e : Event) : (s.emit e).presented = s.presented := rfl
@[simp] theorem emit_draws (e : Event) : (s.emit e).draws = s.draws := rfl

/-! `State.setTimer` -/

@[simp] theorem setTimer_params (t : Timer) : (s.setTimer t).params = s.params := rfl
@[simp] theorem setTimer_cfgRS (t : Timer) : (s.setTimer t).cfgRS = s.cfgRS := rfl
@[simp] theorem setTimer_cfgEN (t : Timer) : (s.setTimer t).cfgEN = s.cfgEN := rfl
@[simp] theorem setTimer_cfgPort (t : Timer) : (s.setTimer t).cfgPort = s.cfgPort := rfl
@[simp] theorem setTimer_cfgW8 (t : Timer) : (s.setTimer t).cfgW8 = s.cfgW8 := rfl
@[simp] theorem setTimer_fsm (t : Timer) : (s.setTimer t).fsm = s.fsm := rfl
@[simp] theorem setTimer_busy (t : Timer) : (s.setTimer t).busy = s.busy := rfl
@[simp] theorem setTimer_prog (t : Timer) : (s.setTimer t).prog = s.prog := rfl
@[simp] theorem setTimer_upc (t : Timer) : (s.setTimer t).upc = s.upc := rfl
@[simp] theorem setTimer_latch (t : Timer) : (s.setTimer t).latch = s.latch := rfl
@[simp] theorem setTimer_outreg (t : Timer) : (s.setTimer t).outreg = s.outreg := rfl
@[simp] theorem setTimer_timer (t : Timer) : (s.setTimer t).timer = t := rfl
@[simp] theorem setTimer_trace (t : Timer) : (s.setTimer t).trace = s.trace := rfl
@[simp] theorem setTimer_fault (t : Timer) : (s.setTimer t).fault = s.fault := rfl
@[simp] theorem setTimer_presented (t : Timer) : (s.setTimer t).presented = s.presented := rfl
@[simp] theorem setTimer_draws (t : Timer) : (s.setTimer t).draws = s.draws := rfl

/-! `State.drew` -/

@[simp] theorem drew_params (n : Nat) : (s.drew n).params = s.params := rfl
@[simp] theorem drew_cfgRS (n : Nat) : (s.drew n).cfgRS = s.cfgRS := rfl
@[simp] theorem drew_cfgEN (n : Nat) : (s.drew n).cfgEN = s.cfgEN := rfl
@[simp] theorem drew_cfgPort (n : Nat) : (s.drew n).cfgPort = s.cfgPort := rfl
@[simp] theorem drew_cfgW8 (n : Nat) : (s.drew n).cfgW8 = s.cfgW8 := rfl
@[simp] theorem drew_fsm (n : Nat) : (s.drew n).fsm = s.fsm := rfl
@[simp] theorem drew_busy (n : Nat) : (s.drew n).busy = s.busy := rfl
@[simp] theorem drew_prog (n : Nat) : (s.drew n).prog = s.prog := rfl
@[simp] theorem drew_upc (n : Nat) : (s.drew n).upc = s.upc := rfl
@[simp] theorem drew_latch (n : Nat) : (s.drew n).latch = s.latch := rfl
@[simp] theorem drew_outreg (n : Nat) : (s.drew n).outreg = s.outreg := rfl
@[simp] theorem drew_timer (n : Nat) : (s.drew n).timer = s.timer := rfl
@[simp] theorem drew_trace (n : Nat) : (s.drew n).trace = s.trace := rfl
@[simp] theorem drew_fault (n : Nat) : (s.drew n).fault = s.fault := rfl
@[simp] theorem drew_presented (n : Nat) : (s.drew n).presented = s.presented := rfl
@[simp] theorem drew_draws (n : Nat) : (s.drew n).draws = s.draws + n := rfl

/-! `State.advance` -/

@[simp] theorem advance_params : (s.advance).params = s.params := rfl
@[simp] theorem advance_cfgRS : (s.advance).cfgRS = s.cfgRS := rfl
@[simp] theorem advance_cfgEN : (s.advance).cfgEN = s.cfgEN := rfl
@[simp] theorem advance_cfgPort : (s.advance).cfgPort = s.cfgPort := rfl
@[simp] theorem advance_cfgW8 : (s.advance).cfgW8 = s.cfgW8 := rfl
@[simp] theorem advance_fsm : (s.advance).fsm = s.fsm := rfl
@[simp] theorem advance_busy : (s.advance).busy = s.busy := rfl
@[simp] theorem advance_prog : (s.advance).prog = s.prog := rfl
@[simp] theorem advance_upc : (s.advance).upc = s.upc + 1 := rfl
@[simp] theorem advance_latch : (s.advance).latch = s.latch := rfl
@[simp] theorem advance_outreg : (s.advance).outreg = s.outreg := rfl
@[simp] theorem advance_timer : (s.advance).timer = s.timer := rfl
@[simp] theorem advance_trace : (s.advance).trace = s.trace := rfl
@[simp] theorem advance_fault : (s.advance).fault = s.fault := rfl
@[simp] theorem advance_presented : (s.advance).presented = s.presented := rfl
@[simp] theorem advance_draws : (s.advance).draws = s.draws := rfl

/-! `State.complete` -/

@[simp] theorem complete_params : (s.complete).params = s.params := rfl
@[simp] theorem complete_cfgRS : (s.complete).cfgRS = s.cfgRS := rfl
@[simp] theorem complete_cfgEN : (s.complete).cfgEN = s.cfgEN := rfl
@[simp] theorem complete_cfgPort : (s.complete).cfgPort = s.cfgPort := rfl
@[simp] theorem complete_cfgW8 : (s.complete).cfgW8 = s.cfgW8 := rfl
@[simp] theorem complete_fsm : (s.complete).fsm = s.fsm := rfl
@[simp] theorem complete_busy : (s.complete).busy = false := rfl
@[simp] theorem complete_prog : (s.complete).prog = s.prog := rfl
@[simp] theorem complete_upc : (s.complete).upc = s.upc := rfl
@[simp] theorem complete_latch : (s.complete).latch = s.latch := rfl
@[simp] theorem complete_outreg : (s.complete).outreg = s.outreg := rfl
@[simp] theorem complete_timer : (s.complete).timer = s.timer := rfl
@[simp] theorem complete_trace : (s.complete).trace = s.trace := rfl
@[simp] theorem complete_fault : (s.complete).fault = s.fault := rfl
@[simp] theorem complete_presented : (s.complete).presented = s.presented := rfl
@[simp] theorem complete_draws : (s.complete).draws = s.draws := rfl

/-! `State.raise` -/

@[simp] theorem raise_params (r : FaultReason) : (s.raise r).params = s.params := rfl
@[simp] theorem raise_cfgRS (r : FaultReason) : (s.raise r).cfgRS = s.cfgRS := rfl
@[simp] theorem raise_cfgEN (r : FaultReason) : (s.raise r).cfgEN = s.cfgEN := rfl
@[simp] theorem raise_cfgPort (r : FaultReason) : (s.raise r).cfgPort = s.cfgPort := rfl
@[simp] theorem raise_cfgW8 (r : FaultReason) : (s.raise r).cfgW8 = s.cfgW8 := rfl
@[simp] theorem raise_fsm (r : FaultReason) : (s.raise r).fsm = s.fsm := rfl
@[simp] theorem raise_busy (r : FaultReason) : (s.raise r).busy = s.busy := rfl
@[simp] theorem raise_prog (r : FaultReason) : (s.raise r).prog = s.prog := rfl
@[simp] theorem raise_upc (r : FaultReason) : (s.raise r).upc = s.upc := rfl
@[simp] theorem raise_latch (r : FaultReason) : (s.raise r).latch = s.latch := rfl
@[simp] theorem raise_outreg (r : FaultReason) : (s.raise r).outreg = s.outreg := rfl
@[simp] theorem raise_timer (r : FaultReason) : (s.raise r).timer = s.timer := rfl
@[simp] theorem raise_trace (r : FaultReason) : (s.raise r).trace = s.trace := rfl
@[simp] theorem raise_fault (r : FaultReason) : (s.raise r).fault = some r := rfl
@[simp] theorem raise_presented (r : FaultReason) : (s.raise r).presented = s.presented := rfl
@[simp] theorem raise_draws (r : FaultReason) : (s.raise r).draws = s.draws := rfl

/-! `State.setFsm` -/

@[simp] theorem setFsm_params (f : Fsm) : (s.setFsm f).params = s.params := rfl
@[simp] theorem setFsm_cfgRS (f : Fsm) : (s.setFsm f).cfgRS = s.cfgRS := rfl
@[simp] theorem setFsm_cfgEN (f : Fsm) : (s.setFsm f).cfgEN = s.cfgEN := rfl
@[simp] theorem setFsm_cfgPort (f : Fsm) : (s.setFsm f).cfgPort = s.cfgPort := rfl
@[simp] theorem setFsm_cfgW8 (f : Fsm) : (s.setFsm f).cfgW8 = s.cfgW8 := rfl
@[simp] theorem setFsm_fsm (f : Fsm) : (s.setFsm f).fsm = f := rfl
@[simp] theorem setFsm_busy (f : Fsm) : (s.setFsm f).busy = s.busy := rfl
@[simp] theorem setFsm_prog (f : Fsm) : (s.setFsm f).prog = s.prog := rfl
@[simp] theorem setFsm_upc (f : Fsm) : (s.setFsm f).upc = s.upc := rfl
@[simp] theorem setFsm_latch (f : Fsm) : (s.setFsm f).latch = s.latch := rfl
@[simp] theorem setFsm_outreg (f : Fsm) : (s.setFsm f).outreg = s.outreg := rfl
@[simp] theorem setFsm_timer (f : Fsm) : (s.setFsm f).timer = s.timer := rfl
@[simp] theorem setFsm_trace (f : Fsm) : (s.setFsm f).trace = s.trace := rfl
@[simp] theorem setFsm_fault (f : Fsm) : (s.setFsm f).fault = s.fault := rfl
@[simp] theorem setFsm_presented (f : Fsm) : (s.setFsm f).presented = s.presented := rfl
@[simp] theorem setFsm_draws (f : Fsm) : (s.setFsm f).draws = s.draws := rfl

/-! `State.storeConfig` -/

@[simp] theorem storeConfig_params : (s.storeConfig).params = s.params := rfl
@[simp] theorem storeConfig_cfgRS : (s.storeConfig).cfgRS = s.latch.initRs := rfl
@[simp] theorem storeConfig_cfgEN : (s.storeConfig).cfgEN = s.latch.initEn := rfl
@[simp] theorem storeConfig_cfgPort : (s.storeConfig).cfgPort = s.latch.initPort := rfl
@[simp] theorem storeConfig_cfgW8 : (s.storeConfig).cfgW8 = s.latch.initW8 := rfl
@[simp] theorem storeConfig_fsm : (s.storeConfig).fsm = s.fsm := rfl
@[simp] theorem storeConfig_busy : (s.storeConfig).busy = s.busy := rfl
@[simp] theorem storeConfig_prog : (s.storeConfig).prog = s.prog := rfl
@[simp] theorem storeConfig_upc : (s.storeConfig).upc = s.upc := rfl
@[simp] theorem storeConfig_latch : (s.storeConfig).latch = s.latch := rfl
@[simp] theorem storeConfig_outreg : (s.storeConfig).outreg = s.outreg := rfl
@[simp] theorem storeConfig_timer : (s.storeConfig).timer = s.timer := rfl
@[simp] theorem storeConfig_trace : (s.storeConfig).trace = s.trace := rfl
@[simp] theorem storeConfig_fault : (s.storeConfig).fault = s.fault := rfl
@[simp] theorem storeConfig_presented : (s.storeConfig).presented = s.presented := rfl
@[simp] theorem storeConfig_draws : (s.storeConfig).draws = s.draws := rfl

/-! `State.accept` -/

@[simp] theorem accept_params (c : Command) (program : Params → Command → List MicroOp) : (s.accept c program).params = s.params := rfl
@[simp] theorem accept_cfgRS (c : Command) (program : Params → Command → List MicroOp) : (s.accept c program).cfgRS = s.cfgRS := rfl
@[simp] theorem accept_cfgEN (c : Command) (program : Params → Command → List MicroOp) : (s.accept c program).cfgEN = s.cfgEN := rfl
@[simp] theorem accept_cfgPort (c : Command) (program : Params → Command → List MicroOp) : (s.accept c program).cfgPort = s.cfgPort := rfl
@[simp] theorem accept_cfgW8 (c : Command) (program : Params → Command → List MicroOp) : (s.accept c program).cfgW8 = s.cfgW8 := rfl
@[simp] theorem accept_fsm (c : Command) (program : Params → Command → List MicroOp) : (s.accept c program).fsm = s.fsm := rfl
@[simp] theorem accept_busy (c : Command) (program : Params → Command → List MicroOp) : (s.accept c program).busy = true := rfl
@[simp] theorem accept_prog (c : Command) (program : Params → Command → List MicroOp) : (s.accept c program).prog = program s.params c := rfl
@[simp] theorem accept_upc (c : Command) (program : Params → Command → List MicroOp) : (s.accept c program).upc = 0 := rfl
@[simp] theorem accept_latch (c : Command) (program : Params → Command → List MicroOp) : (s.accept c program).latch = c := rfl
@[simp] theorem accept_outreg (c : Command) (program : Params → Command → List MicroOp) : (s.accept c program).outreg = s.outreg := rfl
@[simp] theorem accept_timer (c : Command) (program : Params → Command → List MicroOp) : (s.accept c program).timer = s.timer := rfl
@[simp] theorem accept_trace (c : Command) (program : Params → Command → List MicroOp) : (s.accept c program).trace = s.trace := rfl
@[simp] theorem accept_fault (c : Command) (program : Params → Command → List MicroOp) : (s.accept c program).fault = s.fault := rfl
@[simp] theorem accept_presented (c : Command) (program : Params → Command → List MicroOp) : (s.accept c program).presented = s.presented := rfl
@[simp] theorem accept_draws (c : Command) (program : Params → Command → List MicroOp) : (s.accept c program).draws = s.draws := rfl

/-! `State.consume` -/

@[simp] theorem consume_params : (s.consume).params = s.params := rfl
@[simp] theorem consume_cfgRS : (s.consume).cfgRS = s.cfgRS := rfl
@[simp] theorem consume_cfgEN : (s.consume).cfgEN = s.cfgEN := rfl
@[simp] theorem consume_cfgPort : (s.consume).cfgPort = s.cfgPort := rfl
@[simp] theorem consume_cfgW8 : (s.consume).cfgW8 = s.cfgW8 := rfl
@[simp] theorem consume_fsm : (s.consume).fsm = s.fsm := rfl
@[simp] theorem consume_busy : (s.consume).busy = s.busy := rfl
@[simp] theorem consume_prog : (s.consume).prog = s.prog := rfl
@[simp] theorem consume_upc : (s.consume).upc = s.upc := rfl
@[simp] theorem consume_latch : (s.consume).latch = s.latch := rfl
@[simp] theorem consume_outreg : (s.consume).outreg = s.outreg := rfl
@[simp] theorem consume_timer : (s.consume).timer = s.timer := rfl
@[simp] theorem consume_trace : (s.consume).trace = s.trace := rfl
@[simp] theorem consume_fault : (s.consume).fault = s.fault := rfl
@[simp] theorem consume_presented : (s.consume).presented = s.presented.tail := rfl
@[simp] theorem consume_draws : (s.consume).draws = s.draws := rfl

/-! `State.writeLine` -/

@[simp] theorem writeLine_params (p : PinRef) (b : Bool) : (s.writeLine p b).params = s.params := rfl
@[simp] theorem writeLine_cfgRS (p : PinRef) (b : Bool) : (s.writeLine p b).cfgRS = s.cfgRS := rfl
@[simp] theorem writeLine_cfgEN (p : PinRef) (b : Bool) : (s.writeLine p b).cfgEN = s.cfgEN := rfl
@[simp] theorem writeLine_cfgPort (p : PinRef) (b : Bool) : (s.writeLine p b).cfgPort = s.cfgPort := rfl
@[simp] theorem writeLine_cfgW8 (p : PinRef) (b : Bool) : (s.writeLine p b).cfgW8 = s.cfgW8 := rfl
@[simp] theorem writeLine_fsm (p : PinRef) (b : Bool) : (s.writeLine p b).fsm = s.fsm := rfl
@[simp] theorem writeLine_busy (p : PinRef) (b : Bool) : (s.writeLine p b).busy = s.busy := rfl
@[simp] theorem writeLine_prog (p : PinRef) (b : Bool) : (s.writeLine p b).prog = s.prog := rfl
@[simp] theorem writeLine_upc (p : PinRef) (b : Bool) : (s.writeLine p b).upc = s.upc := rfl
@[simp] theorem writeLine_latch (p : PinRef) (b : Bool) : (s.writeLine p b).latch = s.latch := rfl
@[simp] theorem writeLine_timer (p : PinRef) (b : Bool) : (s.writeLine p b).timer = s.timer := rfl
@[simp] theorem writeLine_trace (p : PinRef) (b : Bool) : (s.writeLine p b).trace = s.trace := rfl
@[simp] theorem writeLine_fault (p : PinRef) (b : Bool) : (s.writeLine p b).fault = s.fault := rfl
@[simp] theorem writeLine_presented (p : PinRef) (b : Bool) : (s.writeLine p b).presented = s.presented := rfl
@[simp] theorem writeLine_draws (p : PinRef) (b : Bool) : (s.writeLine p b).draws = s.draws := rfl

/-! `State.writeBus4` -/

@[simp] theorem writeBus4_params (n : Nibble) : (s.writeBus4 n).params = s.params := rfl
@[simp] theorem writeBus4_cfgRS (n : Nibble) : (s.writeBus4 n).cfgRS = s.cfgRS := rfl
@[simp] theorem writeBus4_cfgEN (n : Nibble) : (s.writeBus4 n).cfgEN = s.cfgEN := rfl
@[simp] theorem writeBus4_cfgPort (n : Nibble) : (s.writeBus4 n).cfgPort = s.cfgPort := rfl
@[simp] theorem writeBus4_cfgW8 (n : Nibble) : (s.writeBus4 n).cfgW8 = s.cfgW8 := rfl
@[simp] theorem writeBus4_fsm (n : Nibble) : (s.writeBus4 n).fsm = s.fsm := rfl
@[simp] theorem writeBus4_busy (n : Nibble) : (s.writeBus4 n).busy = s.busy := rfl
@[simp] theorem writeBus4_prog (n : Nibble) : (s.writeBus4 n).prog = s.prog := rfl
@[simp] theorem writeBus4_upc (n : Nibble) : (s.writeBus4 n).upc = s.upc := rfl
@[simp] theorem writeBus4_latch (n : Nibble) : (s.writeBus4 n).latch = s.latch := rfl
@[simp] theorem writeBus4_timer (n : Nibble) : (s.writeBus4 n).timer = s.timer := rfl
@[simp] theorem writeBus4_trace (n : Nibble) : (s.writeBus4 n).trace = s.trace := rfl
@[simp] theorem writeBus4_fault (n : Nibble) : (s.writeBus4 n).fault = s.fault := rfl
@[simp] theorem writeBus4_presented (n : Nibble) : (s.writeBus4 n).presented = s.presented := rfl
@[simp] theorem writeBus4_draws (n : Nibble) : (s.writeBus4 n).draws = s.draws := rfl

/-! `State.writeBus8` -/

@[simp] theorem writeBus8_params (v : Byte) : (s.writeBus8 v).params = s.params := rfl
@[simp] theorem writeBus8_cfgRS (v : Byte) : (s.writeBus8 v).cfgRS = s.cfgRS := rfl
@[simp] theorem writeBus8_cfgEN (v : Byte) : (s.writeBus8 v).cfgEN = s.cfgEN := rfl
@[simp] theorem writeBus8_cfgPort (v : Byte) : (s.writeBus8 v).cfgPort = s.cfgPort := rfl
@[simp] theorem writeBus8_cfgW8 (v : Byte) : (s.writeBus8 v).cfgW8 = s.cfgW8 := rfl
@[simp] theorem writeBus8_fsm (v : Byte) : (s.writeBus8 v).fsm = s.fsm := rfl
@[simp] theorem writeBus8_busy (v : Byte) : (s.writeBus8 v).busy = s.busy := rfl
@[simp] theorem writeBus8_prog (v : Byte) : (s.writeBus8 v).prog = s.prog := rfl
@[simp] theorem writeBus8_upc (v : Byte) : (s.writeBus8 v).upc = s.upc := rfl
@[simp] theorem writeBus8_latch (v : Byte) : (s.writeBus8 v).latch = s.latch := rfl
@[simp] theorem writeBus8_timer (v : Byte) : (s.writeBus8 v).timer = s.timer := rfl
@[simp] theorem writeBus8_trace (v : Byte) : (s.writeBus8 v).trace = s.trace := rfl
@[simp] theorem writeBus8_fault (v : Byte) : (s.writeBus8 v).fault = s.fault := rfl
@[simp] theorem writeBus8_presented (v : Byte) : (s.writeBus8 v).presented = s.presented := rfl
@[simp] theorem writeBus8_draws (v : Byte) : (s.writeBus8 v).draws = s.draws + 1 := rfl

end Sys2Proof.Machine
end

