-- ==== Sys2Proof/Laws/Memory.lean ====
section
/-!
SUPPORT. The laws of the output registers: read after write, the canonical form, and the bits a write leaves alone.
-/

namespace Sys2Proof.Machine

@[simp] theorem Memory.read_nil (addr : Nat) : Memory.read [] addr = 0 := rfl

theorem Memory.read_cons (c : Nat × Nat) (m : Memory) (addr : Nat) :
    Memory.read (c :: m) addr = if c.1 = addr then c.2 else Memory.read m addr := rfl

/-- An address below or above every listed one is unlisted. -/
theorem Memory.read_of_forall_ne {m : Memory} {addr : Nat} (h : ∀ c ∈ m, c.1 ≠ addr) : m.read addr = 0 := by
  induction m with
  | nil => rfl
  | cons c m ih =>
    rw [Memory.read_cons, if_neg (h c (by simp)), ih fun d hd => h d (by simp [hd])]

theorem Memory.read_list (m : Memory) (k v addr : Nat) (h : ∀ c ∈ m, k < c.1) :
    (Memory.list m k v).read addr = if addr = k then v else m.read addr := by
  unfold Memory.list
  split
  · rename_i hv
    split
    · rename_i he
      rw [hv, he]
      exact Memory.read_of_forall_ne fun c hc => by have := h c hc; omega
    · rfl
  · rw [Memory.read_cons]
    by_cases he : addr = k <;> simp [he, eq_comm]
    omega

/-- Read after write, on a canonical memory. -/
theorem Memory.read_write {m : Memory} (h : m.wf) (k v addr : Nat) :
    (m.write k v).read addr = if addr = k then v else m.read addr := by
  induction m with
  | nil => exact Memory.read_list [] k v addr (by simp)
  | cons c m ih =>
    obtain ⟨hp, hn⟩ := h
    have hm : Memory.wf m := ⟨hp.tail, fun d hd => hn d (by simp [hd])⟩
    have hlt : ∀ d ∈ m, c.1 < d.1 := (List.pairwise_cons.mp hp).1
    obtain ⟨a, u⟩ := c
    unfold Memory.write
    split
    · rename_i hk
      refine Memory.read_list _ k v addr fun d hd => ?_
      rcases List.mem_cons.mp hd with rfl | hd
      · exact hk
      · exact Nat.lt_trans hk (hlt d hd)
    · split
      · rename_i hk
        subst hk
        rw [Memory.read_list _ _ _ _ hlt]
        by_cases he : addr = k
        · simp [he]
        · rw [if_neg he, if_neg he, Memory.read_cons, if_neg (fun h => he h.symm)]
      · rename_i h1 h2
        rw [Memory.read_cons, Memory.read_cons, ih hm]
        by_cases he : addr = k
        · simp [he, show a ≠ k by omega]
        · simp [he]

theorem Memory.mem_list {m : Memory} {k v : Nat} {c : Nat × Nat} (h : c ∈ Memory.list m k v) :
    (c = (k, v) ∧ v ≠ Memory.unlisted) ∨ c ∈ m := by
  unfold Memory.list at h
  split at h
  · exact .inr h
  · rcases List.mem_cons.mp h with rfl | h
    · exact .inl ⟨rfl, ‹_›⟩
    · exact .inr h

/-- Every entry after a write is the written one or an earlier one. -/
theorem Memory.mem_write {m : Memory} {k v : Nat} {c : Nat × Nat} (h : c ∈ m.write k v) :
    (c = (k, v) ∧ v ≠ Memory.unlisted) ∨ c ∈ m := by
  induction m with
  | nil => exact Memory.mem_list h
  | cons d m ih =>
    obtain ⟨a, u⟩ := d
    unfold Memory.write at h
    split at h
    · exact Memory.mem_list h
    · split at h
      · rcases Memory.mem_list h with h | h
        · exact .inl h
        · exact .inr (by simp [h])
      · rcases List.mem_cons.mp h with rfl | h
        · exact .inr (by simp)
        · rcases ih h with h | h
          · exact .inl h
          · exact .inr (by simp [h])

theorem Memory.list_wf {m : Memory} (h : m.wf) {k v : Nat} (hk : ∀ c ∈ m, k < c.1) : (Memory.list m k v).wf := by
  unfold Memory.list
  split
  · exact h
  · rename_i hv
    refine ⟨List.pairwise_cons.mpr ⟨fun d hd => hk d hd, h.1⟩, fun c hc => ?_⟩
    rcases List.mem_cons.mp hc with rfl | hc
    · exact hv
    · exact h.2 c hc

/-- A write keeps the canonical form. -/
theorem Memory.write_wf {m : Memory} (h : m.wf) (k v : Nat) : (m.write k v).wf := by
  induction m with
  | nil => exact Memory.list_wf h (by simp)
  | cons c m ih =>
    obtain ⟨hp, hn⟩ := h
    have hm : Memory.wf m := ⟨hp.tail, fun d hd => hn d (by simp [hd])⟩
    have hlt : ∀ d ∈ m, c.1 < d.1 := (List.pairwise_cons.mp hp).1
    obtain ⟨a, u⟩ := c
    unfold Memory.write
    split
    · rename_i hk
      refine Memory.list_wf ⟨hp, hn⟩ fun d hd => ?_
      rcases List.mem_cons.mp hd with rfl | hd
      · exact hk
      · exact Nat.lt_trans hk (hlt d hd)
    · split
      · rename_i hk
        exact Memory.list_wf hm (hk ▸ hlt)
      · rename_i h1 h2
        refine ⟨List.pairwise_cons.mpr ⟨fun d hd => ?_, (ih hm).1⟩, fun d hd => ?_⟩
        · rcases Memory.mem_write hd with ⟨rfl, -⟩ | hd
          · show a < k
            omega
          · exact hlt d hd
        · rcases List.mem_cons.mp hd with rfl | hd
          · exact hn _ (by simp)
          · exact (ih hm).2 d hd

/-- A write of a PORT_WIDTH-bit value to an address of the space keeps the registers in the space. -/
theorem Memory.write_fits {p : Params} {m : Memory} (h : m.fits p) {k v : Nat} (hk : k < 2 ^ p.addrWidth)
    (hv : v < 2 ^ p.portWidth) : (m.write k v).fits p := by
  intro c hc
  rcases Memory.mem_write hc with ⟨rfl, -⟩ | hc
  · exact ⟨hk, hv⟩
  · exact h c hc

/-- A register of a memory that fits has PORT_WIDTH bits. -/
theorem Memory.read_lt {p : Params} {m : Memory} (h : m.fits p) (addr : Nat) : m.read addr < 2 ^ p.portWidth := by
  induction m with
  | nil => exact Nat.two_pow_pos _
  | cons c m ih =>
    rw [Memory.read_cons]
    split
    · exact (h c (by simp)).2
    · exact ih fun d hd => h d (by simp [hd])

theorem Memory.nil_wf : Memory.wf [] := ⟨List.Pairwise.nil, by simp⟩

theorem reset_memory_wf : State.reset.outreg.wf := Memory.nil_wf

/-- `MemRead` after `MemWrite` (R73). -/
theorem memRead_memWrite {s : State} (h : s.outreg.wf) (k v addr : Nat) :
    (s.memWrite k v).memRead addr = if addr = k then v % 2 ^ s.params.portWidth else s.memRead addr :=
  Memory.read_write h k _ addr

theorem memWrite_wf {s : State} (h : s.outreg.wf) (k v : Nat) : (s.memWrite k v).outreg.wf :=
  Memory.write_wf h k _

theorem memWrite_fits {s : State} (h : s.outreg.fits s.params) {k : Nat} (hk : k < 2 ^ s.params.addrWidth) (v : Nat) :
    (s.memWrite k v).outreg.fits s.params :=
  Memory.write_fits h hk (Nat.mod_lt _ (Nat.two_pow_pos _))

/-! ### The bit fields of R74 to R76 -/

@[simp] theorem testBit_clearBits (v mask k : Nat) :
    (clearBits v mask).testBit k = (v.testBit k && !mask.testBit k) := by
  simp only [clearBits, Nat.testBit_xor, Nat.testBit_and]
  cases v.testBit k <;> cases mask.testBit k <;> rfl

/-- A line write changes the line's bit and no other (R74). -/
@[simp] theorem testBit_withLine (old mask k : Nat) (b : Bool) :
    (withLine old mask b).testBit k = if mask.testBit k then b else old.testBit k := by
  simp only [withLine, Nat.testBit_or, testBit_clearBits]
  by_cases h : mask.testBit k <;> cases b <;> simp [h]

/-- A 4-bit write replaces bits 3..0 and no other (R76). -/
@[simp] theorem testBit_withLowNibble (old k : Nat) (n : Nibble) :
    (withLowNibble old n).testBit k = if k < 4 then n.getLsbD k else old.testBit k := by
  simp only [withLowNibble, Nat.testBit_or, Nat.testBit_shiftLeft, Nat.testBit_shiftRight, BitVec.testBit_toNat]
  by_cases h : k < 4
  · simp [h]
  · have : n.getLsbD k = false := BitVec.getLsbD_of_ge n k (by omega)
    simp [h, this, show 4 + (k - 4) = k by omega]
    omega

/-- An 8-bit write puts `v` in bits 7..0 (R75). -/
theorem testBit_withLowByte {upper k : Nat} {v : Byte} (h : k < 8) :
    (withLowByte upper v).testBit k = v.getLsbD k := by
  simp [withLowByte, Nat.testBit_or, Nat.testBit_shiftLeft, h, show ¬ 8 ≤ k by omega, BitVec.testBit_toNat]

end Sys2Proof.Machine
end

