-- ==== Sys2Proof/Laws/Timer.lean ====
section
/-!
SUPPORT. The laws of the delay timer: what a cycle and a wait keep, and that a wait of an admissible period ends.
-/

namespace Sys2Proof.Machine

@[simp] theorem Timer.cycle_configured (t : Timer) : t.cycle.configured = t.configured := by
  unfold Timer.cycle; split <;> [split <;> rfl; rfl]

@[simp] theorem Timer.cycle_reload (t : Timer) : t.cycle.reload = t.reload := by
  unfold Timer.cycle; split <;> [split <;> rfl; rfl]

@[simp] theorem Timer.cycle_clkSrc (t : Timer) : t.cycle.clkSrc = t.clkSrc := by
  unfold Timer.cycle; split <;> [split <;> rfl; rfl]

theorem Timer.cycle_le {t : Timer} (h : t.current ≤ t.reload) : t.cycle.current ≤ t.reload := by
  unfold Timer.cycle
  split
  · split
    · exact Nat.le_refl _
    · exact Nat.le_trans (Nat.sub_le _ _) h
  · exact h

@[simp] theorem Timer.run_reload (n : Nat) (t : Timer) : (Timer.run n t).reload = t.reload := by
  induction n generalizing t with
  | zero => rfl
  | succ n ih => rw [Timer.run, ih, Timer.cycle_reload]

@[simp] theorem Timer.run_configured (n : Nat) (t : Timer) : (Timer.run n t).configured = t.configured := by
  induction n generalizing t with
  | zero => rfl
  | succ n ih => rw [Timer.run, ih, Timer.cycle_configured]

/-- The counter never exceeds the reload value (R286). -/
theorem Timer.run_le (n : Nat) {t : Timer} (h : t.current ≤ t.reload) : (Timer.run n t).current ≤ t.reload := by
  induction n generalizing t with
  | zero => exact h
  | succ n ih =>
    have := ih (t := t.cycle) (by rw [Timer.cycle_reload]; exact Timer.cycle_le h)
    rwa [Timer.cycle_reload] at this

theorem Timer.run_succ (n : Nat) (t : Timer) : Timer.run (n + 1) t = (Timer.run n t).cycle := by
  induction n generalizing t with
  | zero => rfl
  | succ n ih => rw [Timer.run, ih]; rfl

theorem Timer.run_add (m n : Nat) (t : Timer) : Timer.run (m + n) t = Timer.run n (Timer.run m t) := by
  induction n with
  | zero => rfl
  | succ n ih => rw [← Nat.add_assoc, Timer.run_succ, ih, Timer.run_succ]

@[simp] theorem Timer.load_configured (w p : Nat) (t : Timer) : (t.load w p).configured = t.configured := rfl
@[simp] theorem Timer.load_reload (w p : Nat) (t : Timer) : (t.load w p).reload = (p - 1) % 2 ^ w := rfl
@[simp] theorem Timer.load_current (w p : Nat) (t : Timer) : (t.load w p).current = 0 := rfl
@[simp] theorem Timer.load_countFlag (w p : Nat) (t : Timer) : (t.load w p).countFlag = false := rfl
@[simp] theorem Timer.load_clkSrc (w p : Nat) (t : Timer) : (t.load w p).clkSrc = t.clkSrc := rfl
@[simp] theorem Timer.polled_configured (k : Nat) (t : Timer) : (t.polled k).configured = t.configured := rfl
@[simp] theorem Timer.polled_reload (k : Nat) (t : Timer) : (t.polled k).reload = t.reload := rfl
@[simp] theorem Timer.load_pollCycles (w p k : Nat) (t : Timer) :
    (t.load w p).pollCycles k = (p - 1) % 2 ^ w + 1 + Config.freePollLatency k := rfl
@[simp] theorem Timer.polled_current (k : Nat) (t : Timer) : (t.polled k).current = (Timer.run (t.pollCycles k) t).current := rfl
@[simp] theorem Timer.polled_clkSrc (k : Nat) (t : Timer) : (t.polled k).clkSrc = t.clkSrc := rfl

/-- The first cycle of a loaded timer reloads; the next `j` count down (R286). -/
theorem Timer.run_loaded_current {w p : Nat} {t : Timer} (hc : t.configured = true) {j : Nat}
    (hj : j ≤ (p - 1) % 2 ^ w) :
    (Timer.run (j + 1) (t.load w p)).current = (p - 1) % 2 ^ w - j := by
  induction j with
  | zero => simp [Timer.run, Timer.cycle, hc]
  | succ j ih =>
    have h := ih (by omega)
    rw [Timer.run_succ, Timer.cycle, if_pos (by simp [hc]), if_neg (by omega)]
    show (Timer.run (j + 1) (t.load w p)).current - 1 = _
    rw [h]; omega

/-- One call of `wait_ticks(p)` on a configured timer ends when the reload value is not 0 (R283, R286). -/
theorem Timer.waitTicks_of_counts {w p k : Nat} {t : Timer} (hc : t.configured = true) (hp : (p - 1) % 2 ^ w ≠ 0) :
    t.waitTicks w p k = some ((t.load w p).polled k) := by
  simp [Timer.waitTicks, Timer.counts, hc, hp]

theorem reload_ne_zero {w p : Nat} (h2 : 2 ≤ p) (hw : p ≤ 2 ^ w) : (p - 1) % 2 ^ w ≠ 0 := by
  rw [Nat.mod_eq_of_lt (by omega)]; omega

/-- What a wait can do to the timer, if it ends. -/
theorem Timer.waitUnits_cases {w p n k : Nat} {t u : Timer} (h : t.waitUnits w p n k = some u) :
    (n = 0 ∧ u = t) ∨ ∃ m, n = m + 1 ∧ (t.load w p).counts = true ∧ u = (t.load w p).polled (k + m) := by
  cases n with
  | zero => exact .inl ⟨rfl, by simpa [Timer.waitUnits] using h.symm⟩
  | succ m =>
    refine .inr ⟨m, rfl, ?_⟩
    simp only [Timer.waitUnits, Timer.waitTicks] at h
    split at h
    · exact ⟨‹_›, by simpa using h.symm⟩
    · cases h

theorem Timer.waitUnits_configured {w p n k : Nat} {t u : Timer} (h : t.waitUnits w p n k = some u) :
    u.configured = t.configured := by
  obtain ⟨-, rfl⟩ | ⟨m, -, -, rfl⟩ := Timer.waitUnits_cases h <;> rfl

theorem Timer.waitUnits_clkSrc {w p n k : Nat} {t u : Timer} (h : t.waitUnits w p n k = some u) :
    u.clkSrc = t.clkSrc := by
  obtain ⟨-, rfl⟩ | ⟨m, -, -, rfl⟩ := Timer.waitUnits_cases h <;> rfl

theorem Timer.waitUnits_fits {w p n k : Nat} {t u : Timer} (h : t.waitUnits w p n k = some u)
    (ht : t.current ≤ t.reload ∧ t.reload < 2 ^ w) : u.current ≤ u.reload ∧ u.reload < 2 ^ w := by
  obtain ⟨-, rfl⟩ | ⟨m, -, -, rfl⟩ := Timer.waitUnits_cases h
  · exact ht
  · exact ⟨Timer.run_le _ (Nat.zero_le _), Nat.mod_lt _ (Nat.two_pow_pos _)⟩

/-- A wait of an admissible unit ends (R281, R283). -/
theorem Timer.waitUnits_ends {w p : Nat} (n k : Nat) {t : Timer} (hc : t.configured = true) (h2 : 2 ≤ p) (hw : p ≤ 2 ^ w) :
    ∃ u, t.waitUnits w p n k = some u := by
  cases n with
  | zero => exact ⟨t, rfl⟩
  | succ n => exact ⟨_, Timer.waitTicks_of_counts hc (reload_ne_zero h2 hw)⟩

@[simp] theorem Timer.init_configured (w : Nat) (t : Timer) : (t.init w).configured = true := rfl
@[simp] theorem Timer.init_reload (w : Nat) (t : Timer) : (t.init w).reload = 2 ^ w - 1 := rfl
@[simp] theorem Timer.init_current (w : Nat) (t : Timer) : (t.init w).current = 0 := rfl
@[simp] theorem Timer.init_countFlag (w : Nat) (t : Timer) : (t.init w).countFlag = false := rfl
@[simp] theorem Timer.init_clkSrc (w : Nat) (t : Timer) : (t.init w).clkSrc = true := rfl

end Sys2Proof.Machine
end

