-- ==== Sys2Proof/Laws/Drive.lean ====
section
/-!
SUPPORT. What driving lines can do, said once: `Drives s es t` holds of the state `t` after the primitive micro-operations `es`
from `s` (`driveAll_drives`), and an engine that can drive its lines gets there (`driveAll_ends`).
-/

namespace Sys2Proof.Machine

@[simp] theorem andThen_next (s : State) (f : State → Result) : andThen (.next s) f = f s := rfl
@[simp] theorem andThen_fault (r : Fault) (f : State → Result) : andThen (.fault r) f = .fault r := rfl
@[simp] theorem andThen_refused (r : Refusal) (f : State → Result) : andThen (.refused r) f = .refused r := rfl

/-- A chain ends in a next state exactly if each part does. -/
theorem andThen_eq_next {o : Result} {f : State → Result} {t : State} :
    andThen o f = .next t ↔ ∃ u, o = .next u ∧ f u = .next t := by
  cases o <;> simp

theorem andThen_assoc (o : Result) (f g : State → Result) :
    andThen (andThen o f) g = andThen o (fun s => andThen (f s) g) := by
  cases o <;> rfl

/-- Whether an event may change bit `k` of the register at `a`. -/
def touches (s : State) (a k : Nat) : Event → Bool
  | .setRS _ => a == s.cfgRS.addr && s.cfgRS.mask.testBit k
  | .setE _ => a == s.cfgEN.addr && s.cfgEN.mask.testBit k
  | .bus8 _ => a == s.cfgPort
  | .bus4 _ => a == s.cfgPort && decide (k < 4)
  | .waitUs _ => false
  | .waitMs _ => false

/-- What holds after driving `es` from `s` to `t`. The sequencer's registers `FSM`, `BUSY`, `PROG` and `upc` are not spoken of:
see `driveAll_sequencer`. -/
structure Drives (s : State) (es : List Event) (t : State) : Prop where
  params : t.params = s.params
  cfgRS : t.cfgRS = s.cfgRS
  cfgEN : t.cfgEN = s.cfgEN
  cfgPort : t.cfgPort = s.cfgPort
  cfgW8 : t.cfgW8 = s.cfgW8
  latch : t.latch = s.latch
  fault : t.fault = s.fault
  presented : t.presented = s.presented
  configured : t.timer.configured = s.timer.configured
  clkSrc : t.timer.clkSrc = s.timer.clkSrc
  trace : t.trace = s.trace ++ es
  wf : s.outreg.wf → t.outreg.wf
  fits : s.outreg.fits s.params → t.outreg.fits s.params
  timerFits : s.timer.current ≤ s.timer.reload ∧ s.timer.reload < 2 ^ s.params.timerWidth →
    t.timer.current ≤ t.timer.reload ∧ t.timer.reload < 2 ^ s.params.timerWidth
  bits : s.outreg.wf → ∀ a k, k < s.params.portWidth → (∀ e ∈ es, touches s a k e = false) →
    (t.memRead a).testBit k = (s.memRead a).testBit k
  others : s.outreg.wf → ∀ a, a ≠ s.cfgRS.addr → a ≠ s.cfgEN.addr → a ≠ s.cfgPort → t.memRead a = s.memRead a

theorem Drives.refl (s : State) : Drives s [] s where
  params := rfl
  cfgRS := rfl
  cfgEN := rfl
  cfgPort := rfl
  cfgW8 := rfl
  latch := rfl
  fault := rfl
  presented := rfl
  configured := rfl
  clkSrc := rfl
  trace := by simp
  wf := id
  fits := id
  timerFits := id
  bits := fun _ _ _ _ _ => rfl
  others := fun _ _ _ _ _ => rfl

theorem touches_congr {s t : State} (h1 : t.cfgRS = s.cfgRS) (h2 : t.cfgEN = s.cfgEN) (h3 : t.cfgPort = s.cfgPort)
    (a k : Nat) (e : Event) : touches t a k e = touches s a k e := by
  cases e <;> simp [touches, h1, h2, h3]

theorem Drives.trans {s t u : State} {es fs : List Event} (h : Drives s es t) (g : Drives t fs u) :
    Drives s (es ++ fs) u where
  params := g.params.trans h.params
  cfgRS := g.cfgRS.trans h.cfgRS
  cfgEN := g.cfgEN.trans h.cfgEN
  cfgPort := g.cfgPort.trans h.cfgPort
  cfgW8 := g.cfgW8.trans h.cfgW8
  latch := g.latch.trans h.latch
  fault := g.fault.trans h.fault
  presented := g.presented.trans h.presented
  configured := g.configured.trans h.configured
  clkSrc := g.clkSrc.trans h.clkSrc
  trace := by rw [g.trace, h.trace, List.append_assoc]
  wf := fun w => g.wf (h.wf w)
  fits := fun f => h.params ▸ g.fits (by rw [h.params]; exact h.fits f)
  timerFits := fun f => h.params ▸ g.timerFits (by rw [h.params]; exact h.timerFits f)
  bits := fun w a k hk hn => by
    rw [g.bits (h.wf w) a k (by rw [h.params]; exact hk), h.bits w a k hk fun e he => hn e (by simp [he])]
    intro e he
    rw [touches_congr h.cfgRS h.cfgEN h.cfgPort]
    exact hn e (by simp [he])
  others := fun w a h1 h2 h3 => by
    rw [g.others (h.wf w) a (by rw [h.cfgRS]; exact h1) (by rw [h.cfgEN]; exact h2) (by rw [h.cfgPort]; exact h3),
      h.others w a h1 h2 h3]

/-- The four sequencer registers of two states are the same. -/
structure SameSequencer (s t : State) : Prop where
  fsm : t.fsm = s.fsm
  busy : t.busy = s.busy
  prog : t.prog = s.prog
  upc : t.upc = s.upc

theorem accessing_eq_next {s t u : State} {a : Nat} :
    accessing s a t = .next u ↔ a < 2 ^ s.params.addrWidth ∧ u = t := by
  simp only [accessing, Params.hasAddr, decide_eq_true_eq]
  split <;> rename_i h <;> simp [h, eq_comm]

theorem waiting_eq_next {s t : State} {p n : Nat} {e : Event} :
    waiting p n e s = .next t ↔
      ∃ u, s.timer.waitUnits s.params.timerWidth p n s.draws = some u ∧ t = ((s.emit e).setTimer u).drew n := by
  simp only [waiting]
  cases s.timer.waitUnits s.params.timerWidth p n s.draws <;> simp [eq_comm]

/-- A write of one register, emitted: the shape of the four line micro-operations. -/
theorem drives_memWrite {s t : State} {a v : Nat} {e : Event} (ha : a < 2 ^ s.params.addrWidth)
    (hand : a = s.cfgRS.addr ∨ a = s.cfgEN.addr ∨ a = s.cfgPort)
    (hbit : ∀ k, k < s.params.portWidth → touches s a k e = false → v.testBit k = (s.memRead a).testBit k)
    (ht : t = ((s.memWrite a v).emit e)) : Drives s [e] t := by
  subst ht
  exact {
    params := rfl, cfgRS := rfl, cfgEN := rfl, cfgPort := rfl, cfgW8 := rfl, latch := rfl, fault := rfl, presented := rfl
    configured := rfl, clkSrc := rfl, trace := rfl
    wf := fun w => memWrite_wf w _ _
    fits := fun f => memWrite_fits f ha _
    timerFits := id
    bits := fun w b k hk hn => by
      show ((s.memWrite a v).memRead b).testBit k = _
      rw [memRead_memWrite w]
      split
      · rename_i h
        subst h
        rw [Nat.testBit_mod_two_pow, hbit k hk (hn e (by simp))]
        simp [hk]
      · rfl
    others := fun w b h1 h2 h3 => by
      show (s.memWrite a v).memRead b = _
      rw [memRead_memWrite w, if_neg]
      rintro rfl
      rcases hand with h | h | h
      · exact h1 h
      · exact h2 h
      · exact h3 h }

/-- A wait: the memory stays, the timer is the wait's. -/
theorem drives_waiting {s t : State} {p n : Nat} {e : Event} (h : waiting p n e s = .next t) : Drives s [e] t := by
  obtain ⟨u, hu, rfl⟩ := waiting_eq_next.mp h
  exact {
    params := rfl, cfgRS := rfl, cfgEN := rfl, cfgPort := rfl, cfgW8 := rfl, latch := rfl, fault := rfl, presented := rfl
    configured := Timer.waitUnits_configured hu, clkSrc := Timer.waitUnits_clkSrc hu, trace := rfl
    wf := id, fits := id
    timerFits := Timer.waitUnits_fits hu
    bits := fun _ _ _ _ _ => rfl
    others := fun _ _ _ _ _ => rfl }

theorem Drives.drew {s t : State} {es : List Event} (h : Drives s es t) (n : Nat) : Drives s es (t.drew n) :=
  ⟨h.params, h.cfgRS, h.cfgEN, h.cfgPort, h.cfgW8, h.latch, h.fault, h.presented, h.configured, h.clkSrc, h.trace, h.wf, h.fits,
    h.timerFits, h.bits, h.others⟩

/-- All that one primitive micro-operation can do. -/
theorem drive_drives {s t : State} {e : Event} (h : drive e s = .next t) : Drives s [e] t := by
  cases e with
  | setRS b =>
    obtain ⟨ha, ht⟩ := accessing_eq_next.mp h
    refine drives_memWrite ha (.inl rfl) (fun k _ hn => ?_) ht
    rw [testBit_withLine]
    simp_all [touches]
  | setE b =>
    obtain ⟨ha, ht⟩ := accessing_eq_next.mp h
    refine drives_memWrite ha (.inr (.inl rfl)) (fun k _ hn => ?_) ht
    rw [testBit_withLine]
    simp_all [touches]
  | bus8 v =>
    obtain ⟨ha, ht⟩ := accessing_eq_next.mp h
    have := drives_memWrite (e := .bus8 v) (v := withLowByte (s.drawBits (s.params.portWidth - 8)) v) ha
      (.inr (.inr rfl)) (fun k _ hn => by simp [touches] at hn) rfl
    exact ht ▸ this.drew 1
  | bus4 n =>
    obtain ⟨ha, ht⟩ := accessing_eq_next.mp h
    refine drives_memWrite ha (.inr (.inr rfl)) (fun k _ hn => ?_) ht
    rw [testBit_withLowNibble]
    simp_all [touches]
  | waitUs n => exact drives_waiting h
  | waitMs n => exact drives_waiting h

theorem drive_sequencer {s t : State} {e : Event} (h : drive e s = .next t) : SameSequencer s t := by
  cases e with
  | setRS b => obtain ⟨-, rfl⟩ := accessing_eq_next.mp h; exact ⟨rfl, rfl, rfl, rfl⟩
  | setE b => obtain ⟨-, rfl⟩ := accessing_eq_next.mp h; exact ⟨rfl, rfl, rfl, rfl⟩
  | bus8 v => obtain ⟨-, rfl⟩ := accessing_eq_next.mp h; exact ⟨rfl, rfl, rfl, rfl⟩
  | bus4 n => obtain ⟨-, rfl⟩ := accessing_eq_next.mp h; exact ⟨rfl, rfl, rfl, rfl⟩
  | waitUs n => obtain ⟨u, -, rfl⟩ := waiting_eq_next.mp h; exact ⟨rfl, rfl, rfl, rfl⟩
  | waitMs n => obtain ⟨u, -, rfl⟩ := waiting_eq_next.mp h; exact ⟨rfl, rfl, rfl, rfl⟩

/-- All that a list of primitive micro-operations can do. -/
theorem driveAll_drives {s t : State} {es : List Event} (h : driveAll es s = .next t) : Drives s es t := by
  induction es generalizing s with
  | nil => cases h; exact Drives.refl _
  | cons e es ih =>
    obtain ⟨u, hu, ht⟩ := andThen_eq_next.mp h
    exact (drive_drives hu).trans (ih ht)

theorem driveAll_sequencer {s t : State} {es : List Event} (h : driveAll es s = .next t) : SameSequencer s t := by
  induction es generalizing s with
  | nil => cases h; exact ⟨rfl, rfl, rfl, rfl⟩
  | cons e es ih =>
    obtain ⟨u, hu, ht⟩ := andThen_eq_next.mp h
    have a := drive_sequencer hu
    have b := ih ht
    exact ⟨b.fsm.trans a.fsm, b.busy.trans a.busy, b.prog.trans a.prog, b.upc.trans a.upc⟩

theorem driveAll_append (es fs : List Event) (s : State) :
    driveAll (es ++ fs) s = andThen (driveAll es s) (driveAll fs) := by
  induction es generalizing s with
  | nil => rfl
  | cons e es ih =>
    simp only [List.cons_append, driveAll, andThen_assoc]
    congr 1
    funext t
    exact ih t

/-- `s` with the command registers of `u`, which driving lines neither reads nor writes. -/
def State.asIn (s u : State) : State :=
  { s with fsm := u.fsm, busy := u.busy, prog := u.prog, upc := u.upc, latch := u.latch, presented := u.presented }

theorem accessing_asIn (s t u : State) (addr : Nat) :
    accessing (s.asIn u) addr (t.asIn u) = andThen (accessing s addr t) (fun t => .next (t.asIn u)) := by
  have hp : (s.asIn u).params = s.params := rfl
  unfold accessing
  rw [hp]
  split <;> rfl

theorem drive_asIn (e : Event) (s u : State) :
    drive e (s.asIn u) = andThen (drive e s) (fun t => .next (t.asIn u)) := by
  cases e with
  | setRS b => exact accessing_asIn s ((s.writeLine s.cfgRS b).emit (.setRS b)) u s.cfgRS.addr
  | setE b => exact accessing_asIn s ((s.writeLine s.cfgEN b).emit (.setE b)) u s.cfgEN.addr
  | bus8 v => exact accessing_asIn s ((s.writeBus8 v).emit (.bus8 v)) u s.cfgPort
  | bus4 n => exact accessing_asIn s ((s.writeBus4 n).emit (.bus4 n)) u s.cfgPort
  | waitUs n =>
    simp only [drive, waiting, State.asIn]
    cases s.timer.waitUnits s.params.timerWidth s.params.ticksPerUs n s.draws <;> rfl
  | waitMs n =>
    simp only [drive, waiting, State.asIn]
    cases s.timer.waitUnits s.params.timerWidth s.params.ticksPerMs n s.draws <;> rfl

/-- Driving lines does the same whatever the command registers hold (R220(d)). -/
theorem driveAll_asIn (es : List Event) (s u : State) :
    driveAll es (s.asIn u) = andThen (driveAll es s) (fun t => .next (t.asIn u)) := by
  induction es generalizing s with
  | nil => rfl
  | cons e es ih =>
    rw [driveAll, driveAll, drive_asIn, andThen_assoc, andThen_assoc]
    congr 1
    funext t
    exact ih t

/-- An engine that can drive its lines performs every primitive micro-operation. -/
theorem drive_ends {s : State} (h : s.CanDrive) (e : Event) : ∃ t, drive e s = .next t := by
  cases e with
  | setRS b => exact ⟨_, accessing_eq_next.mpr ⟨h.rsExists, rfl⟩⟩
  | setE b => exact ⟨_, accessing_eq_next.mpr ⟨h.enExists, rfl⟩⟩
  | bus8 v => exact ⟨_, accessing_eq_next.mpr ⟨h.portExists, rfl⟩⟩
  | bus4 n => exact ⟨_, accessing_eq_next.mpr ⟨h.portExists, rfl⟩⟩
  | waitUs n =>
    obtain ⟨hc, h2, hw⟩ := h.waitsUs
    obtain ⟨u, hu⟩ := Timer.waitUnits_ends n s.draws hc h2 hw
    exact ⟨_, waiting_eq_next.mpr ⟨u, hu, rfl⟩⟩
  | waitMs n =>
    obtain ⟨hc, h2, hw⟩ := h.waitsMs
    obtain ⟨u, hu⟩ := Timer.waitUnits_ends n s.draws hc h2 hw
    exact ⟨_, waiting_eq_next.mpr ⟨u, hu, rfl⟩⟩

/-- Being able to drive depends on the configuration and the timer's enable alone. -/
theorem State.CanDrive.congr {s t : State} (h : s.CanDrive) (hp : t.params = s.params) (h1 : t.cfgRS = s.cfgRS)
    (h2 : t.cfgEN = s.cfgEN) (h3 : t.cfgPort = s.cfgPort) (h4 : t.timer.configured = s.timer.configured) : t.CanDrive := by
  constructor
  · exact ⟨h4 ▸ h.waitsUs.1, hp ▸ h.waitsUs.2.1, hp ▸ h.waitsUs.2.2⟩
  · exact ⟨h4 ▸ h.waitsMs.1, hp ▸ h.waitsMs.2.1, hp ▸ h.waitsMs.2.2⟩
  · exact h1 ▸ hp ▸ h.rsExists
  · exact h2 ▸ hp ▸ h.enExists
  · exact h3 ▸ hp ▸ h.portExists

theorem Drives.canDrive {s t : State} {es : List Event} (h : Drives s es t) (c : s.CanDrive) : t.CanDrive :=
  c.congr h.params h.cfgRS h.cfgEN h.cfgPort h.configured

/-- An engine that can drive its lines performs every list of primitive micro-operations. -/
theorem driveAll_ends {s : State} (h : s.CanDrive) (es : List Event) : ∃ t, driveAll es s = .next t := by
  induction es generalizing s with
  | nil => exact ⟨s, rfl⟩
  | cons e es ih =>
    obtain ⟨u, hu⟩ := drive_ends h e
    obtain ⟨t, ht⟩ := ih ((drive_drives hu).canDrive h)
    exact ⟨t, andThen_eq_next.mpr ⟨u, hu, ht⟩⟩

end Sys2Proof.Machine
end

