-- ==== Sys2Proof/Laws/Run.lean ====
section
/-!
SUPPORT. What running a micro-program can do, said once: `Ran s ops t` (`runOps_ran`, `runOps_ends`), and the inversion of
command acceptance (`displayCommand_cases`).
-/

namespace Sys2Proof.Machine

/-- The micro-operations of INIT's step 1, which change the configuration or the timer's enable. -/
def MicroOp.isSetup : MicroOp → Bool
  | .timerInit => true
  | .storeConfig => true
  | .line _ => false
  | .enablePulse => false
  | .sendByte _ _ => false
  | .sendNibble _ _ => false
  | .setFsm _ => false

@[simp] theorem isSetup_line (e : Event) : (MicroOp.line e).isSetup = false := rfl
@[simp] theorem isSetup_enablePulse : MicroOp.enablePulse.isSetup = false := rfl
@[simp] theorem isSetup_sendByte (rs : Bool) (b : Byte) : (MicroOp.sendByte rs b).isSetup = false := rfl
@[simp] theorem isSetup_sendNibble (rs : Bool) (n : Nibble) : (MicroOp.sendNibble rs n).isSetup = false := rfl
@[simp] theorem isSetup_setFsm (f : Fsm) : (MicroOp.setFsm f).isSetup = false := rfl
@[simp] theorem isSetup_instrOp (b : Byte) : (instrOp b).isSetup = false := rfl
@[simp] theorem isSetup_dataOp (b : Byte) : (dataOp b).isSetup = false := rfl

section events
variable (p : Params) (w8 : Bool)
@[simp] theorem events_setRS (b : Bool) : (MicroOp.line (.setRS b)).events p w8 = [.setRS b] := rfl
@[simp] theorem events_waitUs (n : Nat) : (MicroOp.line (.waitUs n)).events p w8 = issueUs n := rfl
@[simp] theorem events_waitMs (n : Nat) : (MicroOp.line (.waitMs n)).events p w8 = issueMs n := rfl
@[simp] theorem events_sendByte (rs : Bool) (b : Byte) : (MicroOp.sendByte rs b).events p w8 = byteEvents p w8 rs b := rfl
@[simp] theorem events_sendNibble (rs : Bool) (n : Nibble) : (MicroOp.sendNibble rs n).events p w8 = nibbleEvents p rs n := rfl
@[simp] theorem events_instrOp (b : Byte) : (instrOp b).events p w8 = byteEvents p w8 false b := rfl
@[simp] theorem events_dataOp (b : Byte) : (dataOp b).events p w8 = byteEvents p w8 true b := rfl
@[simp] theorem events_setFsm (f : Fsm) : (MicroOp.setFsm f).events p w8 = [] := rfl
@[simp] theorem events_timerInit : MicroOp.timerInit.events p w8 = [] := rfl
@[simp] theorem events_storeConfig : MicroOp.storeConfig.events p w8 = [] := rfl
end events

/-- The FSM state after a micro-operation in state `f`. -/
def MicroOp.fsmAfter (f : Fsm) : MicroOp → Fsm
  | .setFsm g => g
  | .line _ => f
  | .enablePulse => f
  | .sendByte _ _ => f
  | .sendNibble _ _ => f
  | .timerInit => f
  | .storeConfig => f

/-- The FSM state after a micro-program. -/
def fsmAfterAll (f : Fsm) (ops : List MicroOp) : Fsm := ops.foldl MicroOp.fsmAfter f

theorem Drives.of_sequencer {s s' t t' : State} {es : List Event} (h : Drives s es t)
    (hs : ∀ f b p u, { s with fsm := f, busy := b, prog := p, upc := u } = { s' with fsm := f, busy := b, prog := p, upc := u })
    (ht : ∀ f b p u, { t with fsm := f, busy := b, prog := p, upc := u } = { t' with fsm := f, busy := b, prog := p, upc := u }) :
    Drives s' es t' := by
  have hs := hs s'.fsm s'.busy s'.prog s'.upc
  have ht := ht t'.fsm t'.busy t'.prog t'.upc
  rw [← show { s with fsm := s'.fsm, busy := s'.busy, prog := s'.prog, upc := s'.upc } = s' from hs,
    ← show { t with fsm := t'.fsm, busy := t'.busy, prog := t'.prog, upc := t'.upc } = t' from ht]
  exact ⟨h.params, h.cfgRS, h.cfgEN, h.cfgPort, h.cfgW8, h.latch, h.fault, h.presented, h.configured, h.clkSrc, h.trace, h.wf,
    h.fits, h.timerFits, h.bits, h.others⟩

/-- All that a micro-operation other than INIT's setup can do. -/
theorem perform_drives {s t : State} {op : MicroOp} (hop : op.isSetup = false) (h : perform op s = .next t) :
    Drives s (op.events s.params s.cfgW8) t ∧ t.busy = s.busy ∧ t.prog = s.prog ∧ t.upc = s.upc ∧
      t.fsm = op.fsmAfter s.fsm := by
  have key : ∀ (es : List Event) (u : State), driveAll es s = .next u →
      Drives s es u ∧ u.busy = s.busy ∧ u.prog = s.prog ∧ u.upc = s.upc ∧ u.fsm = s.fsm := fun es u hu =>
    have q := driveAll_sequencer hu
    ⟨driveAll_drives hu, q.busy, q.prog, q.upc, q.fsm⟩
  cases op with
  | timerInit => simp [MicroOp.isSetup] at hop
  | storeConfig => simp [MicroOp.isSetup] at hop
  | setFsm f =>
    cases h
    refine ⟨(Drives.refl s).of_sequencer (fun _ _ _ _ => rfl) (fun _ _ _ _ => rfl), rfl, rfl, rfl, rfl⟩
  | line e => exact key _ _ h
  | enablePulse => exact key _ _ h
  | sendByte rs b => exact key _ _ h
  | sendNibble rs n => exact key _ _ h

/-- An engine that can drive its lines performs every micro-operation other than INIT's setup. -/
theorem perform_ends {s : State} (c : s.CanDrive) {op : MicroOp} (hop : op.isSetup = false) :
    ∃ t, perform op s = .next t := by
  cases op with
  | timerInit => simp [MicroOp.isSetup] at hop
  | storeConfig => simp [MicroOp.isSetup] at hop
  | setFsm f => exact ⟨_, rfl⟩
  | line e => exact driveAll_ends c _
  | enablePulse => exact driveAll_ends c _
  | sendByte rs b => exact driveAll_ends c _
  | sendNibble rs n => exact driveAll_ends c _

/-- What holds after running the micro-program `ops` from `s` to `t`. -/
structure Ran (s : State) (ops : List MicroOp) (t : State) : Prop where
  drives : Drives s (programEvents s.params s.cfgW8 ops) t
  busy : t.busy = false
  prog : t.prog = s.prog
  upc : t.upc = s.upc + ops.length
  fsm : t.fsm = fsmAfterAll s.fsm ops

/-- All that a run of a micro-program without INIT's setup can do. -/
theorem runOps_ran {s t : State} {ops : List MicroOp} (hops : ∀ op ∈ ops, op.isSetup = false) (h : runOps ops s = .next t) :
    Ran s ops t := by
  induction ops generalizing s with
  | nil =>
    cases h
    exact ⟨(Drives.refl s).of_sequencer (fun _ _ _ _ => rfl) (fun _ _ _ _ => rfl), rfl, rfl, rfl, rfl⟩
  | cons op ops ih =>
    obtain ⟨u, hu, ht⟩ := andThen_eq_next.mp h
    obtain ⟨hd, hb, hp, hc, hf⟩ := perform_drives (hops op (by simp)) hu
    have r := ih (fun o ho => hops o (by simp [ho])) ht
    have ru : Drives u (programEvents u.params u.cfgW8 ops) t :=
      r.drives.of_sequencer (fun _ _ _ _ => rfl) (fun _ _ _ _ => rfl)
    rw [hd.params, hd.cfgW8] at ru
    refine ⟨hd.trans ru, r.busy, r.prog.trans hp, ?_, ?_⟩
    · rw [r.upc, advance_upc, hc, List.length_cons]; omega
    · rw [r.fsm, advance_fsm, hf]; rfl

/-- An engine that can drive its lines runs every micro-program without INIT's setup. -/
theorem runOps_ends {s : State} (c : s.CanDrive) {ops : List MicroOp} (hops : ∀ op ∈ ops, op.isSetup = false) :
    ∃ t, runOps ops s = .next t := by
  induction ops generalizing s with
  | nil => exact ⟨_, rfl⟩
  | cons op ops ih =>
    obtain ⟨u, hu⟩ := perform_ends c (hops op (by simp))
    have cu := (perform_drives (hops op (by simp)) hu).1.canDrive c
    obtain ⟨t, ht⟩ := ih (s := u.advance) (cu.congr rfl rfl rfl rfl rfl) fun o ho => hops o (by simp [ho])
    exact ⟨t, andThen_eq_next.mpr ⟨u, hu, ht⟩⟩

/-! ### The micro-programs of the display commands hold transfers alone -/


/-- A micro-program of byte transfers. -/
def onlyTransfers (ops : List MicroOp) : Prop := ∀ op ∈ ops, ∃ rs b, op = .sendByte rs b

theorem onlyTransfers.noSetup {ops : List MicroOp} (h : onlyTransfers ops) : ∀ op ∈ ops, op.isSetup = false := by
  intro op hop
  obtain ⟨rs, b, rfl⟩ := h op hop
  rfl

theorem onlyTransfers.fsm {ops : List MicroOp} (h : onlyTransfers ops) (f : Fsm) : fsmAfterAll f ops = f := by
  induction ops with
  | nil => rfl
  | cons op ops ih =>
    obtain ⟨rs, b, rfl⟩ := h op (by simp)
    exact ih fun o ho => h o (by simp [ho])

theorem onlyTransfers_nil : onlyTransfers [] := by simp [onlyTransfers]

theorem onlyTransfers_instr (b : Byte) {ops : List MicroOp} (h : onlyTransfers ops) : onlyTransfers (instrOp b :: ops) := by
  intro op hop
  rcases List.mem_cons.mp hop with rfl | hop
  · exact ⟨false, b, rfl⟩
  · exact h op hop

theorem onlyTransfers_data (bs : List Byte) : onlyTransfers (bs.map dataOp) := by
  intro op hop
  obtain ⟨b, -, rfl⟩ := List.mem_map.mp hop
  exact ⟨true, b, rfl⟩

theorem onlyTransfers_append {ops qs : List MicroOp} (h : onlyTransfers ops) (g : onlyTransfers qs) :
    onlyTransfers (ops ++ qs) := by
  intro op hop
  rcases List.mem_append.mp hop with hop | hop
  · exact h op hop
  · exact g op hop

theorem programSetcur_transfers (p : Params) (c : Command) : onlyTransfers (programSetcur p c) := by
  unfold programSetcur; split
  · exact onlyTransfers_instr _ onlyTransfers_nil
  · exact onlyTransfers_nil

theorem programPutc_transfers (p : Params) (c : Command) : onlyTransfers (programPutc p c) := onlyTransfers_data [c.arg0]
theorem programPrint_transfers (p : Params) (c : Command) : onlyTransfers (programPrint p c) := onlyTransfers_data _
theorem programScrl_transfers (p : Params) (c : Command) : onlyTransfers (programScrl p c) :=
  onlyTransfers_instr _ onlyTransfers_nil
theorem programScrr_transfers (p : Params) (c : Command) : onlyTransfers (programScrr p c) :=
  onlyTransfers_instr _ onlyTransfers_nil
theorem programCuron_transfers (p : Params) (c : Command) : onlyTransfers (programCuron p c) :=
  onlyTransfers_instr _ onlyTransfers_nil
theorem programCuroff_transfers (p : Params) (c : Command) : onlyTransfers (programCuroff p c) :=
  onlyTransfers_instr _ onlyTransfers_nil

theorem programGlyph_transfers (p : Params) (c : Command) : onlyTransfers (programGlyph p c) := by
  unfold programGlyph; split
  · exact onlyTransfers_instr _ (onlyTransfers_append (onlyTransfers_data _) (onlyTransfers_data [0x00#8]))
  · exact onlyTransfers_nil

theorem programClear_transfers (p : Params) (c : Command) : onlyTransfers (programClear p c) :=
  onlyTransfers_instr _ (onlyTransfers_instr _ onlyTransfers_nil)
theorem programHome_transfers (p : Params) (c : Command) : onlyTransfers (programHome p c) :=
  onlyTransfers_instr _ onlyTransfers_nil

/-! ### Acceptance -/

/-- A check that lets an idle engine go on: what a next state means (R192). -/
theorem whenIdle_eq_next {s t : State} {o : Result} :
    whenIdle s o = .next t ↔ s.fault = none ∧ s.busy = false ∧ o = .next t := by
  unfold whenIdle
  cases s.fault <;> cases s.busy <;> simp

theorem whenIdle_of_idle {s : State} {o : Result} (hf : s.fault = none) (hb : s.busy = false) : whenIdle s o = o := by
  simp [whenIdle, hf, hb]

/-- All that a display command can do. -/
theorem displayCommand_cases {c : Command} {program : Params → Command → List MicroOp} {s t : State}
    (h : displayCommand c program s = .next t) :
    s.fault = none ∧ s.busy = false ∧
      ((s.fsm ≠ .ready ∧ t = s.raise (.notInitialized c.op)) ∨
        (s.fsm = .ready ∧ runOps (program s.params c) (s.accept c program) = .next t)) := by
  obtain ⟨hf, hb, h⟩ := whenIdle_eq_next.mp h
  refine ⟨hf, hb, ?_⟩
  split at h
  · exact .inr ⟨‹_›, h⟩
  · cases h; exact .inl ⟨‹_›, rfl⟩

/-- What holds after an accepted display command with the micro-program `ops`. -/
structure Displayed (s : State) (c : Command) (ops : List MicroOp) (t : State) : Prop where
  drives : Drives { s with latch := c } (programEvents s.params s.cfgW8 ops) t
  busy : t.busy = false
  prog : t.prog = ops
  upc : t.upc = ops.length
  fsm : t.fsm = s.fsm

theorem runAccepted_displayed {c : Command} {program : Params → Command → List MicroOp} {s t : State}
    (hp : onlyTransfers (program s.params c)) (h : runOps (program s.params c) (s.accept c program) = .next t) :
    Displayed s c (program s.params c) t := by
  have r := runOps_ran hp.noSetup h
  refine ⟨r.drives.of_sequencer (fun _ _ _ _ => rfl) (fun _ _ _ _ => rfl), r.busy, r.prog, ?_, ?_⟩
  · rw [r.upc]; exact Nat.zero_add _
  · rw [r.fsm, hp.fsm]; rfl

/-- An engine that accepts a display command runs it to its end. -/
theorem displayCommand_ends {c : Command} {program : Params → Command → List MicroOp} {s : State} (a : s.AcceptsDisplay)
    (hp : onlyTransfers (program s.params c)) :
    ∃ t, displayCommand c program s = .next t ∧ Displayed s c (program s.params c) t := by
  obtain ⟨t, ht⟩ := runOps_ends (s := s.accept c program) (a.drives.congr rfl rfl rfl rfl rfl) hp.noSetup
  refine ⟨t, ?_, runAccepted_displayed hp ht⟩
  rw [displayCommand, whenIdle_of_idle a.noFault a.idle, if_pos a.ready]
  exact ht

/-! ### INIT -/

/-- INIT's micro-program after step 1. -/
def initRest (p : Params) (w8 : Bool) : List MicroOp :=
  initPowerOn p ++ initWakeUp p w8 ++ initSwitch w8 ++ initFunctionSet w8 ++ initDisplay ++ initHome

/-- The state after INIT's step 1 (R195), the sequencer's registers apart. -/
def initConfigured (s : State) (c : Command) : State :=
  { s with
    latch := c, timer := s.timer.init s.params.timerWidth
    cfgRS := c.initRs, cfgEN := c.initEn, cfgPort := c.initPort, cfgW8 := c.initW8 }

theorem programInit_eq (p : Params) (c : Command) :
    programInit p c = .timerInit :: .storeConfig :: initRest p c.initW8 := by
  simp [programInit, initRest, initConfigure]

theorem initRest_noSetup (p : Params) (w8 : Bool) : ∀ op ∈ initRest p w8, op.isSetup = false := by
  have h1 : ∀ n, ∀ op ∈ waitUsOps n, op.isSetup = false := by
    intro n op h; unfold waitUsOps at h; split at h <;> simp at h; subst h; rfl
  have h2 : ∀ n, ∀ op ∈ waitMsOps n, op.isSetup = false := by
    intro n op h; unfold waitMsOps at h; split at h <;> simp at h; subst h; rfl
  have h3 : (wakeUpOp w8).isSetup = false := by cases w8 <;> rfl
  have h4 : ∀ op ∈ initSwitch w8, op.isSetup = false := by cases w8 <;> simp [initSwitch, MicroOp.isSetup]
  simp only [initRest, initPowerOn, initWakeUp, initFunctionSet, initDisplay, initHome, List.forall_mem_append,
    List.forall_mem_cons, h3]
  simp only [isSetup_line, isSetup_setFsm, isSetup_instrOp, List.not_mem_nil, true_and, and_true, false_implies, implies_true]
  exact ⟨⟨h2 _, ⟨h1 _, h1 _⟩, h1 _⟩, h4⟩

theorem fsmAfterAll_append (f : Fsm) (ops qs : List MicroOp) :
    fsmAfterAll f (ops ++ qs) = fsmAfterAll (fsmAfterAll f ops) qs := List.foldl_append

/-- INIT's program leaves the FSM in Ready (R201). -/
theorem initRest_fsm (p : Params) (w8 : Bool) (f : Fsm) : fsmAfterAll f (initRest p w8) = .ready := by
  simp [initRest, fsmAfterAll_append, initHome]; rfl

/-- What holds after an accepted INIT. -/
structure Initialised (s : State) (c : Command) (t : State) : Prop where
  drives : Drives (initConfigured s c) (programEvents s.params c.initW8 (initRest s.params c.initW8)) t
  busy : t.busy = false
  prog : t.prog = programInit s.params c
  upc : t.upc = (programInit s.params c).length
  fsm : t.fsm = .ready

theorem runInit_eq (s : State) (c : Command) :
    runOps (programInit s.params c) (s.accept c programInit) =
      runOps (initRest s.params c.initW8)
        { initConfigured s c with fsm := s.fsm, busy := true, prog := programInit s.params c, upc := 2 } := by
  rw [programInit_eq]
  rfl

theorem runInit_initialised {c : Command} {s t : State}
    (h : runOps (programInit s.params c) (s.accept c programInit) = .next t) : Initialised s c t := by
  rw [runInit_eq] at h
  have r := runOps_ran (initRest_noSetup _ _) h
  refine ⟨r.drives.of_sequencer (fun _ _ _ _ => rfl) (fun _ _ _ _ => rfl), r.busy, r.prog, ?_, ?_⟩
  · rw [r.upc, programInit_eq]; simp only [List.length_cons]; omega
  · rw [r.fsm, initRest_fsm]

/-- All that INIT can do (R192 to R194, R303). -/
theorem execInit_cases {rs en : PinRef} {port : Nat} {w8 : Bool} {s t : State} (h : execInit rs en port w8 s = .next t) :
    s.fault = none ∧ s.busy = false ∧
      ((initAdmissible s.params rs en port w8 = false ∧ t = s.raise (.configInvalid rs en port w8)) ∨
        (initAdmissible s.params rs en port w8 = true ∧ s.fsm ≠ .uninitialized ∧ t = s.raise (.alreadyInitialized 0)) ∨
        (initAdmissible s.params rs en port w8 = true ∧ s.fsm = .uninitialized ∧ s.pinHigh en = false ∧
          Initialised s (Instr.onPort s.commandPort (.init rs en port w8)) t)) := by
  obtain ⟨hf, hb, h⟩ := whenIdle_eq_next.mp h
  refine ⟨hf, hb, ?_⟩
  split at h
  · rename_i ha
    split at h
    · split at h
      · cases h
      · exact .inr (.inr ⟨ha, ‹_›, by simpa using ‹¬ s.pinHigh en = true›, runInit_initialised h⟩)
    · cases h; exact .inr (.inl ⟨ha, ‹_›, rfl⟩)
  · rename_i ha
    cases h; exact .inl ⟨by simpa using ha, rfl⟩

/-- The configuration INIT stores lets the engine drive its lines. -/
theorem initConfigured_canDrive {s : State} {c : Command} (ha : paramsOk s.params = true)
    (h1 : c.initRs.addr < 2 ^ s.params.addrWidth) (h2 : c.initEn.addr < 2 ^ s.params.addrWidth)
    (h3 : c.initPort < 2 ^ s.params.addrWidth) : (initConfigured s c).CanDrive := by
  simp only [paramsOk, timerOk, Bool.and_eq_true, decide_eq_true_eq] at ha
  obtain ⟨⟨⟨⟨⟨⟨⟨u2, uw⟩, m2⟩, mw⟩, -⟩, -⟩, -⟩, -⟩ := ha
  exact ⟨⟨rfl, u2, uw⟩, ⟨rfl, m2, mw⟩, h1, h2, h3⟩

/-- An INIT that acceptance lets through runs to its end (R202). -/
theorem execInit_ends {rs en : PinRef} {port : Nat} {w8 : Bool} {s : State} (hf : s.fault = none) (hb : s.busy = false)
    (hu : s.fsm = .uninitialized) (ha : initAdmissible s.params rs en port w8 = true)
    (hw : (Instr.init rs en port w8).wf s.params = true) (hE : s.pinHigh en = false) :
    ∃ t, execInit rs en port w8 s = .next t ∧ Initialised s (Instr.onPort s.commandPort (.init rs en port w8)) t := by
  simp only [Instr.wf, Params.hasAddr, Bool.and_eq_true, decide_eq_true_eq] at hw
  have hp : paramsOk s.params = true := by
    simp only [initAdmissible, Bool.and_eq_true] at ha; exact ha.2
  have c := initConfigured_canDrive (s := s) (c := Instr.onPort s.commandPort (.init rs en port w8)) hp hw.1.1 hw.1.2 hw.2
  obtain ⟨t, ht⟩ := runOps_ends
    (s := { initConfigured s (Instr.onPort s.commandPort (.init rs en port w8)) with
            fsm := s.fsm, busy := true
            prog := programInit s.params (Instr.onPort s.commandPort (.init rs en port w8)), upc := 2 })
    (c.congr rfl rfl rfl rfl rfl) (initRest_noSetup s.params w8)
  have ht' := (runInit_eq s (Instr.onPort s.commandPort (.init rs en port w8))).trans ht
  refine ⟨t, ?_, runInit_initialised ht'⟩
  rw [execInit, whenIdle_of_idle hf hb, if_pos ha, if_pos hu, if_neg (by simp [hE])]
  exact ht'

end Sys2Proof.Machine
end

