-- ==== Sys2Proof/Laws/Trace.lean ====
section
/-!
SUPPORT. The strobing properties of traces (R153) compose: a `Segment` is what every transfer and every wait of a micro-program is,
and a strobed trace that has settled stays one when a segment is added (`strobed_append`).
-/

namespace Sys2Proof.Machine

/-- A part of a trace that may stand between other such parts without disturbing R153(a) to (e). -/
structure Segment (p : Params) (w8 : Bool) (es : List Event) : Prop where
  alternates : ∀ fs, alternates true (es ++ fs) = alternates true fs
  pulses : ∀ fs, pulsesExact p (es ++ fs) = pulsesExact p fs
  held : ∀ fs, linesHeld p .free (es ++ fs) = linesHeld p .free fs
  setup : ∀ fs, (∀ a b, setupKept p a b fs = true) → ∀ a b, setupKept p a b (es ++ fs) = true
  width : ∀ fs, widthKept w8 (es ++ fs) = widthKept w8 fs
  settled : phaseAfter p .free es = .free

theorem Segment.nil (p : Params) (w8 : Bool) : Segment p w8 [] :=
  ⟨fun _ => rfl, fun _ => rfl, fun _ => rfl, fun _ h => h, fun _ => rfl, rfl⟩

theorem phaseAfter_append (p : Params) (ph : PulsePhase) (es fs : List Event) :
    phaseAfter p ph (es ++ fs) = phaseAfter p (phaseAfter p ph es) fs := List.foldl_append

theorem Segment.append {p : Params} {w8 : Bool} {es fs : List Event} (h : Segment p w8 es) (g : Segment p w8 fs) :
    Segment p w8 (es ++ fs) where
  alternates := fun gs => by rw [List.append_assoc, h.alternates, g.alternates]
  pulses := fun gs => by rw [List.append_assoc, h.pulses, g.pulses]
  held := fun gs => by rw [List.append_assoc, h.held, g.held]
  setup := fun gs hg a b => by rw [List.append_assoc]; exact h.setup _ (g.setup gs hg) a b
  width := fun gs => by rw [List.append_assoc, h.width, g.width]
  settled := by rw [phaseAfter_append, h.settled, g.settled]

/-- Segments one after another are a segment. -/
theorem Segment.flatMap {p : Params} {w8 : Bool} {ops : List MicroOp}
    (h : ∀ op ∈ ops, Segment p w8 (op.events p w8)) : Segment p w8 (programEvents p w8 ops) := by
  induction ops with
  | nil => exact Segment.nil p w8
  | cons op ops ih =>
    exact (h op (by simp)).append (ih fun o ho => h o (by simp [ho]))

theorem Segment.waitUs (p : Params) (w8 : Bool) (n : Nat) : Segment p w8 [.waitUs n] :=
  ⟨fun _ => rfl, fun _ => rfl, fun _ => rfl, fun _ h _ _ => h _ _, fun _ => rfl, rfl⟩

theorem Segment.waitMs (p : Params) (w8 : Bool) (n : Nat) : Segment p w8 [.waitMs n] :=
  ⟨fun _ => rfl, fun _ => rfl, fun _ => rfl, fun _ h _ _ => h _ _, fun _ => rfl, rfl⟩

theorem Segment.setRS (p : Params) (w8 b : Bool) : Segment p w8 [.setRS b] :=
  ⟨fun _ => rfl, fun _ => rfl, fun _ => rfl, fun _ h _ _ => h _ _, fun _ => rfl, rfl⟩

theorem Segment.issueUs (p : Params) (w8 : Bool) (n : Nat) : Segment p w8 (issueUs n) := by
  unfold Machine.issueUs; split
  · exact Segment.nil p w8
  · exact Segment.waitUs p w8 n

theorem Segment.issueMs (p : Params) (w8 : Bool) (n : Nat) : Segment p w8 (issueMs n) := by
  unfold Machine.issueMs; split
  · exact Segment.nil p w8
  · exact Segment.waitMs p w8 n

/-- The three waits of a pulse are issued under the minima of R12. -/
structure PulseWaits (p : Params) : Prop where
  setup : p.tSetupUs ≠ 0
  pulse : p.tPulseUs ≠ 0
  settle : p.tSettleUs ≠ 0

theorem PulseWaits.of_paramsOk {p : Params} (h : paramsOk p = true) : PulseWaits p := by
  simp only [paramsOk, timingOk, Bool.and_eq_true, decide_eq_true_eq] at h
  obtain ⟨⟨-, ⟨⟨⟨-, h1⟩, h2⟩, h3⟩, -⟩, -⟩ := h
  exact ⟨by omega, by omega, by omega⟩

/-- ENABLE_PULSE's five events (R144). -/
theorem pulseEvents_eq {p : Params} (h : PulseWaits p) :
    pulseEvents p = [.waitUs p.tSetupUs, .setE true, .waitUs p.tPulseUs, .setE false, .waitUs p.tSettleUs] := by
  simp [pulseEvents, Machine.issueUs, h.setup, h.pulse, h.settle]

/-- A data write and its pulse. -/
theorem Segment.latch {p : Params} (h : PulseWaits p) {w8 : Bool} {e : Event} (he : e.writesData = true)
    (hw : ∀ fs, widthKept w8 (e :: fs) = widthKept w8 fs) : Segment p w8 (e :: pulseEvents p) := by
  rw [pulseEvents_eq h]
  cases e <;> simp only [Event.writesData, Bool.false_eq_true] at he
  all_goals
    refine ⟨fun _ => rfl, fun fs => ?_, fun fs => ?_, fun fs hf a b => ?_, fun fs => ?_, ?_⟩
    · simp [pulsesExact]
    · simp [linesHeld, Event.movesLine, PulsePhase.after]
    · simp [setupKept, Event.writesData, hf]
    · simp only [List.cons_append]; rw [hw]; simp [widthKept]
    · simp [phaseAfter, PulsePhase.after]

/-- A byte transfer (R146). -/
theorem Segment.byte {p : Params} (h : PulseWaits p) (w8 rs : Bool) (b : Byte) : Segment p w8 (byteEvents p w8 rs b) := by
  unfold byteEvents
  refine ((Segment.setRS p w8 rs).append ?_).append ?_
  · cases w8
    · rw [if_neg (by simp)]
      have := (Segment.latch h (w8 := false) (e := .bus4 (hiNibble b)) rfl (fun _ => rfl)).append
        (Segment.latch h (w8 := false) (e := .bus4 (loNibble b)) rfl (fun _ => rfl))
      simpa using this
    · rw [if_pos rfl]
      exact Segment.latch h rfl (fun _ => rfl)
  · split
    · exact Segment.issueMs p w8 _
    · exact Segment.nil p w8

/-- A stand-alone nibble transfer on the 4-bit interface (R148). -/
theorem Segment.nibble {p : Params} (h : PulseWaits p) (rs : Bool) (n : Nibble) : Segment p false (nibbleEvents p rs n) :=
  (Segment.setRS p false rs).append (Segment.latch h (e := .bus4 n) rfl (fun _ => rfl))

/-- Programs of byte transfers are segments. -/
theorem Segment.transfers {p : Params} (h : PulseWaits p) {w8 : Bool} {ops : List MicroOp} (ho : onlyTransfers ops) :
    Segment p w8 (programEvents p w8 ops) := by
  refine Segment.flatMap fun op hop => ?_
  obtain ⟨rs, b, rfl⟩ := ho op hop
  exact Segment.byte h w8 rs b

theorem Segment.waitUsOps (p : Params) (w8 : Bool) (n : Nat) : Segment p w8 (programEvents p w8 (waitUsOps n)) := by
  unfold Machine.waitUsOps; split
  · exact Segment.nil p w8
  · simpa [programEvents] using Segment.issueUs p w8 n

theorem Segment.waitMsOps (p : Params) (w8 : Bool) (n : Nat) : Segment p w8 (programEvents p w8 (waitMsOps n)) := by
  unfold Machine.waitMsOps; split
  · exact Segment.nil p w8
  · simpa [programEvents] using Segment.issueMs p w8 n

theorem programEvents_append (p : Params) (w8 : Bool) (ops qs : List MicroOp) :
    programEvents p w8 (ops ++ qs) = programEvents p w8 ops ++ programEvents p w8 qs := List.flatMap_append

theorem programEvents_cons (p : Params) (w8 : Bool) (op : MicroOp) (ops : List MicroOp) :
    programEvents p w8 (op :: ops) = op.events p w8 ++ programEvents p w8 ops := rfl

@[simp] theorem programEvents_nil (p : Params) (w8 : Bool) : programEvents p w8 [] = [] := rfl

/-- INIT's micro-program after step 1 is a segment on the width it is built for. -/
theorem Segment.initRest {p : Params} (h : PulseWaits p) (w8 : Bool) :
    Segment p w8 (programEvents p w8 (initRest p w8)) := by
  have hw : Segment p w8 ((wakeUpOp w8).events p w8) := by
    cases w8
    · exact Segment.nibble h _ _
    · exact Segment.byte h _ _ _
  have hi : ∀ b, Segment p w8 ((instrOp b).events p w8) := fun b => Segment.byte h w8 false b
  have hf : ∀ f, Segment p w8 ((MicroOp.setFsm f).events p w8) := fun _ => Segment.nil p w8
  have hs : Segment p w8 (programEvents p w8 (initSwitch w8)) := by
    cases w8
    · simpa [initSwitch, programEvents] using Segment.nibble h false nibbleSwitch4
    · exact Segment.nil p true
  have hr : Segment p w8 ((MicroOp.line (.setRS false)).events p w8) := Segment.setRS p w8 false
  simp only [Machine.initRest, initPowerOn, initWakeUp, initFunctionSet, initDisplay, initHome, programEvents_append,
    programEvents_cons, programEvents_nil, List.append_nil]
  have h1 := Segment.waitUsOps p w8
  have h2 := Segment.waitMsOps p w8
  exact ((((((hr.append (h2 _)).append (hf _)).append
    (((hw.append (h1 _)).append (hw.append (h1 _))).append (hw.append (h1 _)))).append hs).append
    ((hi _).append (hf _))).append ((hi _).append ((hi _).append ((hi _).append (hi _))))).append ((hi _).append (hf _))

/-! ### Adding a segment to a trace -/

theorem pulsesExact_append {p : Params} {es fs : List Event} (h : pulsesExact p es = true) :
    pulsesExact p (es ++ fs) = pulsesExact p fs := by
  induction es with
  | nil => rfl
  | cons e es ih =>
    cases e with
    | setE b =>
      cases b with
      | true =>
        simp only [pulsesExact, Bool.and_eq_true, beq_iff_eq] at h
        simp only [List.cons_append, pulsesExact, ih h.2]
        match es, h.1 with
        | a :: b :: es, h1 => simp at h1; simp [h1]
      | false => exact ih h
    | setRS b => exact ih h
    | bus8 v => exact ih h
    | bus4 n => exact ih h
    | waitUs n => exact ih h
    | waitMs n => exact ih h

theorem alternates_append {p : Params} {es fs : List Event} {b : Bool} {ph : PulsePhase} (hb : b = !(ph == .high))
    (h : alternates b es = true) (hp : phaseAfter p ph es = .free) : alternates b (es ++ fs) = alternates true fs := by
  induction es generalizing b ph with
  | nil =>
    have : ph = .free := hp
    subst this; subst hb; rfl
  | cons e es ih =>
    cases e with
    | setE x =>
      simp only [alternates, Bool.and_eq_true, beq_iff_eq] at h
      obtain ⟨rfl, h⟩ := h
      simp only [List.cons_append, alternates, beq_self_eq_true, Bool.true_and]
      refine ih (ph := ph.after p (.setE x)) ?_ h hp
      cases x <;> rfl
    | waitUs n =>
      refine ih (ph := ph.after p (.waitUs n)) ?_ h hp
      rw [hb]; simp only [PulsePhase.after]; split
      · rename_i hc; rw [hc.1]; rfl
      · rfl
    | setRS x => exact ih (ph := ph) hb h hp
    | bus8 x => exact ih (ph := ph) hb h hp
    | bus4 x => exact ih (ph := ph) hb h hp
    | waitMs x => exact ih (ph := ph) hb h hp

theorem linesHeld_append (p : Params) (ph : PulsePhase) (es fs : List Event) :
    linesHeld p ph (es ++ fs) = (linesHeld p ph es && linesHeld p (phaseAfter p ph es) fs) := by
  induction es generalizing ph with
  | nil => simp [linesHeld, phaseAfter]
  | cons e es ih => simp [linesHeld, ih, Bool.and_assoc, phaseAfter]

theorem widthKept_append (w8 : Bool) (es fs : List Event) :
    widthKept w8 (es ++ fs) = (widthKept w8 es && widthKept w8 fs) := by
  induction es with
  | nil => rfl
  | cons e es ih => cases e <;> simp [widthKept, ih, Bool.and_assoc]

theorem setupKept_append {p : Params} {a b : Option Event} {es fs : List Event} (h : setupKept p a b es = true)
    (hf : ∀ a b, setupKept p a b fs = true) : setupKept p a b (es ++ fs) = true := by
  induction es generalizing a b with
  | nil => exact hf a b
  | cons e es ih =>
    simp only [setupKept, Bool.and_eq_true] at h
    simp only [List.cons_append, setupKept, Bool.and_eq_true]
    exact ⟨h.1, ih h.2⟩

/-- A strobed trace that has settled stays strobed when a segment is added. -/
theorem strobed_append {p : Params} {w8 : Bool} {es fs : List Event} (h : strobed p w8 es = true)
    (hs : phaseAfter p .free es = .free) (g : Segment p w8 fs) :
    strobed p w8 (es ++ fs) = true ∧ phaseAfter p .free (es ++ fs) = .free := by
  simp only [strobed, Bool.and_eq_true] at h ⊢
  obtain ⟨⟨⟨⟨h1, h2⟩, h3⟩, h4⟩, h5⟩ := h
  refine ⟨⟨⟨⟨⟨?_, ?_⟩, ?_⟩, ?_⟩, ?_⟩, ?_⟩
  · rw [alternates_append (p := p) (b := true) (ph := .free) rfl h1 hs]
    simpa [alternates] using g.alternates []
  · rw [pulsesExact_append h2]
    simpa [pulsesExact] using g.pulses []
  · rw [linesHeld_append, h3, hs]
    simpa [linesHeld] using g.held []
  · refine setupKept_append h4 fun a b => ?_
    simpa using g.setup [] (fun _ _ => rfl) a b
  · rw [widthKept_append, h5]
    simpa [widthKept] using g.width []
  · rw [phaseAfter_append, hs, g.settled]

end Sys2Proof.Machine
end

