-- ==== Sys2Proof/Laws/Lines.lean ====
section
/-!
SUPPORT. The RS and Enable lines: in an admissible configuration (R193) each is written by its own event alone, so its level after
a run is the last value written to it.
-/

namespace Sys2Proof.Machine

theorem lastE_append (b : Bool) (es fs : List Event) : lastE b (es ++ fs) = lastE (lastE b es) fs := List.foldl_append
theorem lastRS_append (b : Bool) (es fs : List Event) : lastRS b (es ++ fs) = lastRS (lastRS b es) fs := List.foldl_append

theorem and_two_pow_ne_zero (v k : Nat) : (v &&& 2 ^ k != 0) = v.testBit k := by
  rw [Nat.and_two_pow]
  cases v.testBit k <;> simp

/-- R193(a) says what it says: exactly one bit set within PORT_WIDTH bits. -/
theorem isOneBit_iff {p : Params} {mask : Nat} : isOneBit p mask = true ↔ ∃ k, k < p.portWidth ∧ mask = 2 ^ k := by
  simp [isOneBit, List.any_eq_true]

/-- The lines of an admissible configuration do not meet: the parts of R193(a) to (c). -/
structure LinesApart (s : State) (kr ke : Nat) : Prop where
  rsMask : s.cfgRS.mask = 2 ^ kr
  enMask : s.cfgEN.mask = 2 ^ ke
  rsIn : kr < s.params.portWidth
  enIn : ke < s.params.portWidth
  apart : s.cfgRS.addr = s.cfgEN.addr → kr ≠ ke
  rsOff : s.cfgRS.addr = s.cfgPort → s.cfgW8 = false ∧ 4 ≤ kr
  enOff : s.cfgEN.addr = s.cfgPort → s.cfgW8 = false ∧ 4 ≤ ke

theorem low_bits_of_and {k : Nat} (h : 2 ^ k &&& 0xF = 0) : 4 ≤ k := by
  by_contra hk
  have : k = 0 ∨ k = 1 ∨ k = 2 ∨ k = 3 := by omega
  rcases this with rfl | rfl | rfl | rfl <;> simp at h

theorem linesApart_of_admissible {s : State}
    (h : initAdmissible s.params s.cfgRS s.cfgEN s.cfgPort s.cfgW8 = true) : ∃ kr ke, LinesApart s kr ke := by
  simp only [initAdmissible, Bool.and_eq_true, lineOffData, Bool.or_eq_true, bne_iff_ne, Bool.not_eq_true', beq_iff_eq] at h
  obtain ⟨⟨⟨⟨⟨h1, h2⟩, h3⟩, h4⟩, h5⟩, -⟩ := h
  obtain ⟨kr, hr, er⟩ := isOneBit_iff.mp h1
  obtain ⟨ke, he, ee⟩ := isOneBit_iff.mp h2
  refine ⟨kr, ke, er, ee, hr, he, fun ha hk => h3 ?_, fun ha => ?_, fun ha => ?_⟩
  · cases hrs : s.cfgRS; cases hen : s.cfgEN; simp_all
  · rcases h4 with h4 | h4
    · exact absurd ha h4
    · exact ⟨h4.1, low_bits_of_and (er ▸ h4.2)⟩
  · rcases h5 with h5 | h5
    · exact absurd ha h5
    · exact ⟨h5.1, low_bits_of_and (ee ▸ h5.2)⟩

theorem LinesApart.of_drives {s t : State} {es : List Event} {kr ke : Nat} (h : LinesApart s kr ke) (d : Drives s es t) :
    LinesApart t kr ke := by
  obtain ⟨h1, h2, h3, h4, h5, h6, h7⟩ := h
  constructor <;> simp only [d.cfgRS, d.cfgEN, d.cfgPort, d.cfgW8, d.params] <;> assumption

theorem lineE_eq {s : State} {kr ke : Nat} (h : LinesApart s kr ke) :
    s.lineE = (s.memRead s.cfgEN.addr).testBit ke := by
  rw [State.lineE, State.pinHigh, h.enMask, and_two_pow_ne_zero]

theorem lineRS_eq {s : State} {kr ke : Nat} (h : LinesApart s kr ke) :
    s.lineRS = (s.memRead s.cfgRS.addr).testBit kr := by
  rw [State.lineRS, State.pinHigh, h.rsMask, and_two_pow_ne_zero]

/-- One primitive micro-operation of the interface's width, and the E line. -/
theorem drive_lineE {s t : State} {e : Event} {kr ke : Nat} (h : LinesApart s kr ke) (w : s.outreg.wf)
    (hw : widthKept s.cfgW8 [e] = true) (hd : drive e s = .next t) : t.lineE = lastE s.lineE [e] := by
  have d := drive_drives hd
  have key : touches s s.cfgEN.addr ke e = false → t.lineE = s.lineE := fun hn => by
    rw [lineE_eq h, lineE_eq (h.of_drives d), d.cfgEN]
    exact d.bits w _ _ h.enIn (by simpa using hn)
  cases e with
  | setE b =>
    obtain ⟨-, rfl⟩ := accessing_eq_next.mp hd
    rw [lineE_eq (h.of_drives d)]
    show ((s.writeLine s.cfgEN b).memRead s.cfgEN.addr).testBit ke = b
    rw [State.writeLine, memRead_memWrite w, if_pos rfl, Nat.testBit_mod_two_pow, testBit_withLine, h.enMask]
    simp [h.enIn]
  | setRS b =>
    refine key ?_
    simp only [touches, h.rsMask, Nat.testBit_two_pow, Bool.and_eq_false_iff, beq_eq_false_iff_ne, decide_eq_false_iff_not]
    by_cases ha : s.cfgEN.addr = s.cfgRS.addr
    · exact .inr (h.apart ha.symm)
    · exact .inl ha
  | bus8 v =>
    refine key ?_
    simp only [touches, beq_eq_false_iff_ne]
    intro ha
    have := (h.enOff ha).1
    simp [widthKept, this] at hw
  | bus4 n =>
    refine key ?_
    simp only [touches, Bool.and_eq_false_iff, beq_eq_false_iff_ne, decide_eq_false_iff_not, Nat.not_lt]
    by_cases ha : s.cfgEN.addr = s.cfgPort
    · exact .inr (h.enOff ha).2
    · exact .inl ha
  | waitUs n => exact key rfl
  | waitMs n => exact key rfl

/-- One primitive micro-operation of the interface's width, and the RS line. -/
theorem drive_lineRS {s t : State} {e : Event} {kr ke : Nat} (h : LinesApart s kr ke) (w : s.outreg.wf)
    (hw : widthKept s.cfgW8 [e] = true) (hd : drive e s = .next t) : t.lineRS = lastRS s.lineRS [e] := by
  have d := drive_drives hd
  have key : touches s s.cfgRS.addr kr e = false → t.lineRS = s.lineRS := fun hn => by
    rw [lineRS_eq h, lineRS_eq (h.of_drives d), d.cfgRS]
    exact d.bits w _ _ h.rsIn (by simpa using hn)
  cases e with
  | setRS b =>
    obtain ⟨-, rfl⟩ := accessing_eq_next.mp hd
    rw [lineRS_eq (h.of_drives d)]
    show ((s.writeLine s.cfgRS b).memRead s.cfgRS.addr).testBit kr = b
    rw [State.writeLine, memRead_memWrite w, if_pos rfl, Nat.testBit_mod_two_pow, testBit_withLine, h.rsMask]
    simp [h.rsIn]
  | setE b =>
    refine key ?_
    simp only [touches, h.enMask, Nat.testBit_two_pow, Bool.and_eq_false_iff, beq_eq_false_iff_ne, decide_eq_false_iff_not]
    by_cases ha : s.cfgRS.addr = s.cfgEN.addr
    · exact .inr fun hk => h.apart ha hk.symm
    · exact .inl ha
  | bus8 v =>
    refine key ?_
    simp only [touches, beq_eq_false_iff_ne]
    intro ha
    have := (h.rsOff ha).1
    simp [widthKept, this] at hw
  | bus4 n =>
    refine key ?_
    simp only [touches, Bool.and_eq_false_iff, beq_eq_false_iff_ne, decide_eq_false_iff_not, Nat.not_lt]
    by_cases ha : s.cfgRS.addr = s.cfgPort
    · exact .inr (h.rsOff ha).2
    · exact .inl ha
  | waitUs n => exact key rfl
  | waitMs n => exact key rfl

/-- The data lines of the 8-bit interface, bit by bit (R42). -/
theorem dataLines8_eq {s t : State} (h : ∀ k, k < 8 → (t.memRead t.cfgPort).testBit k = (s.memRead s.cfgPort).testBit k) :
    t.dataLines8 = s.dataLines8 := by
  apply BitVec.eq_of_getLsbD_eq
  intro k hk
  simp only [State.dataLines8, BitVec.getLsbD_ofNat, h k hk]

/-- The data lines of the 4-bit interface, bit by bit (R42). -/
theorem dataLines4_eq {s t : State} (h : ∀ k, k < 4 → (t.memRead t.cfgPort).testBit k = (s.memRead s.cfgPort).testBit k) :
    t.dataLines4 = s.dataLines4 := by
  apply BitVec.eq_of_getLsbD_eq
  intro k hk
  simp only [State.dataLines4, BitVec.getLsbD_ofNat, h k hk]

/-- One primitive micro-operation and the data lines of the 8-bit interface. -/
theorem drive_data8 {s t : State} {e : Event} {kr ke : Nat} (h : LinesApart s kr ke) (w : s.outreg.wf)
    (hp : 8 ≤ s.params.portWidth) (h8 : s.cfgW8 = true) (hw : widthKept s.cfgW8 [e] = true) (hd : drive e s = .next t) :
    t.dataLines8 = lastByte s.dataLines8 [e] := by
  have d := drive_drives hd
  have key : (∀ k, k < 8 → touches s s.cfgPort k e = false) → t.dataLines8 = s.dataLines8 := fun hn =>
    dataLines8_eq fun k hk => by
      rw [d.cfgPort]
      exact d.bits w _ k (by omega) (by simpa using hn k hk)
  cases e with
  | setRS b =>
    refine key fun k _ => ?_
    simp only [touches, Bool.and_eq_false_iff, beq_eq_false_iff_ne]
    exact .inl fun ha => absurd (h.rsOff ha.symm).1 (by simp [h8])
  | setE b =>
    refine key fun k _ => ?_
    simp only [touches, Bool.and_eq_false_iff, beq_eq_false_iff_ne]
    exact .inl fun ha => absurd (h.enOff ha.symm).1 (by simp [h8])
  | bus8 v =>
    obtain ⟨-, rfl⟩ := accessing_eq_next.mp hd
    apply BitVec.eq_of_getLsbD_eq
    intro k hk
    show (BitVec.ofNat 8 ((s.memWrite s.cfgPort _).memRead s.cfgPort)).getLsbD k = v.getLsbD k
    rw [memRead_memWrite w, if_pos rfl, BitVec.getLsbD_ofNat, Nat.testBit_mod_two_pow, testBit_withLowByte hk]
    simp [hk, show k < s.params.portWidth by omega]
  | bus4 n => simp [widthKept, h8] at hw
  | waitUs n => exact key fun _ _ => rfl
  | waitMs n => exact key fun _ _ => rfl

/-- One primitive micro-operation and the data lines of the 4-bit interface. -/
theorem drive_data4 {s t : State} {e : Event} {kr ke : Nat} (h : LinesApart s kr ke) (w : s.outreg.wf)
    (hp : 8 ≤ s.params.portWidth) (h4 : s.cfgW8 = false) (hw : widthKept s.cfgW8 [e] = true) (hd : drive e s = .next t) :
    t.dataLines4 = lastNibble s.dataLines4 [e] := by
  have d := drive_drives hd
  have key : (∀ k, k < 4 → touches s s.cfgPort k e = false) → t.dataLines4 = s.dataLines4 := fun hn =>
    dataLines4_eq fun k hk => by
      rw [d.cfgPort]
      exact d.bits w _ k (by omega) (by simpa using hn k hk)
  cases e with
  | setRS b =>
    refine key fun k hk => ?_
    simp only [touches, h.rsMask, Nat.testBit_two_pow, Bool.and_eq_false_iff, beq_eq_false_iff_ne, decide_eq_false_iff_not]
    by_cases ha : s.cfgPort = s.cfgRS.addr
    · have := (h.rsOff ha.symm).2
      exact .inr (by omega)
    · exact .inl ha
  | setE b =>
    refine key fun k hk => ?_
    simp only [touches, h.enMask, Nat.testBit_two_pow, Bool.and_eq_false_iff, beq_eq_false_iff_ne, decide_eq_false_iff_not]
    by_cases ha : s.cfgPort = s.cfgEN.addr
    · have := (h.enOff ha.symm).2
      exact .inr (by omega)
    · exact .inl ha
  | bus8 v => simp [widthKept, h4] at hw
  | bus4 n =>
    obtain ⟨-, rfl⟩ := accessing_eq_next.mp hd
    apply BitVec.eq_of_getLsbD_eq
    intro k hk
    show (BitVec.ofNat 4 ((s.memWrite s.cfgPort _).memRead s.cfgPort)).getLsbD k = n.getLsbD k
    rw [memRead_memWrite w, if_pos rfl, BitVec.getLsbD_ofNat, Nat.testBit_mod_two_pow, testBit_withLowNibble]
    simp [hk, show k < s.params.portWidth by omega]
  | waitUs n => exact key fun _ _ => rfl
  | waitMs n => exact key fun _ _ => rfl

/-- After driving events of the interface's width, each line has the value written to it last. -/
theorem driveAll_lines {s t : State} {es : List Event} {kr ke : Nat} (h : LinesApart s kr ke) (w : s.outreg.wf)
    (hp : 8 ≤ s.params.portWidth) (hw : widthKept s.cfgW8 es = true) (hd : driveAll es s = .next t) : LinesFollow s es t := by
  induction es generalizing s with
  | nil => cases hd; exact ⟨rfl, rfl, fun _ => rfl, fun _ => rfl⟩
  | cons e es ih =>
    obtain ⟨u, hu, ht⟩ := andThen_eq_next.mp hd
    rw [← List.singleton_append, widthKept_append, Bool.and_eq_true] at hw
    have d := drive_drives hu
    have f := ih (h.of_drives d) (d.wf w) (d.params ▸ hp) (by rw [d.cfgW8]; exact hw.2) ht
    refine ⟨?_, ?_, fun h8 => ?_, fun h4 => ?_⟩
    · rw [f.rs, drive_lineRS h w hw.1 hu]; rfl
    · rw [f.enable, drive_lineE h w hw.1 hu]; rfl
    · rw [f.data8 (d.cfgW8.trans h8), drive_data8 h w hp h8 hw.1 hu]; rfl
    · rw [f.data4 (d.cfgW8.trans h4), drive_data4 h w hp h4 hw.1 hu]; rfl

theorem LinesFollow.trans {s t u : State} {es fs : List Event} (h : LinesFollow s es t) (g : LinesFollow t fs u)
    (hw : t.cfgW8 = s.cfgW8) : LinesFollow s (es ++ fs) u where
  rs := by rw [g.rs, h.rs]; exact List.foldl_append.symm
  enable := by rw [g.enable, h.enable]; exact List.foldl_append.symm
  data8 := fun h8 => by rw [g.data8 (hw.trans h8), h.data8 h8]; exact List.foldl_append.symm
  data4 := fun h4 => by rw [g.data4 (hw.trans h4), h.data4 h4]; exact List.foldl_append.symm

/-- The lines depend on the output registers and the configuration alone. -/
theorem LinesFollow.of_memory {s s' t t' : State} {es : List Event} (h : LinesFollow s es t) (s1 : s'.outreg = s.outreg)
    (s2 : s'.cfgRS = s.cfgRS) (s3 : s'.cfgEN = s.cfgEN) (s4 : s'.cfgPort = s.cfgPort) (s5 : s'.cfgW8 = s.cfgW8)
    (t1 : t'.outreg = t.outreg) (t2 : t'.cfgRS = t.cfgRS) (t3 : t'.cfgEN = t.cfgEN) (t4 : t'.cfgPort = t.cfgPort) :
    LinesFollow s' es t' := by
  obtain ⟨h1, h2, h3, h4⟩ := h
  constructor <;>
    simp only [State.lineRS, State.lineE, State.pinHigh, State.dataLines8, State.dataLines4, State.memRead, s1, s2, s3, s4, s5, t1, t2, t3, t4]
      at h1 h2 h3 h4 ⊢ <;> assumption

theorem lines_of_sequencer {s t : State} (h1 : t.outreg = s.outreg) (h2 : t.cfgEN = s.cfgEN) (h3 : t.cfgRS = s.cfgRS) :
    t.lineE = s.lineE ∧ t.lineRS = s.lineRS := by
  simp [State.lineE, State.lineRS, State.pinHigh, State.memRead, h1, h2, h3]

/-- The same of a micro-program without INIT's setup. -/
theorem runOps_lines {s t : State} {ops : List MicroOp} {kr ke : Nat} (h : LinesApart s kr ke) (w : s.outreg.wf)
    (hp : 8 ≤ s.params.portWidth) (hops : ∀ op ∈ ops, op.isSetup = false)
    (hw : widthKept s.cfgW8 (programEvents s.params s.cfgW8 ops) = true) (hr : runOps ops s = .next t) :
    LinesFollow s (programEvents s.params s.cfgW8 ops) t := by
  induction ops generalizing s with
  | nil => cases hr; exact ⟨rfl, rfl, fun _ => rfl, fun _ => rfl⟩
  | cons op ops ih =>
    obtain ⟨u, hu, ht⟩ := andThen_eq_next.mp hr
    have hd := (perform_drives (hops op (by simp)) hu).1
    rw [programEvents_cons, widthKept_append, Bool.and_eq_true] at hw
    have hl : LinesFollow s (op.events s.params s.cfgW8) u := by
      have h0 := hops op (by simp)
      cases op with
      | timerInit => simp [MicroOp.isSetup] at h0
      | storeConfig => simp [MicroOp.isSetup] at h0
      | setFsm f => cases hu; exact ⟨rfl, rfl, fun _ => rfl, fun _ => rfl⟩
      | line e => exact driveAll_lines h w hp hw.1 hu
      | enablePulse => exact driveAll_lines h w hp hw.1 hu
      | sendByte rs b => exact driveAll_lines h w hp hw.1 hu
      | sendNibble rs n => exact driveAll_lines h w hp hw.1 hu
    have hn : LinesApart u.advance kr ke := by
      obtain ⟨h1, h2, h3, h4, h5, h6, h7⟩ := h.of_drives hd
      exact ⟨h1, h2, h3, h4, h5, h6, h7⟩
    have f := ih (s := u.advance) hn (hd.wf w) (by rw [advance_params, hd.params]; exact hp) (fun o ho => hops o (by simp [ho]))
      (by simpa [hd.cfgW8, hd.params] using hw.2) ht
    rw [advance_params, advance_cfgW8, hd.params, hd.cfgW8] at f
    have f' : LinesFollow u (programEvents s.params s.cfgW8 ops) t := f.of_memory rfl rfl rfl rfl rfl rfl rfl rfl rfl
    exact hl.trans f' hd.cfgW8

/-! ### E rests low after every transfer -/

theorem lastE_pulse {p : Params} (h : PulseWaits p) (b : Bool) : lastE b (pulseEvents p) = false := by
  rw [pulseEvents_eq h]; rfl

theorem lastE_byte {p : Params} (h : PulseWaits p) (b w8 rs : Bool) (v : Byte) : lastE b (byteEvents p w8 rs v) = false := by
  unfold byteEvents
  cases w8 <;> simp only [Bool.false_eq_true, if_true, if_false] <;> split <;>
    simp [pulseEvents_eq h, lastE, issueMs] <;> split <;> rfl

theorem lastE_nibble {p : Params} (h : PulseWaits p) (b rs : Bool) (n : Nibble) : lastE b (nibbleEvents p rs n) = false := by
  simp [nibbleEvents, pulseEvents_eq h, lastE]

theorem lastE_transfers {p : Params} (h : PulseWaits p) {w8 : Bool} {ops : List MicroOp} (ho : onlyTransfers ops) {b : Bool}
    (hb : b = false ∨ ops ≠ []) : lastE b (programEvents p w8 ops) = false := by
  induction ops generalizing b with
  | nil => rcases hb with rfl | hb
           · rfl
           · exact absurd rfl hb
  | cons op ops ih =>
    obtain ⟨rs, v, rfl⟩ := ho op (by simp)
    rw [programEvents_cons, lastE_append]
    exact ih (fun o h => ho o (by simp [h])) (.inl (lastE_byte h _ _ _ _))

/-- After INIT's program E is low, whatever it was before: the program ends with a transfer (R201). -/
theorem lastE_initRest {p : Params} (h : PulseWaits p) (w8 b : Bool) :
    lastE b (programEvents p w8 (initRest p w8)) = false := by
  simp only [initRest, programEvents_append, lastE_append, initHome, programEvents_cons, programEvents_nil, List.append_nil]
  exact lastE_byte h _ _ _ _

end Sys2Proof.Machine
end

