-- ==== Sys2Proof/Laws/Effects.lean ====
section
/-!
SUPPORT. The effects of the statements' terms (`MemoryFrame`, `TransferEffect`, `DisplayEffect`, `InitEffect`) follow from
what driving and running do.
-/

namespace Sys2Proof.Machine

/-! ### Which events a transfer holds -/

theorem bus8_mem_pulse {p : Params} {v : Byte} : .bus8 v ∉ pulseEvents p := by
  simp [pulseEvents, issueUs]

theorem bus8_mem_byte {p : Params} {w8 rs : Bool} {b v : Byte} (h : Event.bus8 v ∈ byteEvents p w8 rs b) : w8 = true := by
  cases w8
  · simp [byteEvents, bus8_mem_pulse, issueMs] at h
  · rfl

theorem bus8_mem_nibble {p : Params} {rs : Bool} {n : Nibble} {v : Byte} : .bus8 v ∉ nibbleEvents p rs n := by
  simp [nibbleEvents, bus8_mem_pulse]

/-- Events of the width `w8` hold no `Bus8` on the 4-bit interface. -/
theorem bus8_of_widthKept {w8 : Bool} {es : List Event} (h : widthKept w8 es = true) {v : Byte} (hv : Event.bus8 v ∈ es) :
    w8 = true := by
  induction es with
  | nil => cases hv
  | cons e es ih =>
    rw [← List.singleton_append, widthKept_append, Bool.and_eq_true] at h
    rcases List.mem_cons.mp hv with rfl | hv
    · simpa [widthKept] using h.1
    · exact ih h.2 hv

/-! ### The memory frame -/

theorem testBit_engineBits (s : State) (a k : Nat) :
    (s.engineBits a).testBit k =
      ((decide (s.cfgRS.addr = a) && s.cfgRS.mask.testBit k) || (decide (s.cfgEN.addr = a) && s.cfgEN.mask.testBit k) ||
        (decide (s.cfgPort = a) && decide (k < if s.cfgW8 then 8 else 4))) := by
  have h8 : (0xFF : Nat).testBit k = decide (k < 8) := by
    have := Nat.testBit_two_pow_sub_one 8 k; simpa using this
  have h4 : (0xF : Nat).testBit k = decide (k < 4) := by
    have := Nat.testBit_two_pow_sub_one 4 k; simpa using this
  unfold State.engineBits
  simp only [Nat.testBit_or]
  congr 1
  · congr 1 <;> split <;> simp [*]
  · by_cases h : s.cfgPort = a <;> cases s.cfgW8 <;> simp [h, h8, h4]

/-- What driving events leaves of the output registers. -/
theorem memoryFrame_of_drives {s t : State} {es : List Event} (d : Drives s es t) (w : s.outreg.wf)
    (h8 : ∀ v, Event.bus8 v ∈ es → s.cfgW8 = true) : MemoryFrame s s t where
  others := d.others w
  hostBits := fun a k hk hp hb => by
    rw [testBit_engineBits] at hb
    simp only [Bool.or_eq_false_iff, Bool.and_eq_false_iff, decide_eq_false_iff_not] at hb
    obtain ⟨⟨hr, he⟩, hd⟩ := hb
    refine d.bits w a k hk fun e hmem => ?_
    cases e with
    | setRS b =>
      simp only [touches, Bool.and_eq_false_iff, beq_eq_false_iff_ne]
      exact hr.imp (fun h h' => h h'.symm) id
    | setE b =>
      simp only [touches, Bool.and_eq_false_iff, beq_eq_false_iff_ne]
      exact he.imp (fun h h' => h h'.symm) id
    | bus8 v =>
      simp only [touches, beq_eq_false_iff_ne]
      intro ha
      have := hp ha
      rw [h8 v hmem] at this
      cases this
    | bus4 n =>
      simp only [touches, Bool.and_eq_false_iff, beq_eq_false_iff_ne, decide_eq_false_iff_not, Nat.not_lt]
      rcases hd with hd | hd
      · exact .inl fun h => hd h.symm
      · refine .inr ?_
        split at hd <;> omega
    | waitUs n => rfl
    | waitMs n => rfl

/-- A transfer's whole effect. -/
theorem transferEffect_of_driveAll {s t : State} {es : List Event} (h : driveAll es s = .next t) (w : s.outreg.wf)
    (h8 : ∀ v, Event.bus8 v ∈ es → s.cfgW8 = true) : TransferEffect s es t :=
  have d := driveAll_drives h
  have q := driveAll_sequencer h
  ⟨d.trace, memoryFrame_of_drives d w h8, d.params, d.cfgRS, d.cfgEN, d.cfgPort, d.cfgW8, q.fsm, q.busy, q.prog, q.upc, d.latch,
    d.fault, d.presented, d.configured, d.clkSrc⟩

/-- A byte transfer of an engine that has not faulted and can drive its lines. -/
theorem transferByte_ends {s : State} (hf : s.fault = none) (c : s.CanDrive) (w : s.outreg.wf) (rs : Bool) (b : Byte) :
    ∃ t, transfer (.sendByte rs b) s = .next t ∧ TransferEffect s (byteEvents s.params s.cfgW8 rs b) t := by
  obtain ⟨t, ht⟩ := driveAll_ends c (byteEvents s.params s.cfgW8 rs b)
  refine ⟨t, ?_, transferEffect_of_driveAll ht w fun v hv => bus8_mem_byte hv⟩
  rw [transfer, hf]
  exact ht

/-- A stand-alone nibble transfer of an engine that has not faulted and can drive its lines. -/
theorem transferNibble_ends {s : State} (hf : s.fault = none) (c : s.CanDrive) (w : s.outreg.wf) (rs : Bool) (n : Nibble) :
    ∃ t, transfer (.sendNibble rs n) s = .next t ∧ TransferEffect s (nibbleEvents s.params rs n) t := by
  obtain ⟨t, ht⟩ := driveAll_ends c (nibbleEvents s.params rs n)
  refine ⟨t, ?_, transferEffect_of_driveAll ht w fun v hv => absurd hv bus8_mem_nibble⟩
  rw [transfer, hf]
  exact ht

/-! ### Display commands -/

theorem bus8_mem_transfers {p : Params} {w8 : Bool} {ops : List MicroOp} (ho : onlyTransfers ops) {v : Byte}
    (hv : Event.bus8 v ∈ programEvents p w8 ops) : w8 = true := by
  obtain ⟨op, hop, hv⟩ := List.mem_flatMap.mp hv
  obtain ⟨rs, b, rfl⟩ := ho op hop
  exact bus8_mem_byte hv

theorem AcceptsDisplay.pulseWaits {s : State} (a : s.AcceptsDisplay) : PulseWaits s.params := by
  have := a.configured
  simp only [initAdmissible, Bool.and_eq_true] at this
  exact PulseWaits.of_paramsOk this.2

theorem portWidth_of_admissible {p : Params} {rs en : PinRef} {port : Nat} {w8 : Bool}
    (h : initAdmissible p rs en port w8 = true) : 8 ≤ p.portWidth := by
  simp only [initAdmissible, paramsOk, rangesOk, Bool.and_eq_true, decide_eq_true_eq] at h
  exact h.2.2.1.2

theorem pulseWaits_of_admissible {p : Params} {rs en : PinRef} {port : Nat} {w8 : Bool}
    (h : initAdmissible p rs en port w8 = true) : PulseWaits p := by
  simp only [initAdmissible, Bool.and_eq_true] at h
  exact PulseWaits.of_paramsOk h.2

/-- The lines after a display command. -/
theorem runAccepted_lines {s t : State} {c : Command} {program : Params → Command → List MicroOp}
    (hc : initAdmissible s.params s.cfgRS s.cfgEN s.cfgPort s.cfgW8 = true) (w : s.outreg.wf)
    (hp : onlyTransfers (program s.params c)) (h : runOps (program s.params c) (s.accept c program) = .next t) :
    LinesFollow s (programEvents s.params s.cfgW8 (program s.params c)) t := by
  obtain ⟨kr, ke, la⟩ := linesApart_of_admissible hc
  have hw : widthKept s.cfgW8 (programEvents s.params s.cfgW8 (program s.params c)) = true := by
    simpa [widthKept] using (Segment.transfers (pulseWaits_of_admissible hc) hp (w8 := s.cfgW8)).width []
  have la' : LinesApart (s.accept c program) kr ke := ⟨la.rsMask, la.enMask, la.rsIn, la.enIn, la.apart, la.rsOff, la.enOff⟩
  have l := runOps_lines la' w (portWidth_of_admissible hc) hp.noSetup hw h
  exact l.of_memory rfl rfl rfl rfl rfl rfl rfl rfl rfl

/-- E is low after a display command if it was low before. -/
theorem runAccepted_enableLow {s t : State} {c : Command} {program : Params → Command → List MicroOp}
    (hc : initAdmissible s.params s.cfgRS s.cfgEN s.cfgPort s.cfgW8 = true) (w : s.outreg.wf)
    (hp : onlyTransfers (program s.params c)) (h : runOps (program s.params c) (s.accept c program) = .next t)
    (hE : s.lineE = false) : t.lineE = false := by
  rw [(runAccepted_lines hc w hp h).enable, hE]
  exact lastE_transfers (pulseWaits_of_admissible hc) hp (.inl rfl)

/-- A display command's whole effect. -/
theorem displayCommand_effect {s : State} {i : Instr} {program : Params → Command → List MicroOp} (a : s.AcceptsDisplay)
    (hp : onlyTransfers (program s.params (i.onPort s.commandPort))) :
    ∃ t, displayCommand (i.onPort s.commandPort) program s = .next t ∧
      DisplayEffect s i (programEvents s.params s.cfgW8 (program s.params (i.onPort s.commandPort))) t := by
  obtain ⟨t, ht, e⟩ := displayCommand_ends a hp
  obtain ⟨-, -, h | ⟨-, hr⟩⟩ := displayCommand_cases ht
  · exact absurd a.ready h.1
  have d := e.drives
  have m := memoryFrame_of_drives d a.memWf fun v hv => bus8_mem_transfers hp hv
  refine ⟨t, ht, ⟨d.trace, ⟨m.others, m.hostBits⟩, d.params, d.cfgRS, d.cfgEN, d.cfgPort, d.cfgW8, e.fsm.trans a.ready, e.busy, ?_,
    d.latch, d.fault.trans a.noFault, d.presented, d.configured, d.clkSrc,
    runAccepted_lines a.configured a.memWf hp hr⟩⟩
  rw [e.upc, e.prog]

/-- A display command whose program, latched on any port, has the events `es`. -/
theorem emits_of_program {i : Instr} {program : Params → Command → List MicroOp} {es : Params → Bool → List Event}
    (hx : ∀ s, exec i s = displayCommand (i.onPort s.commandPort) program s)
    (hp : ∀ p c, onlyTransfers (program p (i.onPort c)))
    (he : ∀ p w8 c, programEvents p w8 (program p (i.onPort c)) = es p w8) : Emits i es := by
  intro s a
  obtain ⟨t, ht, e⟩ := displayCommand_effect a (hp s.params s.commandPort)
  exact ⟨t, (hx s).trans ht, he s.params s.cfgW8 s.commandPort ▸ e⟩

/-- A display command whose program is empty is a silent no-op (R220(c)). -/
theorem silentNoOp_of_program {i : Instr} {program : Params → Command → List MicroOp}
    (hx : ∀ s, exec i s = displayCommand (i.onPort s.commandPort) program s)
    (he : ∀ p c, program p (i.onPort c) = []) (s : State) (a : s.AcceptsDisplay) : exec i s = .next (silentNoOp s i) := by
  rw [hx, displayCommand, whenIdle_of_idle a.noFault a.idle, if_pos a.ready, runProgram]
  have : (s.accept (i.onPort s.commandPort) program).prog = [] := he _ _
  rw [this]
  simp only [runOps, State.complete, State.accept, silentNoOp, he, a.idle]

/-- A display command raises NotInitialized unless Ready (R192). -/
theorem faultsUnlessReady_of {i : Instr} {op : CmdOp} {program : Params → Command → List MicroOp}
    (hx : ∀ s, exec i s = displayCommand (i.onPort s.commandPort) program s) (ho : ∀ c, (i.onPort c).op = op) :
    FaultsUnlessReady i op := by
  intro s hf hb hn
  rw [hx, displayCommand, whenIdle_of_idle hf hb, if_neg hn, ho]

/-! ### INIT -/

theorem events_waitUsOps (p : Params) (w8 : Bool) (n : Nat) : programEvents p w8 (waitUsOps n) = issueUs n := by
  unfold waitUsOps issueUs; split <;> simp [programEvents, issueUs, *]

theorem events_waitMsOps (p : Params) (w8 : Bool) (n : Nat) : programEvents p w8 (waitMsOps n) = issueMs n := by
  unfold waitMsOps issueMs; split <;> simp [programEvents, issueMs, *]

/-- Step 2 has the events before PoweringOn (R196). -/
theorem initPowerOn_events (p : Params) (w8 : Bool) : programEvents p w8 (initPowerOn p) = initPowerOnEvents p := by
  simp [initPowerOn, initPowerOnEvents, programEvents_append, programEvents_cons, events_waitMsOps]

/-- Steps 3 to 5 have the events in PoweringOn (R197 to R199). -/
theorem initWakeUp_events (p : Params) (w8 : Bool) :
    programEvents p w8 (initWakeUp p w8 ++ initSwitch w8 ++ initFunctionSet w8) = initWakeUpEvents p w8 := by
  have h3 : (wakeUpOp w8).events p w8 = initWakeUpEvents.wakeUp p w8 := by cases w8 <;> rfl
  have h4 : programEvents p w8 (initSwitch w8) = if w8 then [] else nibbleEvents p false 0x2#4 := by
    cases w8
    · simp [initSwitch, programEvents]; rfl
    · rfl
  have e1 : encFunctionSet w8 true false = if w8 then 0x38#8 else 0x28#8 := by cases w8 <;> rfl
  simp only [initWakeUp, initFunctionSet, programEvents_append, programEvents_cons, programEvents_nil, events_waitUsOps, h3, h4,
    initWakeUpEvents, events_setFsm, events_instrOp, e1, List.append_nil, List.append_assoc]

/-- Steps 6 and 7 have the events in Configuring (R200, R201). -/
theorem initDisplay_events (p : Params) (w8 : Bool) :
    programEvents p w8 (initDisplay ++ initHome) = initDisplayEvents p w8 := by
  simp only [initDisplay, initHome, programEvents_append, programEvents_cons, programEvents_nil, initDisplayEvents,
    events_setFsm, events_instrOp, List.append_nil, List.append_assoc]
  rfl

/-- The events of INIT's program are the spec's own list. -/
theorem initRest_events (p : Params) (w8 : Bool) : programEvents p w8 (initRest p w8) = initEvents p w8 := by
  rw [initEvents, ← initPowerOn_events p w8, ← initWakeUp_events, ← initDisplay_events]
  simp only [initRest, programEvents_append, List.append_assoc]

theorem bus8_mem_init {p : Params} {w8 : Bool} (h : PulseWaits p) {v : Byte} (hv : Event.bus8 v ∈ initEvents p w8) : w8 = true := by
  rw [← initRest_events] at hv
  refine bus8_of_widthKept ?_ hv
  simpa [widthKept] using (Segment.initRest h w8).width []

theorem lastRS_byte (b : Bool) (p : Params) (w8 rs : Bool) (v : Byte) (h : PulseWaits p) :
    lastRS b (byteEvents p w8 rs v) = rs := by
  unfold byteEvents
  cases w8 <;> simp only [Bool.false_eq_true, if_true, if_false] <;> split <;>
    simp [pulseEvents_eq h, lastRS, issueMs] <;> split <;> rfl

theorem lastByte_pulse (p : Params) (v : Byte) : lastByte v (pulseEvents p) = v := by
  simp only [pulseEvents, issueUs]
  split_ifs <;> rfl

theorem lastNibble_pulse (p : Params) (n : Nibble) : lastNibble n (pulseEvents p) = n := by
  simp only [pulseEvents, issueUs]
  split_ifs <;> rfl

theorem lastByte_append (v : Byte) (es fs : List Event) : lastByte v (es ++ fs) = lastByte (lastByte v es) fs :=
  List.foldl_append

theorem lastNibble_append (n : Nibble) (es fs : List Event) : lastNibble n (es ++ fs) = lastNibble (lastNibble n es) fs :=
  List.foldl_append

/-- A byte transfer on the 8-bit interface leaves its byte (R146). -/
theorem lastByte_byte (v : Byte) (p : Params) (rs : Bool) (b : Byte) : lastByte v (byteEvents p true rs b) = b := by
  rw [byteEvents, lastByte_append, lastByte_append]
  have h : lastByte (lastByte v [.setRS rs]) (.bus8 b :: pulseEvents p) = b := lastByte_pulse p b
  rw [if_pos rfl, h]
  simp only [issueMs]
  split_ifs <;> rfl

/-- A byte transfer on the 4-bit interface leaves its low nibble (R146). -/
theorem lastNibble_byte (n : Nibble) (p : Params) (rs : Bool) (b : Byte) :
    lastNibble n (byteEvents p false rs b) = loNibble b := by
  rw [byteEvents, lastNibble_append, lastNibble_append, if_neg (by simp), lastNibble_append]
  have h : ∀ m, lastNibble m (.bus4 (loNibble b) :: pulseEvents p) = loNibble b := fun _ => lastNibble_pulse p _
  rw [h]
  simp only [issueMs]
  split_ifs <;> rfl

/-- A stand-alone nibble transfer leaves its nibble (R148). -/
theorem lastNibble_nibble (m : Nibble) (p : Params) (rs : Bool) (n : Nibble) : lastNibble m (nibbleEvents p rs n) = n :=
  lastNibble_pulse p n

theorem lastRS_nibble (b : Bool) {p : Params} (h : PulseWaits p) (rs : Bool) (n : Nibble) :
    lastRS b (nibbleEvents p rs n) = rs := by
  simp [nibbleEvents, pulseEvents_eq h, lastRS]

/-- After INIT's program the data lines carry the last byte, 0x80 (R201). -/
theorem lastByte_initRest (p : Params) (v : Byte) : lastByte v (programEvents p true (initRest p true)) = 0x80#8 := by
  simp only [initRest, programEvents_append, lastByte_append, initHome, programEvents_cons, programEvents_nil, List.append_nil,
    events_setFsm, events_instrOp, lastByte_byte _ p]
  rfl

/-- After INIT's program the data lines carry the low nibble of 0x80 (R201). -/
theorem lastNibble_initRest (p : Params) (n : Nibble) : lastNibble n (programEvents p false (initRest p false)) = 0x0#4 := by
  simp only [initRest, programEvents_append, lastNibble_append, initHome, programEvents_cons, programEvents_nil, List.append_nil,
    events_setFsm, events_instrOp, lastNibble_byte _ p]
  rfl

/-- After INIT's program RS is low (R201). -/
theorem lastRS_initRest {p : Params} (h : PulseWaits p) (w8 b : Bool) :
    lastRS b (programEvents p w8 (initRest p w8)) = false := by
  simp only [initRest, programEvents_append, lastRS_append, initHome, programEvents_cons, programEvents_nil, List.append_nil,
    events_setFsm, events_instrOp, lastRS_byte _ p w8 _ _ h]

/-- INIT's whole effect (R195 to R202). -/
theorem execInit_effect {s : State} {rs en : PinRef} {port : Nat} {w8 : Bool} (a : s.AcceptsInit rs en port w8) :
    ∃ t, execInit rs en port w8 s = .next t ∧ InitEffect s rs en port w8 t := by
  obtain ⟨t, ht, e⟩ := execInit_ends a.noFault a.idle a.uninitialized a.admissible a.fits a.enableLow
  refine ⟨t, ht, ?_⟩
  have pw : PulseWaits s.params := by
    have := a.admissible
    simp only [initAdmissible, Bool.and_eq_true] at this
    exact PulseWaits.of_paramsOk this.2
  have d := e.drives
  rw [show (Instr.onPort s.commandPort (.init rs en port w8)).initW8 = w8 from rfl, initRest_events] at d
  have m := memoryFrame_of_drives (s := initConfigured s (Instr.onPort s.commandPort (.init rs en port w8))) d a.memWf
    fun v hv => bus8_mem_init pw hv
  obtain ⟨-, -, h | h | ⟨-, -, -, -⟩⟩ := execInit_cases ht
  · rw [a.admissible] at h; cases h.1
  · exact absurd a.uninitialized h.2.1
  have hr : runOps (initRest s.params w8)
      { initConfigured s (Instr.onPort s.commandPort (.init rs en port w8)) with
        fsm := s.fsm, busy := true
        prog := programInit s.params (Instr.onPort s.commandPort (.init rs en port w8)), upc := 2 } = .next t := by
    have := ht
    rw [execInit, whenIdle_of_idle a.noFault a.idle, if_pos a.admissible, if_pos a.uninitialized,
      if_neg (by simp [a.enableLow])] at this
    exact (runInit_eq s _).symm.trans this
  obtain ⟨kr, ke, la⟩ := linesApart_of_admissible
    (s := { initConfigured s (Instr.onPort s.commandPort (.init rs en port w8)) with
        fsm := s.fsm, busy := true
        prog := programInit s.params (Instr.onPort s.commandPort (.init rs en port w8)), upc := 2 }) a.admissible
  have hw : widthKept w8 (programEvents s.params w8 (initRest s.params w8)) = true := by
    simpa [widthKept] using (Segment.initRest pw w8).width []
  have l := runOps_lines la a.memWf (portWidth_of_admissible a.admissible) (initRest_noSetup _ _) hw hr
  have hb : t.engineBits = (initConfigured s (Instr.onPort s.commandPort (.init rs en port w8))).engineBits := by
    funext x
    simp only [State.engineBits, d.cfgRS, d.cfgEN, d.cfgPort, d.cfgW8]
  refine ⟨d.trace, ⟨?_, ?_⟩, d.params, d.cfgRS, d.cfgEN, d.cfgPort, d.cfgW8, e.fsm, e.busy, ?_, d.latch,
    d.fault.trans a.noFault, d.presented, d.configured, d.clkSrc, ?_, ?_, fun h8 => ?_, fun h4 => ?_⟩
  · rw [d.cfgRS, d.cfgEN, d.cfgPort]; exact m.others
  · rw [d.cfgPort, d.cfgW8, hb]; exact m.hostBits
  · rw [e.upc, e.prog]
  · exact l.enable.trans (lastE_initRest pw w8 (State.lineE _))
  · exact l.rs.trans (lastRS_initRest pw w8 (State.lineRS _))
  · subst h8; exact (l.data8 rfl).trans (lastByte_initRest s.params (State.dataLines8 _))
  · subst h4; exact (l.data4 rfl).trans (lastNibble_initRest s.params (State.dataLines4 _))

end Sys2Proof.Machine
end

