-- ==== Sys2Proof/Laws/Latched.lean ====
section
/-!
SUPPORT. The latched view (R154) of transfers: waits latch nothing, and a transfer latches its own value, whatever stands before
it.
-/

namespace Sys2Proof.Machine

theorem latchedFrom_setRS (r : Option Bool) (d : Option BusValue) (b : Bool) (es : List Event) :
    latchedFrom r d (.setRS b :: es) = latchedFrom (some b) d es := rfl

theorem latchedFrom_issueUs (r : Option Bool) (d : Option BusValue) (n : Nat) (es : List Event) :
    latchedFrom r d (issueUs n ++ es) = latchedFrom r d es := by
  unfold issueUs; split <;> rfl

theorem latchedFrom_issueMs (r : Option Bool) (d : Option BusValue) (n : Nat) (es : List Event) :
    latchedFrom r d (issueMs n ++ es) = latchedFrom r d es := by
  unfold issueMs; split <;> rfl

/-- A pulse latches what the lines carry (R82). -/
theorem latchedFrom_pulse (p : Params) (r : Bool) (v : BusValue) (es : List Event) :
    latchedFrom (some r) (some v) (pulseEvents p ++ es) = ⟨r, v⟩ :: latchedFrom (some r) (some v) es := by
  simp only [pulseEvents, List.append_assoc, latchedFrom_issueUs, latchedFrom, List.cons_append,
    List.nil_append]

/-- What the data lines carry after a byte transfer. -/
def lastValue (w8 : Bool) (b : Byte) : BusValue := if w8 then .byte b else .nibble (loNibble b)

/-- A byte transfer (R146). -/
theorem latchedFrom_byte (p : Params) (w8 rs : Bool) (b : Byte) (r : Option Bool) (d : Option BusValue) (es : List Event) :
    latchedFrom r d (byteEvents p w8 rs b ++ es) =
      byteLatched w8 rs b ++ latchedFrom (some rs) (some (lastValue w8 b)) es := by
  have hl : ∀ v, latchedFrom (some rs) (some v) ((if longWait p rs b then issueMs p.tLongMs else []) ++ es) =
      latchedFrom (some rs) (some v) es := by
    intro v; split
    · exact latchedFrom_issueMs _ _ _ _
    · rfl
  cases w8
  · simp only [byteEvents, Bool.false_eq_true, if_false, List.append_assoc, List.cons_append,
      List.nil_append, latchedFrom, latchedFrom_pulse, hl, byteLatched, lastValue]
  · simp only [byteEvents, if_true, List.append_assoc, List.cons_append,
      List.nil_append, latchedFrom, latchedFrom_pulse, hl, byteLatched, lastValue]

/-- A stand-alone nibble transfer (R148). -/
theorem latchedFrom_nibble (p : Params) (rs : Bool) (n : Nibble) (r : Option Bool) (d : Option BusValue) (es : List Event) :
    latchedFrom r d (nibbleEvents p rs n ++ es) =
      ⟨rs, .nibble n⟩ :: latchedFrom (some rs) (some (.nibble n)) es := by
  simp only [nibbleEvents, List.cons_append, List.nil_append, latchedFrom, latchedFrom_pulse]

/-! ### Durations (R152) -/

@[simp] theorem minMicros_nil : minMicros [] = 0 := rfl

@[simp] theorem minMicros_cons (e : Event) (es : List Event) : minMicros (e :: es) = e.micros + minMicros es := by
  simp [minMicros]

theorem minMicros_append (es fs : List Event) : minMicros (es ++ fs) = minMicros es + minMicros fs := by
  simp [minMicros]

/-- A micro-operation of a command's program, which is no bare pulse and no bare write of E or of the data lines, latches its own
transfers, whatever stands before it. -/
theorem latchedFrom_op (p : Params) (w8 : Bool) {op : MicroOp} (hp : op ≠ .enablePulse)
    (hl : ∀ e, op = .line e → (∃ b, e = .setRS b) ∨ (∃ n, e = .waitUs n) ∨ ∃ n, e = .waitMs n)
    (r : Option Bool) (d : Option BusValue) (es : List Event) :
    ∃ r' d', latchedFrom r d (op.events p w8 ++ es) = op.transfers w8 ++ latchedFrom r' d' es := by
  cases op with
  | line e =>
    rcases hl e rfl with ⟨b, rfl⟩ | ⟨n, rfl⟩ | ⟨n, rfl⟩
    · exact ⟨_, _, rfl⟩
    · exact ⟨r, d, latchedFrom_issueUs ..⟩
    · exact ⟨r, d, latchedFrom_issueMs ..⟩
  | enablePulse => exact absurd rfl hp
  | sendByte rs b => exact ⟨_, _, latchedFrom_byte ..⟩
  | sendNibble rs n =>
    exact ⟨some rs, some (.nibble n), by
      simp only [MicroOp.events, nibbleEvents, List.cons_append, List.nil_append, latchedFrom, latchedFrom_pulse,
        MicroOp.transfers]⟩
  | timerInit => exact ⟨_, _, rfl⟩
  | storeConfig => exact ⟨_, _, rfl⟩
  | setFsm f => exact ⟨_, _, rfl⟩

end Sys2Proof.Machine
end

