-- ==== Sys2Proof/Laws/Sequencer.lean ====
section
/-!
SUPPORT. The sequencer: a fetched micro-operation is performed as it is, be it a bus row or not (`performFetched_eq`), and what any
micro-operation leaves alone (`perform_keeps`).
-/

namespace Sys2Proof.Machine

theorem transfer_eq {s : State} (hf : s.fault = none) (op : MicroOp) : transfer op s = perform op s := by
  simp [transfer, hf]

/-- What no micro-operation changes. -/
structure Keeps (s t : State) : Prop where
  params : t.params = s.params
  busy : t.busy = s.busy
  prog : t.prog = s.prog
  upc : t.upc = s.upc
  latch : t.latch = s.latch
  fault : t.fault = s.fault
  presented : t.presented = s.presented

theorem perform_keeps {s t : State} {op : MicroOp} (h : perform op s = .next t) : Keeps s t := by
  have key : ∀ u es, driveAll es u = .next t → Keeps s u → Keeps s t := fun u es hu k =>
    have d := driveAll_drives hu
    have q := driveAll_sequencer hu
    ⟨d.params.trans k.params, q.busy.trans k.busy, q.prog.trans k.prog, q.upc.trans k.upc, d.latch.trans k.latch,
      d.fault.trans k.fault, d.presented.trans k.presented⟩
  refine key _ _ h ?_
  cases op <;> exact ⟨rfl, rfl, rfl, rfl, rfl, rfl, rfl⟩

/-- The RS bit of a byte transfer's word (R105). -/
theorem byteWord_rs : ∀ (rs : Bool) (b : Byte), (byteWord rs b).getLsbD 8 = rs := by decide

/-- The byte of a byte transfer's word (R105). -/
theorem byteWord_value : ∀ (rs : Bool) (b : Byte), (byteWord rs b).extractLsb' 0 8 = b := by decide

/-- The RS bit of a nibble transfer's word (R106). -/
theorem nibbleWord_rs : ∀ (rs : Bool) (n : Nibble), (nibbleWord rs n).getLsbD 4 = rs := by decide

/-- The value of a nibble transfer's word (R106). -/
theorem nibbleWord_value : ∀ (rs : Bool) (n : Nibble), (nibbleWord rs n).extractLsb' 0 4 = n := by decide

/-- A bus row's own byte transfer is what the row runs. -/
theorem exec_of_bus9 {i : Instr} {rs : Bool} {b : Byte} (h : encode i = .bus9 (byteWord rs b)) (s : State) :
    exec i s = transfer (.sendByte rs b) s := by
  have inj : ∀ r c, (Encoding.bus9 (byteWord r c)) = .bus9 (byteWord rs b) → r = rs ∧ c = b := by
    intro r c hw
    have hw : byteWord r c = byteWord rs b := by simpa using hw
    exact ⟨((byteWord_rs r c).symm.trans (congrArg (BitVec.getLsbD · 8) hw)).trans (byteWord_rs rs b),
      ((byteWord_value r c).symm.trans (congrArg (BitVec.extractLsb' 0 8 ·) hw)).trans (byteWord_value rs b)⟩
  cases i with
  | clearDisplay => obtain ⟨rfl, rfl⟩ := inj _ _ h; rfl
  | returnHome => obtain ⟨rfl, rfl⟩ := inj _ _ h; rfl
  | entryModeSet x y => obtain ⟨rfl, rfl⟩ := inj _ _ h; rfl
  | displayControl x y z => obtain ⟨rfl, rfl⟩ := inj _ _ h; rfl
  | cursorDisplayShift x y => obtain ⟨rfl, rfl⟩ := inj _ _ h; rfl
  | functionSet x y z => obtain ⟨rfl, rfl⟩ := inj _ _ h; rfl
  | setCgramAddr a => obtain ⟨rfl, rfl⟩ := inj _ _ h; rfl
  | setDdramAddr a => obtain ⟨rfl, rfl⟩ := inj _ _ h; rfl
  | writeData d => obtain ⟨rfl, rfl⟩ := inj _ _ h; rfl
  | _ => simp [encode] at h

/-- A stand-alone nibble row's own transfer is what the row runs. -/
theorem exec_of_bus5 {i : Instr} {rs : Bool} {n : Nibble} (h : encode i = .bus5 (nibbleWord rs n)) (s : State) :
    exec i s = transfer (.sendNibble rs n) s := by
  have inj : ∀ r c, (Encoding.bus5 (nibbleWord r c)) = .bus5 (nibbleWord rs n) → r = rs ∧ c = n := by
    intro r c hw
    have hw : nibbleWord r c = nibbleWord rs n := by simpa using hw
    exact ⟨((nibbleWord_rs r c).symm.trans (congrArg (BitVec.getLsbD · 4) hw)).trans (nibbleWord_rs rs n),
      ((nibbleWord_value r c).symm.trans (congrArg (BitVec.extractLsb' 0 4 ·) hw)).trans (nibbleWord_value rs n)⟩
  cases i with
  | functionSetNibble8bit => obtain ⟨rfl, rfl⟩ := inj _ _ h; rfl
  | functionSetNibble4bit => obtain ⟨rfl, rfl⟩ := inj _ _ h; rfl
  | _ => simp [encode] at h

theorem ownWord_eq_some {e : Encoding} {i : Instr} (h : ownWord e = some i) : encode i = e := by
  unfold ownWord at h
  split at h
  · split at h
    · cases h; assumption
    · cases h
  · cases h

/-- An instruction whose word decodes to it is its own word's instruction. -/
theorem ownWord_encode {i : Instr} (h : decode (encode i) = .ok i) : ownWord (encode i) = some i := by
  simp [ownWord, h]

/-- A fetched micro-operation is performed as it is. -/
theorem performFetched_eq {s : State} (hf : s.fault = none) (op : MicroOp) : performFetched op s = perform op s := by
  have : ∀ i, busRow op = some i → exec i s = perform op s := by
    intro i h
    cases op with
    | sendByte rs b => rw [exec_of_bus9 (ownWord_eq_some h) s, transfer_eq hf]
    | sendNibble rs n => rw [exec_of_bus5 (ownWord_eq_some h) s, transfer_eq hf]
    | line e => cases h
    | enablePulse => cases h
    | timerInit => cases h
    | storeConfig => cases h
    | setFsm f => cases h
  unfold performFetched
  split
  · exact this _ ‹_›
  · rfl

theorem sequencerStep_eq {s : State} (hf : s.fault = none) {op : MicroOp} (h : s.prog[s.upc]? = some op) :
    sequencerStep s = andThen (perform op s) (fun t => .next t.advance.completeAtEnd) := by
  simp [sequencerStep, h, performFetched_eq hf]

/-- `upc` advances, and BUSY ends at the program's end (R40). -/
theorem advance_completeAtEnd {s : State} (hb : s.busy = true) :
    s.advance.completeAtEnd = { s with upc := s.upc + 1, busy := decide (s.upc + 1 < s.prog.length) } := by
  unfold State.completeAtEnd State.advance State.complete
  by_cases h : s.prog.length ≤ s.upc + 1
  · simp [h, Nat.not_lt.mpr h]
  · simp [h, Nat.not_le.mp h, hb]

/-- What holds after running the first elements `ops` of what is left of PROG, one sequencer step each. -/
structure Stepped (s : State) (ops : List MicroOp) (t : State) : Prop where
  drives : Drives s (programEvents s.params s.cfgW8 ops) t
  prog : t.prog = s.prog
  upc : t.upc = s.upc + ops.length
  busy : t.busy = decide (s.upc + ops.length < s.prog.length)
  fsm : t.fsm = fsmAfterAll s.fsm ops

/-- A running engine that can drive its lines steps through any first elements of what is left of PROG, none of them INIT's
setup. -/
theorem sequencerRun_stepped {s : State} {pre ops post : List MicroOp} (c : s.CanDrive) (hf : s.fault = none)
    (hops : ∀ op ∈ ops, op.isSetup = false) (hp : s.prog = pre ++ ops ++ post) (hu : s.upc = pre.length)
    (hb : s.busy = decide (s.upc < s.prog.length)) :
    ∃ t, sequencerRun ops.length s = .next t ∧ Stepped s ops t := by
  induction ops generalizing s pre with
  | nil => exact ⟨s, rfl, Drives.refl s, rfl, rfl, hb, rfl⟩
  | cons op ops ih =>
    have hl : s.upc < s.prog.length := by simp [hp, hu]
    have hop : s.prog[s.upc]? = some op := by simp [hp, hu]
    obtain ⟨u, hperf⟩ := perform_ends c (hops op (by simp))
    obtain ⟨d, ub, up, uu, uf⟩ := perform_drives (hops op (by simp)) hperf
    have e : u.advance.completeAtEnd =
        { u with upc := s.upc + 1, busy := decide (s.upc + 1 < s.prog.length) } := by
      rw [advance_completeAtEnd (by rw [ub, hb]; simpa using hl), uu, up]
    obtain ⟨t, ht, st⟩ := ih (s := { u with upc := s.upc + 1, busy := decide (s.upc + 1 < s.prog.length) })
      (pre := pre ++ [op]) ((d.canDrive c).congr rfl rfl rfl rfl rfl) (d.fault.trans hf) (fun o ho => hops o (by simp [ho]))
      (by simp [up, hp]) (by simp [hu]) (by simp [up])
    have dt : Drives u (programEvents s.params s.cfgW8 ops) t := by
      have := st.drives.of_sequencer (s' := u) (fun _ _ _ _ => rfl) (t' := t) (fun _ _ _ _ => rfl)
      simpa [d.params, d.cfgW8] using this
    refine ⟨t, ?_, d.trans dt, st.prog.trans up, ?_, ?_, ?_⟩
    · rw [List.length_cons, sequencerRun, if_pos (by rw [hb]; simpa using hl), sequencerStep_eq hf hop, hperf, andThen_next, e]
      exact ht
    · rw [st.upc, List.length_cons]; show s.upc + 1 + ops.length = _; omega
    · rw [st.busy, List.length_cons]
      simp only [up]
      congr 1
      rw [show s.upc + 1 + ops.length = s.upc + (ops.length + 1) by omega]
    · rw [st.fsm, uf]; rfl

end Sys2Proof.Machine
end

