-- ==== Sys2Proof/Laws/Exec.lean ====
section
/-!
SUPPORT. The four shapes of an instruction's meaning (`exec_shape`): INIT, a display command, a reserved code, a transfer.
-/

namespace Sys2Proof.Machine

/-- What the display command `i` runs: a micro-program of byte transfers alone, built from the latched command. -/
structure Displays (i : Instr) (program : Params → Command → List MicroOp) : Prop where
  exec : ∀ s, exec i s = displayCommand (i.onPort s.commandPort) program s
  transfers : ∀ p c, onlyTransfers (program p c)
  /-- The program is the same whatever the fields are that the command does not name (R101). -/
  named : ∀ p c c', program p (i.onPort c) = program p (i.onPort c')

/-- A micro-operation that is a transfer (R146, R148). -/
def MicroOp.isTransfer (op : MicroOp) : Prop := (∃ rs b, op = .sendByte rs b) ∨ ∃ rs n, op = .sendNibble rs n

/-- The shapes of the instructions' meanings. -/
inductive ExecShape (i : Instr) : Prop where
  | init (rs en : PinRef) (port : Nat) (w8 : Bool) (h : i = .init rs en port w8)
  | display (program : Params → Command → List MicroOp) (h : Displays i program)
  | reserved (op : CmdOp) (h : ∀ s, exec i s = reservedCommand op s)
  | transfer (op : MicroOp) (ht : op.isTransfer) (h : ∀ s, exec i s = transfer op s)

/-- Every instruction's meaning has one of the four shapes. -/
theorem exec_shape (i : Instr) : ExecShape i := by
  cases i with
  | init rs en port w8 => exact .init rs en port w8 rfl
  | setcur col row => exact .display programSetcur ⟨fun _ => rfl, programSetcur_transfers, fun _ _ _ => rfl⟩
  | putc b => exact .display programPutc ⟨fun _ => rfl, programPutc_transfers, fun _ _ _ => rfl⟩
  | print text => exact .display programPrint ⟨fun _ => rfl, programPrint_transfers, fun _ _ _ => rfl⟩
  | scrl => exact .display programScrl ⟨fun _ => rfl, programScrl_transfers, fun _ _ _ => rfl⟩
  | scrr => exact .display programScrr ⟨fun _ => rfl, programScrr_transfers, fun _ _ _ => rfl⟩
  | curon arg0 => exact .display programCuron ⟨fun _ => rfl, programCuron_transfers, fun _ _ _ => rfl⟩
  | curoff => exact .display programCuroff ⟨fun _ => rfl, programCuroff_transfers, fun _ _ _ => rfl⟩
  | glyph index pattern => exact .display programGlyph ⟨fun _ => rfl, programGlyph_transfers, fun _ _ _ => rfl⟩
  | clear => exact .display programClear ⟨fun _ => rfl, programClear_transfers, fun _ _ _ => rfl⟩
  | home => exact .display programHome ⟨fun _ => rfl, programHome_transfers, fun _ _ _ => rfl⟩
  | reservedB => exact .reserved _ fun _ => rfl
  | reservedC => exact .reserved _ fun _ => rfl
  | reservedD => exact .reserved _ fun _ => rfl
  | reservedE => exact .reserved _ fun _ => rfl
  | reservedF => exact .reserved _ fun _ => rfl
  | clearDisplay => exact .transfer _ (.inl ⟨_, _, rfl⟩) fun _ => rfl
  | returnHome => exact .transfer _ (.inl ⟨_, _, rfl⟩) fun _ => rfl
  | entryModeSet a b => exact .transfer _ (.inl ⟨_, _, rfl⟩) fun _ => rfl
  | displayControl d c b => exact .transfer _ (.inl ⟨_, _, rfl⟩) fun _ => rfl
  | cursorDisplayShift a b => exact .transfer _ (.inl ⟨_, _, rfl⟩) fun _ => rfl
  | functionSet a b c => exact .transfer _ (.inl ⟨_, _, rfl⟩) fun _ => rfl
  | setCgramAddr a => exact .transfer _ (.inl ⟨_, _, rfl⟩) fun _ => rfl
  | setDdramAddr a => exact .transfer _ (.inl ⟨_, _, rfl⟩) fun _ => rfl
  | writeData d => exact .transfer _ (.inl ⟨_, _, rfl⟩) fun _ => rfl
  | functionSetNibble8bit => exact .transfer _ (.inr ⟨_, _, rfl⟩) fun _ => rfl
  | functionSetNibble4bit => exact .transfer _ (.inr ⟨_, _, rfl⟩) fun _ => rfl

theorem MicroOp.isTransfer.noSetup {op : MicroOp} (h : op.isTransfer) : op.isSetup = false := by
  obtain ⟨rs, b, rfl⟩ | ⟨rs, n, rfl⟩ := h <;> rfl

theorem MicroOp.isTransfer.fsm {op : MicroOp} (h : op.isTransfer) (f : Fsm) : op.fsmAfter f = f := by
  obtain ⟨rs, b, rfl⟩ | ⟨rs, n, rfl⟩ := h <;> rfl

/-- All that a transfer can do. -/
theorem transfer_eq_next {s t : State} {op : MicroOp} : transfer op s = .next t ↔ s.fault = none ∧ perform op s = .next t := by
  unfold transfer
  cases s.fault <;> simp

/-- A reserved code's only next state is the fault's (R263). -/
theorem reservedCommand_eq_next {s t : State} {op : CmdOp} :
    reservedCommand op s = .next t ↔ s.fault = none ∧ s.busy = false ∧ t = s.raise (.reservedCommand op) := by
  rw [reservedCommand, whenIdle_eq_next]
  constructor
  · rintro ⟨hf, hb, h⟩; cases h; exact ⟨hf, hb, rfl⟩
  · rintro ⟨hf, hb, rfl⟩; exact ⟨hf, hb, rfl⟩

/-- All that any instruction can do, by its shape. -/
inductive ExecNext (i : Instr) (s t : State) : Prop where
  /-- It raised a fault, which is nothing else (R269). -/
  | raised (r : FaultReason) (hb : s.busy = false) (h : t = s.raise r)
  | displayed (program : Params → Command → List MicroOp) (hd : Displays i program) (hb : s.busy = false) (hr : s.fsm = .ready)
      (hrun : runOps (program s.params (i.onPort s.commandPort)) (s.accept (i.onPort s.commandPort) program) = .next t)
      (h : Displayed s (i.onPort s.commandPort) (program s.params (i.onPort s.commandPort)) t)
  | initialised (rs en : PinRef) (port : Nat) (w8 : Bool) (hi : i = .init rs en port w8) (hb : s.busy = false)
      (hu : s.fsm = .uninitialized) (ha : initAdmissible s.params rs en port w8 = true)
      (h : Initialised s (i.onPort s.commandPort) t)
  | transferred (op : MicroOp) (ht : op.isTransfer) (h : perform op s = .next t)

/-- Running byte transfers drives their events, and beside that touches the command registers alone. -/
theorem runOps_transfers {ops : List MicroOp} (ho : onlyTransfers ops) {s t : State}
    (h : driveAll (programEvents s.params s.cfgW8 ops) s = .next t) : ∃ v, runOps ops s = .next (t.asIn v) := by
  induction ops generalizing s t with
  | nil => cases h; exact ⟨s.complete, rfl⟩
  | cons op ops ih =>
    obtain ⟨rs, b, rfl⟩ := ho op (by simp)
    rw [programEvents_cons, driveAll_append] at h
    obtain ⟨w, hw, h⟩ := andThen_eq_next.mp h
    have d := driveAll_drives hw
    have hp : perform (.sendByte rs b) s = .next w := hw
    have e1 : w.advance.params = s.params := d.params
    have e2 : w.advance.cfgW8 = s.cfgW8 := d.cfgW8
    obtain ⟨v, hv⟩ := ih (fun o h => ho o (by simp [h])) (s := w.advance) (t := t.asIn w.advance) (by
      show driveAll _ (w.asIn w.advance) = _
      rw [driveAll_asIn, e1, e2, h]
      rfl)
    exact ⟨v, by rw [runOps, hp]; exact hv⟩

/-- What a next state of an instruction means. -/
theorem exec_next {i : Instr} {s t : State} (h : exec i s = .next t) : s.fault = none ∧ ExecNext i s t := by
  rcases exec_shape i with ⟨rs, en, port, w8, rfl⟩ | ⟨program, hd⟩ | ⟨op, hx⟩ | ⟨op, ht, hx⟩
  · obtain ⟨hf, hb, ⟨-, h⟩ | ⟨-, -, h⟩ | ⟨ha, hu, -, h⟩⟩ := execInit_cases h
    · exact ⟨hf, .raised _ hb h⟩
    · exact ⟨hf, .raised _ hb h⟩
    · exact ⟨hf, .initialised rs en port w8 rfl hb hu ha h⟩
  · rw [hd.exec] at h
    obtain ⟨hf, hb, ⟨-, h⟩ | ⟨hr, h⟩⟩ := displayCommand_cases h
    · exact ⟨hf, .raised _ hb h⟩
    · exact ⟨hf, .displayed program hd hb hr h (runAccepted_displayed (hd.transfers _ _) h)⟩
  · rw [hx] at h
    obtain ⟨hf, hb, h⟩ := reservedCommand_eq_next.mp h
    exact ⟨hf, .raised _ hb h⟩
  · rw [hx] at h
    obtain ⟨hf, h⟩ := transfer_eq_next.mp h
    exact ⟨hf, .transferred op ht h⟩

end Sys2Proof.Machine
end

