-- ==== Sys2Proof/Laws/PerInstr.lean ====
section
/-!
SUPPORT. Statements about every instruction, one lemma per constructor. Family `EncodesInRow`: the instruction's word has the
fixed bits of its own row of spec/opcode_table.json, in the row's format.
-/

namespace Sys2Proof.Laws.EncodesInRow

/-- The fixed bits of the constructor's row in spec/opcode_table.json: mask and match. -/
def row : Instr → Nat × Nat
  | .init _ _ _ _ => (0xF, 0x0)
  | .setcur _ _ => (0xF, 0x1)
  | .putc _ => (0xF, 0x2)
  | .print _ => (0xF, 0x3)
  | .scrl => (0xF, 0x4)
  | .scrr => (0xF, 0x5)
  | .curon _ => (0xF, 0x6)
  | .curoff => (0xF, 0x7)
  | .glyph _ _ => (0xF, 0x8)
  | .clear => (0xF, 0x9)
  | .home => (0xF, 0xA)
  | .reservedB => (0xF, 0xB)
  | .reservedC => (0xF, 0xC)
  | .reservedD => (0xF, 0xD)
  | .reservedE => (0xF, 0xE)
  | .reservedF => (0xF, 0xF)
  | .clearDisplay => (0x1FF, 0x1)
  | .returnHome => (0x1FE, 0x2)
  | .entryModeSet _ _ => (0x1FC, 0x4)
  | .displayControl _ _ _ => (0x1F8, 0x8)
  | .cursorDisplayShift _ _ => (0x1F0, 0x10)
  | .functionSet _ _ _ => (0x1E0, 0x20)
  | .setCgramAddr _ => (0x1C0, 0x40)
  | .setDdramAddr _ => (0x180, 0x80)
  | .writeData _ => (0x100, 0x100)
  | .functionSetNibble8bit => (0x1F, 0x3)
  | .functionSetNibble4bit => (0x1F, 0x2)

/-- The bits the opcode table numbers: `CMD_OP` of a command, the whole word of a transfer. -/
def tableBits : Encoding → Nat
  | .hostCmd c => c.op.toNat
  | .bus9 w => w.toNat
  | .bus5 w => w.toNat

/-- The instruction's word has its row's fixed bits (R100, R107, R176). -/
def Statement (i : Instr) : Prop := tableBits (encode i) &&& (row i).1 = (row i).2

theorem init (rs en : PinRef) (port : Nat) (w8 : Bool) : Statement (.init rs en port w8) :=
  show (0x0#4 : CmdOp).toNat &&& 0xF = 0x0 from rfl
theorem setcur (col row : Byte) : Statement (.setcur col row) :=
  show (0x1#4 : CmdOp).toNat &&& 0xF = 0x1 from rfl
theorem putc (b : Byte) : Statement (.putc b) :=
  show (0x2#4 : CmdOp).toNat &&& 0xF = 0x2 from rfl
theorem print (text : List Byte) : Statement (.print text) :=
  show (0x3#4 : CmdOp).toNat &&& 0xF = 0x3 from rfl
theorem scrl : Statement .scrl := rfl
theorem scrr : Statement .scrr := rfl
theorem curon (arg0 : Byte) : Statement (.curon arg0) :=
  show (0x6#4 : CmdOp).toNat &&& 0xF = 0x6 from rfl
theorem curoff : Statement .curoff := rfl
theorem glyph (index : Byte) (pattern : Vector Byte 7) : Statement (.glyph index pattern) :=
  show (0x8#4 : CmdOp).toNat &&& 0xF = 0x8 from rfl
theorem clear : Statement .clear := rfl
theorem home : Statement .home := rfl
theorem reservedB : Statement .reservedB := rfl
theorem reservedC : Statement .reservedC := rfl
theorem reservedD : Statement .reservedD := rfl
theorem reservedE : Statement .reservedE := rfl
theorem reservedF : Statement .reservedF := rfl
theorem clearDisplay : Statement .clearDisplay := rfl
theorem returnHome : Statement .returnHome := rfl
theorem entryModeSet (i s : Bool) : Statement (.entryModeSet i s) := by
  show tableBits (encode (.entryModeSet i s)) &&& _ = _
  revert i s
  decide
theorem displayControl (d c b : Bool) : Statement (.displayControl d c b) := by
  show tableBits (encode (.displayControl d c b)) &&& _ = _
  revert d c b
  decide
theorem cursorDisplayShift (sc rl : Bool) : Statement (.cursorDisplayShift sc rl) := by
  show tableBits (encode (.cursorDisplayShift sc rl)) &&& _ = _
  revert sc rl
  decide
theorem functionSet (dl n f : Bool) : Statement (.functionSet dl n f) := by
  show tableBits (encode (.functionSet dl n f)) &&& _ = _
  revert dl n f
  decide
theorem setCgramAddr (a : BitVec 6) : Statement (.setCgramAddr a) := by
  show tableBits (encode (.setCgramAddr a)) &&& _ = _
  revert a
  decide
theorem setDdramAddr (a : BitVec 7) : Statement (.setDdramAddr a) := by
  show tableBits (encode (.setDdramAddr a)) &&& _ = _
  revert a
  decide
theorem writeData (d : Byte) : Statement (.writeData d) := by
  show tableBits (encode (.writeData d)) &&& _ = _
  revert d
  decide
theorem functionSetNibble8bit : Statement .functionSetNibble8bit := rfl
theorem functionSetNibble4bit : Statement .functionSetNibble4bit := rfl

end Sys2Proof.Laws.EncodesInRow
end

