-- ==== Sys2Proof/Tests/Slice0.lean ====
section
/-!
SUPPORT. Tests, each on one step or one function, with expected values from spec/95_test_vectors.md (its vector is named in the
comment) or written out from the encodings of spec/30_encoding.md; and a witness for the hypotheses of every statement.
-/

/-- `s` with `moves` as the host's moves to come. -/
def Sys2Proof.Machine.State.presenting (s : Sys2Proof.Machine.State) (moves : List Sys2Proof.Machine.HostMove) :
    Sys2Proof.Machine.State :=
  { s with presented := moves }

namespace Sys2Proof.Tests.Slice0

open Sys2Proof Sys2Proof.Machine

/-! ### The spec's test configurations (95_test_vectors.md, section 0) -/

/-- INIT's operands in configuration C8. -/
def initC8 : Instr := .init ⟨0x41, 0x01⟩ ⟨0x41, 0x02⟩ 0x40 true

/-- INIT's operands in configuration C4. -/
def initC4 : Instr := .init ⟨0x40, 0x10⟩ ⟨0x40, 0x20⟩ 0x40 false

/-- Ready in C8, the timer initialised, with an empty trace. -/
def ready8 : State :=
  { State.reset with
    cfgRS := ⟨0x41, 0x01⟩, cfgEN := ⟨0x41, 0x02⟩, cfgPort := 0x40, cfgW8 := true
    fsm := .ready, timer := State.reset.timer.init 24 }

/-- Ready in C4 with `v` in the one register. -/
def ready4 (v : Nat) : State :=
  { State.reset with
    cfgRS := ⟨0x40, 0x10⟩, cfgEN := ⟨0x40, 0x20⟩, cfgPort := 0x40, cfgW8 := false
    fsm := .ready, timer := State.reset.timer.init 24, outreg := Memory.write [] 0x40 v }

/-- Running in C8 with the one micro-operation `op`. -/
def running8 (op : MicroOp) : State := { ready8 with busy := true, prog := [op] }

/-- What is read off the next state, none for a fault or a refusal. -/
def seen {α : Type} (f : State → α) : Result → Option α
  | .next t => some (f t)
  | .fault _ => none
  | .refused _ => none

/-- The fault of an outcome. -/
def faultOf : Result → Option Fault
  | .fault r => some r
  | .next _ => none
  | .refused _ => none

/-- The latched transfers and the event count of an outcome from a state with an empty trace. -/
def latchedCount (o : Result) : Option (List Transfer × Nat) := seen (fun t => (latched t.trace, t.trace.length)) o

/-- A byte as latched on the 8-bit interface. -/
def b8 (rs : Bool) (b : Byte) : Transfer := ⟨rs, .byte b⟩

/-- A nibble as latched on the 4-bit interface. -/
def n4 (rs : Bool) (n : Nibble) : Transfer := ⟨rs, .nibble n⟩

/-- The five events of a pulse (L1.9). -/
def pulse : List Event := [.waitUs 1, .setE true, .waitUs 1, .setE false, .waitUs 45]

/-! ### WellFormed: an ill-formed term for each check -/

theorem test_wf_refuses_rs_address : (Instr.init ⟨0x10000, 1⟩ ⟨0x41, 2⟩ 0x40 true).wf Params.standard = false := by decide
theorem test_wf_refuses_en_address : (Instr.init ⟨0x41, 1⟩ ⟨0x10000, 2⟩ 0x40 true).wf Params.standard = false := by decide
theorem test_wf_refuses_port_address : (Instr.init ⟨0x41, 1⟩ ⟨0x41, 2⟩ 0x10000 true).wf Params.standard = false := by decide
theorem test_wf_accepts_last_address : (Instr.init ⟨0xFFFF, 1⟩ ⟨0xFFFF, 2⟩ 0xFFFE true).wf Params.standard = true := by decide

/-! ### Decoding: one word for every constructor, written out from R100, R105 to R107 and R176 -/

/-- A command port with every operand field set. -/
def port (op : CmdOp) : Command :=
  ⟨op, 0x05, 0x01, #v[1, 2, 3, 4, 5, 6, 7], [0x48, 0x69], ⟨0x41, 0x01⟩, ⟨0x41, 0x02⟩, 0x40, true⟩

/-- INIT with a data port past the space of 16-bit addresses. -/
def tooWide : Command := { port 0b0000#4 with initPort := 0x10000 }

theorem test_decode_init : decode (.hostCmd (port 0b0000#4)) = .ok initC8 := by decide
theorem test_decode_setcur : decode (.hostCmd (port 0b0001#4)) = .ok (.setcur 0x05#8 0x01#8) := by decide
theorem test_decode_putc : decode (.hostCmd (port 0b0010#4)) = .ok (.putc 0x05#8) := by decide
theorem test_decode_print : decode (.hostCmd (port 0b0011#4)) = .ok (.print [0x48#8, 0x69#8]) := by decide
theorem test_decode_scrl : decode (.hostCmd (port 0b0100#4)) = .ok .scrl := by decide
theorem test_decode_scrr : decode (.hostCmd (port 0b0101#4)) = .ok .scrr := by decide
theorem test_decode_curon : decode (.hostCmd (port 0b0110#4)) = .ok (.curon 0x05#8) := by decide
theorem test_decode_curoff : decode (.hostCmd (port 0b0111#4)) = .ok .curoff := by decide
theorem test_decode_glyph : decode (.hostCmd (port 0b1000#4)) = .ok (.glyph 0x05#8 #v[1, 2, 3, 4, 5, 6, 7]) := by decide
theorem test_decode_clear : decode (.hostCmd (port 0b1001#4)) = .ok .clear := by decide
theorem test_decode_home : decode (.hostCmd (port 0b1010#4)) = .ok .home := by decide
theorem test_decode_reserved :
    [0b1011#4, 0b1100#4, 0b1101#4, 0b1110#4, 0b1111#4].map (fun op => decodeCmd (port op)) =
      [.reservedB, .reservedC, .reservedD, .reservedE, .reservedF] := by decide
theorem test_decode_clearDisplay : decode (.bus9 0b000000001#9) = .ok .clearDisplay := by decide
theorem test_decode_returnHome :
    decode (.bus9 0b000000010#9) = .ok .returnHome ∧ decode (.bus9 0b000000011#9) = .ok .returnHome := by decide
theorem test_decode_entryModeSet :
    decode (.bus9 0b000000110#9) = .ok (.entryModeSet true false) ∧
      decode (.bus9 0b000000101#9) = .ok (.entryModeSet false true) := by decide
theorem test_decode_displayControl :
    decode (.bus9 0b000001100#9) = .ok (.displayControl true false false) ∧
      decode (.bus9 0b000001010#9) = .ok (.displayControl false true false) ∧
      decode (.bus9 0b000001001#9) = .ok (.displayControl false false true) := by decide
theorem test_decode_cursorDisplayShift :
    decode (.bus9 0b000011000#9) = .ok (.cursorDisplayShift true false) ∧
      decode (.bus9 0b000010111#9) = .ok (.cursorDisplayShift false true) := by decide
theorem test_decode_functionSet :
    decode (.bus9 0b000110000#9) = .ok (.functionSet true false false) ∧
      decode (.bus9 0b000101000#9) = .ok (.functionSet false true false) ∧
      decode (.bus9 0b000100111#9) = .ok (.functionSet false false true) := by decide
theorem test_decode_setCgramAddr : decode (.bus9 0b001100001#9) = .ok (.setCgramAddr 0b100001#6) := by decide
theorem test_decode_setDdramAddr : decode (.bus9 0b011000001#9) = .ok (.setDdramAddr 0b1000001#7) := by decide
theorem test_decode_writeData : decode (.bus9 0b110000001#9) = .ok (.writeData 0b10000001#8) := by decide
theorem test_decode_functionSetNibble8bit : decode (.bus5 0b00011#5) = .ok .functionSetNibble8bit := by decide
theorem test_decode_functionSetNibble4bit : decode (.bus5 0b00010#5) = .ok .functionSetNibble4bit := by decide
theorem test_decode_no_instruction :
    decode (.bus9 0b000000000#9) = .error .noInstruction ∧ decode (.bus5 0b10011#5) = .error .noStandAloneNibble := by decide

/-- A table word of each format runs as the next step after reset. -/
theorem test_withFetchWord :
    (State.reset.withFetchWord 4 0b1010).presented = [.command (Command.blank 0xA#4)] ∧
      (State.reset.withFetchWord 16 0b101000001).prog = [.sendByte true 0x41#8] ∧
      (State.reset.withFetchWord 5 0b00011).prog = [.sendNibble false 0x3#4] := by decide

/-! ### The encoder (L2.2) -/

theorem test_encoder_bytes :
    encEntryMode true false = 0x06#8 ∧ encDisplayControl false false false = 0x08#8 ∧
      encDisplayControl true false false = 0x0C#8 ∧ encDisplayControl true true true = 0x0F#8 ∧ encShift true false = 0x18#8 ∧
      encShift true true = 0x1C#8 ∧ encFunctionSet false true false = 0x28#8 ∧ encFunctionSet true true false = 0x38#8 ∧
      encSetCgram 24#6 = 0x58#8 ∧ encSetDdram 0x4F#7 = 0xCF#8 := by decide

/-! ### Micro-operations (L2.1) -/

theorem test_S1_setRS : seen (fun t => (t.memRead 0x40, t.trace)) (perform (.line (.setRS true)) (ready4 0x03)) =
    some (0x13, [.setRS true]) := by decide
theorem test_S3_setE : seen (fun t => (t.memRead 0x40, t.trace)) (perform (.line (.setE true)) (ready4 0x13)) =
    some (0x33, [.setE true]) := by decide
theorem test_S4_setE_low : seen (fun t => t.memRead 0x40) (perform (.line (.setE false)) (ready4 0x33)) = some 0x13 := by decide
theorem test_S6_bus4 : seen (fun t => (t.memRead 0x40, t.trace)) (perform (.line (.bus4 0xC#4)) (ready4 0xF0)) =
    some (0xFC, [.bus4 0xC#4]) := by decide
theorem test_S7_bus8 :
    seen (fun t => (t.memRead 0x40, t.trace)) (perform (.line (.bus8 0x41#8)) (ready8.memWrite 0x40 0x5A)) =
      some (0x41, [.bus8 0x41#8]) := by decide
theorem test_S10_sendNibble : seen (fun t => (t.memRead 0x40, t.trace)) (perform (.sendNibble false 0x3#4) (ready4 0)) =
    some (0x03, [.setRS false, .bus4 0x3#4] ++ pulse) := by decide
theorem test_S11_sendByte : seen (fun t => (t.memRead 0x40, t.trace)) (perform (.sendByte false 0x01#8) ready8) =
    some (0x01, [.setRS false, .bus8 0x01#8] ++ pulse ++ [.waitMs 5]) := by decide
theorem test_S14_sendByte : seen (fun t => (t.memRead 0x40, t.trace)) (perform (.sendByte true 0x41#8) (ready4 0)) =
    some (0x11, [.setRS true, .bus4 0x4#4] ++ pulse ++ [.bus4 0x1#4] ++ pulse) := by decide

/-! ### The long-wait predicate (L2.3) -/

theorem test_longWait_equal :
    ([0x00#8, 0x01#8, 0x02#8, 0x03#8, 0x04#8, 0x80#8].map (longWait Params.standard false)) =
      [false, true, true, false, false, false] := by decide
theorem test_longWait_below4 :
    ([0x00#8, 0x01#8, 0x02#8, 0x03#8, 0x04#8, 0x80#8].map (longWait { Params.standard with longWaitRule := .below4 } false)) =
      [true, true, true, true, false, false] := by decide

/-! ### The delay timer (L2.6) -/

theorem test_T1_timerInit : State.reset.timer.init 24 = ⟨true, 0xFFFFFF, 0, false, true⟩ := by decide
/-- T3: `wait_ticks(3)`, cycles 1 to 3. -/
theorem test_T3_cycles : [1, 2, 3].map (fun n => let t := Timer.run n (ready8.timer.load 24 3); (t.current, t.countFlag)) =
    [(2, false), (1, false), (0, true)] := by decide
/-- T5: the flag of a period of 1 never sets. -/
theorem test_T5_stuck : ready8.timer.waitTicks 24 1 0 = none := by decide

/-! ### INIT (L2.4) -/

theorem test_I1_init8 :
    (initEvents Params.standard true).length = 68 ∧ minMicros (initEvents Params.standard true) = 24623 ∧
      seen (fun t => (latched t.trace, t.memRead 0x40, t.memRead 0x41, t.fsm)) (exec initC8 State.reset) =
        some ([0x30, 0x30, 0x30, 0x38, 0x08, 0x01, 0x06, 0x0C, 0x80].map (b8 false), 0x80, 0x00, .ready) := by decide
set_option maxRecDepth 4000 in
/-- P2: the host's bits 7 and 6 of the shared register survive; the last nibble is 0. -/
theorem test_P2_init4 :
    seen (fun t => (latched t.trace, t.trace.length, t.memRead 0x40)) (exec initC4 (State.reset.memWrite 0x40 0xC0)) =
      some ([3, 3, 3, 2, 2, 8, 0, 8, 0, 1, 0, 6, 0, 0xC, 8, 0].map (n4 false), 111, 0xC0) := by decide
theorem test_init_admissible :
    initAdmissible Params.standard ⟨0x41, 0x03⟩ ⟨0x41, 0x02⟩ 0x40 true = false ∧ -- two bits (I12)
      initAdmissible Params.standard ⟨0x41, 0x01⟩ ⟨0x41, 0x01⟩ 0x40 true = false ∧ -- RS = E (F4)
      initAdmissible Params.standard ⟨0x40, 0x10⟩ ⟨0x41, 0x02⟩ 0x40 true = false ∧ -- a line on the 8-bit port (R193(c))
      initAdmissible Params.standard ⟨0x40, 0x08⟩ ⟨0x40, 0x20⟩ 0x40 false = false ∧ -- a line under the nibble (R193(c))
      initAdmissible Params.standard ⟨0x40, 0x10⟩ ⟨0x40, 0x20⟩ 0x40 false = true ∧ -- I8
      initAdmissible { Params.standard with ticksPerUs := 15 } ⟨0x41, 1⟩ ⟨0x41, 2⟩ 0x40 true = false ∧ -- I9
      initAdmissible { Params.standard with ticksPerUs := 1 } ⟨0x41, 1⟩ ⟨0x41, 2⟩ 0x40 true = false ∧ -- I10
      initAdmissible { Params.standard with ticksPerMs := 2 ^ 24 + 1 } ⟨0x41, 1⟩ ⟨0x41, 2⟩ 0x40 true = false ∧ -- I11
      initAdmissible { Params.standard with tSettleUs := 44 } ⟨0x41, 1⟩ ⟨0x41, 2⟩ 0x40 true = false := by decide -- R264

/-! ### Display commands (L2.5) -/

theorem test_D2_setcur : latchedCount (exec (.setcur 15 1) ready8) = some ([b8 false 0xCF], 7) := by decide
theorem test_D3_setcur_out : latchedCount (exec (.setcur 16 0) ready8) = some ([], 0) ∧
    latchedCount (exec (.setcur 0 2) ready8) = some ([], 0) := by decide
theorem test_D6_putc : latchedCount (exec (.putc 0x01) ready8) = some ([b8 true 0x01], 7) := by decide
theorem test_putc4 : latchedCount (exec (.putc 0x41) (ready4 0)) = some ([n4 true 4, n4 true 1], 13) := by decide
theorem test_D10_print : latchedCount (exec (.print [0x41, 0x00, 0x42]) ready8) = some ([b8 true 0x41], 7) := by decide
theorem test_D12_print :
    latchedCount (exec (.print [0x41, 0x42, 0x43]) ready8) = some ([b8 true 0x41, b8 true 0x42, b8 true 0x43], 21) := by decide
theorem test_D13_scrl : latchedCount (exec .scrl ready8) = some ([b8 false 0x18], 7) := by decide
theorem test_D14_scrr : latchedCount (exec .scrr (ready4 0)) = some ([n4 false 1, n4 false 0xC], 13) := by decide
theorem test_D17_curon : latchedCount (exec (.curon 2) ready8) = some ([b8 false 0x0E], 7) ∧
    latchedCount (exec (.curon 3) ready8) = some ([b8 false 0x0F], 7) := by decide
theorem test_D19_curoff : latchedCount (exec .curoff ready8) = some ([b8 false 0x0C], 7) := by decide
theorem test_L15_glyph :
    latchedCount (exec (.glyph 3 #v[1, 2, 3, 4, 5, 6, 7]) ready8) =
      some (b8 false 0x58 :: [1, 2, 3, 4, 5, 6, 7, 0].map (b8 true), 63) := by decide
set_option maxRecDepth 4000 in
/-- P2, command 2: host bits 7 and 6, RS = 1, E = 0, the last nibble 0. -/
theorem test_P2_glyph : seen (fun t => (t.memRead 0x40, t.trace.length))
    (exec (.glyph 0 #v[0x0E, 0x11, 0x11, 0x11, 0x11, 0x11, 0x0E]) (ready4 0xC0)) = some (0xD0, 117) := by decide
theorem test_D22_glyph_out : latchedCount (exec (.glyph 8 #v[0, 0, 0, 0, 0, 0, 0]) ready8) = some ([], 0) := by decide
theorem test_D24_clear4 : seen (fun t => (t.trace, minMicros t.trace)) (exec .clear (ready4 0)) =
    some ([.setRS false, .bus4 0] ++ pulse ++ [.bus4 1] ++ pulse ++ [.waitMs 5, .setRS false, .bus4 8] ++ pulse ++ [.bus4 0] ++
      pulse, 5188) := by decide
theorem test_D25_home : latchedCount (exec .home ready8) = some ([b8 false 0x80], 7) := by decide

/-! ### Transfers of the bus rows: the byte on the lines (L2.2) -/

theorem test_bus_rows :
    ([.clearDisplay, .returnHome, .entryModeSet true false, .displayControl true true false, .cursorDisplayShift false true,
      .functionSet false true false, .setCgramAddr 0x38, .setDdramAddr 0x4F].map
        fun i => seen (fun t => (latched t.trace, t.memRead 0x40)) (exec i ready8)) =
      ([0x01, 0x02, 0x06, 0x0E, 0x14, 0x28, 0x78, 0xCF].map fun b => some ([b8 false b], b.toNat)) := by decide
theorem test_writeData : latchedCount (exec (.writeData 0x02) ready8) = some ([b8 true 0x02], 7) := by decide
theorem test_nibble_rows :
    [.functionSetNibble8bit, .functionSetNibble4bit].map (fun i => latchedCount (exec i (ready4 0))) =
      [some ([n4 false 3], 7), some ([n4 false 2], 7)] := by decide

/-! ### Faults and priority (L2.7) -/

/-- The fault code, the trace and the FSM of an outcome. -/
def faultSeen (o : Result) : Option (Option Nat × List Event × Fsm) :=
  seen (fun t => (t.fault.map FaultReason.code, t.trace, t.fsm)) o

theorem test_F1 : faultSeen (exec (.putc 0x41) State.reset) = some (some 1, [], .uninitialized) := by decide
theorem test_F2_reservedB : faultSeen (exec .reservedB State.reset) = some (some 2, [], .uninitialized) := by decide
theorem test_F3_reserved : [.reservedC, .reservedD, .reservedE, .reservedF].map (fun i => faultSeen (exec i ready8)) =
    List.replicate 4 (some (some 2, [], .ready)) := by decide
theorem test_F4 :
    faultSeen (exec (.init ⟨0x41, 1⟩ ⟨0x41, 1⟩ 0x40 true) State.reset) = some (some 3, [], .uninitialized) := by decide
theorem test_F5 : faultSeen (exec initC8 ready8) = some (some 4, [], .ready) := by decide
theorem test_I12 : faultSeen (exec (.init ⟨0x41, 3⟩ ⟨0x41, 2⟩ 0x40 true) ready8) = some (some 3, [], .ready) := by decide
/-- The refusal of an outcome. -/
def refusalSeen : Result → Option Refusal
  | .refused r => some r
  | .next _ => none
  | .fault _ => none

/-- R303: INIT while its Enable line is high; an inadmissible one, and one in Ready, fault as ever. -/
theorem test_init_enableHigh :
    refusalSeen (exec initC8 (State.reset.memWrite 0x41 0x02)) = some .enableHigh ∧
      faultSeen (exec (.init ⟨0x41, 2⟩ ⟨0x41, 2⟩ 0x40 true) (State.reset.memWrite 0x41 0x02)) =
        some (some 3, [], .uninitialized) ∧
      faultSeen (exec initC8 (ready8.memWrite 0x41 0x02)) = some (some 4, [], .ready) := by decide
theorem test_F7 : faultSeen (exec (.setcur 99 0) ready8) = some (none, [], .ready) := by decide

/-! ### Witnesses: states and operands that meet the hypotheses of the statements, at the bounds of each clause -/

theorem ready8_canDrive : ready8.CanDrive := by constructor <;> decide
theorem ready4_canDrive : (ready4 0xC0).CanDrive := by constructor <;> decide
theorem ready8_accepts : ready8.AcceptsDisplay :=
  ⟨by decide, by decide, by decide, ready8_canDrive, by decide, by decide⟩
theorem ready4_accepts : (ready4 0xC0).AcceptsDisplay :=
  ⟨by decide, by decide, by decide, ready4_canDrive, by decide, by decide⟩
theorem reset_acceptsC8 : State.reset.AcceptsInit ⟨0x41, 0x01⟩ ⟨0x41, 0x02⟩ 0x40 true := by constructor <;> decide
theorem reset_acceptsC4 : State.reset.AcceptsInit ⟨0x40, 0x10⟩ ⟨0x40, 0x20⟩ 0x40 false := by constructor <;> decide

/-- DdramByteOfCell and SetcurSendsAddress: the last cell, and the first values out of range in each coordinate. -/
theorem witness_DdramByteOfCell :
    ((15#8).toNat < 16 ∧ (1#8).toNat < 2) ∧ ¬ ((16#8).toNat < 16 ∧ (0#8).toNat < 2) ∧ ¬ ((0#8).toNat < 16 ∧ (2#8).toNat < 2) := by
  decide

/-- CgramByteOfGlyph and GlyphSendsPattern: the last glyph and the first value out of range. -/
theorem witness_CgramByteOfGlyph : (7#8).toNat < 8 ∧ ¬ (8#8).toNat < 8 := by decide

theorem witness_SetRsWritesOneLine : (ready4 0xC0).outreg.wf ∧ (ready4 0xC0).cfgRS.addr < 2 ^ (ready4 0xC0).params.addrWidth ∧
    (4 < (ready4 0xC0).params.portWidth ∧ (ready4 0xC0).cfgRS.mask.testBit 4 = true) ∧
    7 < (ready4 0xC0).params.portWidth ∧ (ready4 0xC0).cfgRS.mask.testBit 7 = false := by decide

theorem witness_SetEWritesOneLine : (ready4 0xC0).outreg.wf ∧ (ready4 0xC0).cfgEN.addr < 2 ^ (ready4 0xC0).params.addrWidth ∧
    (5 < (ready4 0xC0).params.portWidth ∧ (ready4 0xC0).cfgEN.mask.testBit 5 = true) ∧
    7 < (ready4 0xC0).params.portWidth ∧ (ready4 0xC0).cfgEN.mask.testBit 7 = false := by decide

theorem witness_Bus8WritesLowByte : ready8.outreg.wf ∧ ready8.cfgPort < 2 ^ ready8.params.addrWidth ∧
    8 ≤ ready8.params.portWidth ∧ ready8.params.portWidth = 8 := by decide

theorem witness_Bus4WritesLowNibble : (ready4 0xC0).outreg.wf ∧ (ready4 0xC0).cfgPort < 2 ^ (ready4 0xC0).params.addrWidth ∧
    8 ≤ (ready4 0xC0).params.portWidth ∧ 4 < (ready4 0xC0).params.portWidth := by decide

theorem witness_EnablePulseProtocol : (ready4 0xC0).CanDrive ∧ (ready4 0xC0).outreg.wf ∧ paramsOk (ready4 0xC0).params = true ∧
    isOneBit (ready4 0xC0).params (ready4 0xC0).cfgEN.mask = true ∧ (ready4 0xC0).cfgEN.mask.testBit 4 = false :=
  ⟨ready4_canDrive, by decide, by decide, by decide, by decide⟩

/-- WaitsEmitTheirEvent, at the shortest wait that is issued. -/
theorem witness_WaitsEmitTheirEvent : ready8.CanDrive ∧ 0 < 1 := ⟨ready8_canDrive, by decide⟩

/-- SendByteProtocol and SendNibbleProtocol, on both interfaces. -/
theorem witness_SendByteProtocol : (ready8.CanDrive ∧ paramsOk ready8.params = true ∧ ready8.cfgW8 = true) ∧
    (ready4 0xC0).CanDrive ∧ paramsOk (ready4 0xC0).params = true ∧ (ready4 0xC0).cfgW8 = false :=
  ⟨⟨ready8_canDrive, by decide, by decide⟩, ready4_canDrive, by decide, by decide⟩

/-- LinesAfterTransfer: a byte row on both interfaces, a nibble row on the 4-bit one. -/
theorem witness_LinesAfterTransfer :
    (ready8.fault = none ∧ ready8.CanDrive ∧ ready8.outreg.wf ∧
      initAdmissible ready8.params ready8.cfgRS ready8.cfgEN ready8.cfgPort ready8.cfgW8 = true ∧ ready8.cfgW8 = true) ∧
    ((ready4 0xC0).fault = none ∧ (ready4 0xC0).CanDrive ∧ (ready4 0xC0).outreg.wf ∧
      initAdmissible (ready4 0xC0).params (ready4 0xC0).cfgRS (ready4 0xC0).cfgEN (ready4 0xC0).cfgPort
        (ready4 0xC0).cfgW8 = true ∧ (ready4 0xC0).cfgW8 = false) ∧
    encode (.writeData 0xFF) = .bus9 (byteWord true 0xFF#8) ∧ encode .functionSetNibble8bit = .bus5 (nibbleWord false 0x3#4) :=
  ⟨⟨by decide, ready8_canDrive, by decide, by decide, by decide⟩,
    ⟨by decide, ready4_canDrive, by decide, by decide, by decide⟩, by decide, by decide⟩

/-- ByteTransferRows and NibbleTransferRows: between commands and inside one. -/
theorem witness_ByteTransferRows :
    (ready8.fault = none ∧ ready8.CanDrive ∧ ready8.outreg.wf) ∧
    (running8 (instrOp encClear)).fault = none ∧ (running8 (instrOp encClear)).CanDrive ∧ (running8 (instrOp encClear)).outreg.wf :=
  ⟨⟨by decide, ready8_canDrive, by decide⟩, by decide, by constructor <;> decide, by decide⟩

theorem witness_TimerInitRegisters : ∃ t, perform .timerInit State.reset = .next t := ⟨_, rfl⟩

/-- CountFlagSetsAfterPeriod: the shortest and the longest period, in the cycle before the flag. -/
theorem witness_CountFlagSetsAfterPeriod : ready8.timer.configured = true ∧ (2 ≤ 2 ∧ 2 ≤ 2 ^ 24 ∧ 1 < 2) ∧
    2 ≤ 2 ^ 24 ∧ 2 ^ 24 ≤ 2 ^ 24 ∧ 2 ^ 24 - 1 < 2 ^ 24 := by decide

/-- ReloadZeroIsStuck: the periods 0, 1 and 2^W + 1, a timer that is not configured, and states with each. -/
theorem witness_ReloadZeroIsStuck :
    ((0 - 1) % 2 ^ 24 = 0 ∧ (1 - 1) % 2 ^ 24 = 0 ∧ (2 ^ 24 + 1 - 1) % 2 ^ 24 = 0 ∧ State.reset.timer.configured = false) ∧
    0 < 1 ∧ ({ ready8.params with ticksPerUs := 1 }.ticksPerUs - 1) % 2 ^ ready8.params.timerWidth = 0 ∧
    ({ ready8.params with ticksPerMs := 1 }.ticksPerMs - 1) % 2 ^ ready8.params.timerWidth = 0 := by decide

/-- U11: a wait on a timer that is not configured, and one of a unit of one tick. -/
theorem test_waits_stuck :
    faultOf (perform (.line (.waitUs 1)) State.reset) = some .waitNeverReturns ∧
      faultOf (perform (.line (.waitMs 1)) { ready8 with params := { Params.standard with ticksPerMs := 1 } }) =
        some .waitNeverReturns := by decide

/-- WaitsLastTheirTime: the shortest period, and the shortest wait that is issued. -/
theorem witness_WaitsLastTheirTime : (2 ≤ 2 ∧ 2 ≤ 2 ^ 24 ∧ ∃ u, ready8.timer.waitTicks 24 2 0 = some u) ∧
    ready8.CanDrive ∧ timerOk ready8.params = true ∧ 0 < 1 :=
  ⟨⟨by decide, by decide, _, rfl⟩, ready8_canDrive, by decide, by decide⟩

theorem witness_FaultedEngineTakesNoStep : (ready8.raise (.reservedCommand 0xB#4)).fault = some (.reservedCommand 0xB#4) := by
  decide

/-- ReservedCodesFault: before INIT and in Ready. -/
theorem witness_ReservedCodesFault : (State.reset.fault = none ∧ State.reset.busy = false) ∧ ready8.fault = none ∧
    ready8.busy = false := by decide

/-- InitFaultsInOrder: inadmissible operands before INIT and in Ready; admissible ones in Ready. -/
theorem witness_InitFaultsInOrder :
    (State.reset.fault = none ∧ State.reset.busy = false ∧
      initAdmissible State.reset.params ⟨0x41, 1⟩ ⟨0x41, 1⟩ 0x40 true = false) ∧
    (ready8.fault = none ∧ ready8.busy = false ∧ initAdmissible ready8.params ⟨0x41, 3⟩ ⟨0x41, 2⟩ 0x40 true = false) ∧
    initAdmissible ready8.params ⟨0x41, 1⟩ ⟨0x41, 2⟩ 0x40 true = true ∧ ready8.fsm ≠ .uninitialized := by decide

/-- InitRefusedWhileEnableHigh: the Enable line of C8 high. -/
theorem witness_InitRefusedWhileEnableHigh :
    (State.reset.memWrite 0x41 0x02).fault = none ∧ (State.reset.memWrite 0x41 0x02).busy = false ∧
      initAdmissible (State.reset.memWrite 0x41 0x02).params ⟨0x41, 0x01⟩ ⟨0x41, 0x02⟩ 0x40 true = true ∧
      (State.reset.memWrite 0x41 0x02).fsm = .uninitialized ∧ (State.reset.memWrite 0x41 0x02).memRead 0x41 &&& 0x02 ≠ 0 := by
  decide

theorem witness_NoCommandWhileBusy : (running8 (instrOp encClear)).fault = none ∧ (running8 (instrOp encClear)).busy = true ∧
    isCommand .home = true := by decide

/-- AcceptsInit with every bit of the Enable line's register high but its own. -/
theorem witness_AcceptsInit_other_bits_high :
    (State.reset.memWrite 0x41 0xFD).AcceptsInit ⟨0x41, 0x01⟩ ⟨0x41, 0x02⟩ 0x40 true := by constructor <;> decide

/-- InitRunsWholeSequence, InitWritesFsmInOrder, InitLatchedTransfers and CommandDurations, on both interfaces. -/
theorem witness_InitRunsWholeSequence :
    (State.reset.AcceptsInit ⟨0x41, 0x01⟩ ⟨0x41, 0x02⟩ 0x40 true ∧ Params.hasDefaultTiming State.reset.params) ∧
      State.reset.AcceptsInit ⟨0x40, 0x10⟩ ⟨0x40, 0x20⟩ 0x40 false :=
  ⟨⟨reset_acceptsC8, by decide⟩, reset_acceptsC4⟩

/-- TransferDurations: a byte without and one with the long wait. -/
theorem witness_TransferDurations : Params.hasDefaultTiming Params.standard ∧ longWait Params.standard false 0x04#8 = false ∧
    longWait Params.standard false 0x02#8 = true := by decide

/-- The display commands' statements (SetcurSendsAddress to CommandDurations and CommandsAreExpansions): an engine that accepts them, on
both interfaces, and one that does not. -/
theorem witness_DisplayCommands : (ready8.AcceptsDisplay ∧ ready8.lineE = false) ∧ (ready4 0xC0).AcceptsDisplay ∧
    (State.reset.fault = none ∧ State.reset.busy = false ∧ State.reset.fsm ≠ .ready) :=
  ⟨⟨ready8_accepts, by decide⟩, ready4_accepts, by decide⟩

/-- PrintSendsText: a text with bytes to send and bytes after the terminator. -/
theorem witness_PrintSendsText : ∀ b ∈ [0xFF#8, 0x01#8], b ≠ 0 := by decide

/-- SameCommandSameEvents: two states with different pasts. -/
theorem witness_SameCommandSameEvents :
    isCommand .home = true ∧ ready8.AcceptsDisplay ∧ (ready8.emit (.setRS true)).AcceptsDisplay ∧
      ready8.params = (ready8.emit (.setRS true)).params ∧ ready8.cfgW8 = (ready8.emit (.setRS true)).cfgW8 ∧
      (∃ t, exec .home ready8 = .next t) ∧ ∃ t, exec .home (ready8.emit (.setRS true)) = .next t := by
  have a : (ready8.emit (.setRS true)).AcceptsDisplay :=
    ⟨by decide, by decide, by decide, by constructor <;> decide, by decide, by decide⟩
  have e : ∀ s : State, s.AcceptsDisplay → ∃ t, exec .home s = .next t := fun _ h =>
    let ⟨t, ht, _⟩ := displayCommand_ends h (programHome_transfers _ _)
    ⟨t, ht⟩
  exact ⟨by decide, ready8_accepts, a, rfl, rfl, e _ ready8_accepts, e _ a⟩

/-- CommandTracesStrobed and OnlyInitMovesFsm: a display command and INIT that answer a next state. -/
theorem witness_CommandTracesStrobed :
    (isCommand .clear = true ∧ ready8.AcceptsDisplay ∧ ∃ t, exec .clear ready8 = .next t) ∧
      State.reset.AcceptsInit ⟨0x41, 0x01⟩ ⟨0x41, 0x02⟩ 0x40 true ∧
        ∃ t, exec (.init ⟨0x41, 0x01⟩ ⟨0x41, 0x02⟩ 0x40 true) State.reset = .next t := by
  have e : ∀ (s : State) (rs en : PinRef) (port : Nat) (w8 : Bool), s.AcceptsInit rs en port w8 →
      ∃ t, exec (.init rs en port w8) s = .next t := fun s rs en port w8 h =>
    let ⟨t, ht, _⟩ := execInit_effect h
    ⟨t, ht⟩
  have d : ∀ s : State, s.AcceptsDisplay → ∃ t, exec .clear s = .next t := fun _ h =>
    let ⟨t, ht, _⟩ := displayCommand_ends h (programClear_transfers _ _)
    ⟨t, ht⟩
  exact ⟨⟨by decide, ready8_accepts, d _ ready8_accepts⟩, reset_acceptsC8, e _ _ _ _ _ reset_acceptsC8⟩

/-- EmittedTransfersListed and LongWaitPredicate: a program of the list, and a transfer it holds. -/
theorem witness_EmittedTransfersListed : MicroOp.sendByte false 0x80#8 ∈ programHome Params.standard (port 0xA#4) := by decide

/-- StepRunsDecodedInstruction: a presented command, nothing presented, a byte transfer and a nibble transfer of PROG. -/
theorem witness_StepRunsDecodedInstruction :
    ((State.reset.presenting [.command (port 0#4)]).fault = none ∧ (State.reset.presenting [.command (port 0#4)]).busy = false ∧
      (State.reset.presenting [.command (port 0#4)]).presented = .command (port 0#4) :: [] ∧
      (decodeCmd (port 0#4)).wf (State.reset.presenting [.command (port 0#4)]).params = true) ∧
    (State.reset.fault = none ∧ State.reset.busy = false ∧ State.reset.presented = []) ∧
    ((running8 (.sendByte false 0x80#8)).fault = none ∧ (running8 (.sendByte false 0x80#8)).busy = true ∧
      (running8 (.sendByte false 0x80#8)).prog[(running8 (.sendByte false 0x80#8)).upc]? = some (.sendByte false 0x80#8) ∧
      encode (.setDdramAddr 0) = .bus9 (byteWord false 0x80#8)) ∧
    ((running8 (.sendNibble false 0x3#4)).fault = none ∧ (running8 (.sendNibble false 0x3#4)).busy = true ∧
      (running8 (.sendNibble false 0x3#4)).prog[(running8 (.sendNibble false 0x3#4)).upc]? = some (.sendNibble false 0x3#4) ∧
      encode .functionSetNibble8bit = .bus5 (nibbleWord false 0x3#4)) := by decide

/-- StepPerformsNextElement: a register write of INIT, a line write, and nothing left of PROG. -/
theorem witness_StepPerformsNextElement :
    ((running8 (.setFsm .ready)).fault = none ∧ (running8 (.setFsm .ready)).busy = true ∧
      (running8 (.setFsm .ready)).prog[(running8 (.setFsm .ready)).upc]? = some (.setFsm .ready)) ∧
    (running8 (.line (.setRS false))).prog[(running8 (.line (.setRS false))).upc]? = some (.line (.setRS false)) ∧
    (running8 .enablePulse).advance.fault = none ∧ (running8 .enablePulse).advance.busy = true ∧
      (running8 .enablePulse).advance.prog[(running8 .enablePulse).advance.upc]? = none := by decide

/-- R196: INIT's write of PoweringOn, one step of its running program, advances `upc` and changes FSM alone. -/
theorem test_step_setFsm :
    seen (fun t => (t.fsm, t.upc, t.busy, t.trace))
      (step { running8 (.setFsm .poweringOn) with fsm := .uninitialized, prog := [.setFsm .poweringOn, instrOp encClear] }) =
        some (.poweringOn, 1, true, []) := by decide

/-- PresentedInitTooWide: INIT with the first address past the space, and with the last one in it. -/
theorem witness_PresentedInitTooWide :
    ((State.reset.presenting [.command tooWide]).fault = none ∧ (State.reset.presenting [.command tooWide]).busy = false ∧
      (State.reset.presenting [.command tooWide]).presented = .command tooWide :: [] ∧
      (decodeCmd tooWide).wf (State.reset.presenting [.command tooWide]).params = false) ∧
    2 ^ Params.standard.addrWidth ≤ 0x10000 ∧ ¬ 2 ^ Params.standard.addrWidth ≤ 0xFFFF := by decide

/-- CommandIsSequencerRun, the empty program: SETCUR out of range. -/
theorem witness_CommandIsSequencerRun_empty :
    programSetcur ready8.params { port 0x1#4 with arg0 := 16 } = [] ∧ ready8.fault = none := by decide

/-- CommandIsSequencerRun: CLEAR's program of two micro-operations, before its first and before its last. -/
theorem witness_CommandIsSequencerRun :
    programClear ready8.params (port 0x9#4) ≠ [] ∧ ready8.fault = none ∧
      (0 < (programClear ready8.params (port 0x9#4)).length ∧
        ∃ t, sequencerRun 0 (ready8.accept (port 0x9#4) programClear) = .next t) ∧
      1 < (programClear ready8.params (port 0x9#4)).length ∧
        ∃ t, sequencerRun 1 (ready8.accept (port 0x9#4) programClear) = .next t := by
  refine ⟨by decide, by decide, ⟨by decide, _, rfl⟩, by decide, ?_⟩
  have c : (ready8.accept (port 0x9#4) programClear).CanDrive := ready8_canDrive.congr rfl rfl rfl rfl rfl
  obtain ⟨u, hu⟩ := perform_ends c (isSetup_instrOp encClear)
  refine ⟨u.advance.completeAtEnd, ?_⟩
  rw [sequencerRun, if_pos (show (ready8.accept (port 0x9#4) programClear).busy = true from rfl),
    sequencerStep_eq rfl (op := instrOp encClear) rfl, hu]
  rfl

/-- StepKeepsInvariants: an initialised engine with the invariants, and a step of it. -/
theorem witness_StepKeepsInvariants : ready8.Inv ∧ ∃ t, step ready8 = .next t := by
  refine ⟨⟨by decide, by decide, by decide, by decide, by decide, fun h => ?_, fun _ => by decide, fun _ => ready8_canDrive,
    fun _ => by decide, fun _ => by decide, fun _ => by decide, by decide⟩, _, rfl⟩
  cases h

theorem witness_ReadyIsTerminal : ready8.busy = false ∧ ready8.fsm = .ready ∧ ∃ t, step ready8 = .next t :=
  ⟨by decide, by decide, _, rfl⟩

/-- HostWriteKeepsEngineBits: the last register of the space, and a register with an engine's bit and a host's bit. -/
theorem witness_HostWriteKeepsEngineBits :
    ((ready8.presenting [.writeReg 0xFFFF 0xFF]).outreg.wf ∧ (ready8.presenting [.writeReg 0xFFFF 0xFF]).fault = none ∧
      (ready8.presenting [.writeReg 0xFFFF 0xFF]).busy = false ∧
      (ready8.presenting [.writeReg 0xFFFF 0xFF]).presented = .writeReg 0xFFFF 0xFF :: [] ∧
      0xFFFF < 2 ^ (ready8.presenting [.writeReg 0xFFFF 0xFF]).params.addrWidth) ∧
    (ready4 0xC0).outreg.wf ∧ (ready4 0xC0).fault = none ∧ (ready4 0xC0).busy = false ∧
      ((ready4 0xC0).presenting [.writeReg 0x40 0xFF]).presented = .writeReg 0x40 0xFF :: [] ∧
      ((ready4 0xC0).ownedBits 0x40).testBit 5 = true ∧ ((ready4 0xC0).ownedBits 0x40).testBit 7 = false := by decide

end Sys2Proof.Tests.Slice0
end

section
/-!
INIT's admissibility (R193, R12, R9): what each part of `initAdmissible` says, and their conjunction.
-/

namespace Sys2Proof.Machine

/-- R193(b): two PinRefs differ exactly if their pairs (address, mask) do. -/
theorem PinRef.ne_iff_pair_ne {a b : PinRef} : a ≠ b ↔ (a.addr, a.mask) ≠ (b.addr, b.mask) := by
  cases a
  cases b
  simp

theorem lineOffData_iff {pin : PinRef} {port : Nat} {w8 : Bool} :
    lineOffData pin port w8 = true ↔ (pin.addr = port → w8 = false ∧ pin.mask &&& 0xF = 0) := by
  simp only [lineOffData, Bool.or_eq_true, bne_iff_ne, Bool.and_eq_true, Bool.not_eq_true', beq_iff_eq]
  exact imp_iff_not_or.symm

theorem timingOk_iff {p : Params} :
    timingOk p = true ↔
      15 ≤ p.tPowerOnMs ∧ 4100 ≤ p.tWake1Us ∧ 100 ≤ p.tWake2Us ∧ 1 ≤ p.tSetupUs ∧ 1 ≤ p.tPulseUs ∧ 45 ≤ p.tSettleUs ∧
        5 ≤ p.tLongMs := by
  simp only [timingOk, Bool.and_eq_true, decide_eq_true_eq, and_assoc]

theorem rangesOk_iff {p : Params} :
    rangesOk p = true ↔ 0 < p.coreClockHz ∧ 0 < p.timerWidth ∧ 8 ≤ p.portWidth ∧ 0 < p.addrWidth := by
  simp only [rangesOk, Bool.and_eq_true, decide_eq_true_eq, and_assoc]

/-- Settles O31: `initAdmissible` is a conjunction, and each conjunct says its part of R193, R12 or R9. -/
theorem admissibleOperands : Obligations.AdmissibleOperands := by
  intro p rs en port w8
  simp only [initAdmissible, paramsOk, Bool.and_eq_true, isOneBit_iff, bne_iff_ne, PinRef.ne_iff_pair_ne, lineOffData_iff,
    timingOk_iff, rangesOk_iff, List.forall_mem_cons, List.not_mem_nil, false_implies, implies_true, true_and, and_assoc]

end Sys2Proof.Machine
end

section
/-!
The step and the sequencer: a host command's meaning begins with acceptance's check, and nothing else refuses (R39, R192, R266);
what a step of a running and of an idle engine is (R40); and a command's one step as the sequencer's run of its program (R41).
-/

namespace Sys2Proof.Machine

/-- R100: the decoder of the command port answers commands alone. -/
theorem isCommand_decodeCmd (c : Command) : isCommand (decodeCmd c) = true := by
  unfold decodeCmd
  split <;> rfl

/-- Every host command begins with acceptance's check of FAULT and BUSY (R192). -/
theorem exec_command {i : Instr} (hi : isCommand i = true) : ∃ o : State → Result, ∀ s, exec i s = whenIdle s (o s) := by
  cases i with
  | init rs en port w8 => exact ⟨_, fun _ => rfl⟩
  | setcur col row => exact ⟨_, fun _ => rfl⟩
  | putc b => exact ⟨_, fun _ => rfl⟩
  | print text => exact ⟨_, fun _ => rfl⟩
  | scrl => exact ⟨_, fun _ => rfl⟩
  | scrr => exact ⟨_, fun _ => rfl⟩
  | curon arg0 => exact ⟨_, fun _ => rfl⟩
  | curoff => exact ⟨_, fun _ => rfl⟩
  | glyph index pattern => exact ⟨_, fun _ => rfl⟩
  | clear => exact ⟨_, fun _ => rfl⟩
  | home => exact ⟨_, fun _ => rfl⟩
  | reservedB => exact ⟨_, fun _ => rfl⟩
  | reservedC => exact ⟨_, fun _ => rfl⟩
  | reservedD => exact ⟨_, fun _ => rfl⟩
  | reservedE => exact ⟨_, fun _ => rfl⟩
  | reservedF => exact ⟨_, fun _ => rfl⟩
  | _ => cases hi

/-- R266: a command executed while BUSY = 1 is refused. -/
theorem exec_command_of_busy {i : Instr} (hi : isCommand i = true) {s : State} (hf : s.fault = none) (hb : s.busy = true) :
    exec i s = .refused .commandWhileBusy := by
  obtain ⟨o, ho⟩ := exec_command hi
  simp [ho, whenIdle, hf, hb]

theorem accessing_ne_refused (s t : State) (addr : Nat) (r : Refusal) : accessing s addr t ≠ .refused r := by
  unfold accessing
  split <;> simp

theorem waiting_ne_refused (s : State) (p n : Nat) (e : Event) (r : Refusal) : waiting p n e s ≠ .refused r := by
  unfold waiting
  split <;> simp

theorem drive_ne_refused (e : Event) (s : State) (r : Refusal) : drive e s ≠ .refused r := by
  cases e with
  | setRS b => exact accessing_ne_refused _ _ _ _
  | setE b => exact accessing_ne_refused _ _ _ _
  | bus8 v => exact accessing_ne_refused _ _ _ _
  | bus4 n => exact accessing_ne_refused _ _ _ _
  | waitUs n => exact waiting_ne_refused _ _ _ _ _
  | waitMs n => exact waiting_ne_refused _ _ _ _ _

/-- A refusal of a chain is a refusal of one of its parts. -/
theorem andThen_eq_refused {o : Result} {f : State → Result} {r : Refusal} :
    andThen o f = .refused r ↔ o = .refused r ∨ ∃ t, o = .next t ∧ f t = .refused r := by
  cases o <;> simp

theorem driveAll_ne_refused (es : List Event) (s : State) (r : Refusal) : driveAll es s ≠ .refused r := by
  induction es generalizing s with
  | nil => simp [driveAll]
  | cons e es ih =>
    intro h
    obtain h | ⟨t, -, h⟩ := andThen_eq_refused.mp h
    · exact drive_ne_refused e s r h
    · exact ih t h

/-- No micro-operation is refused. -/
theorem perform_ne_refused (op : MicroOp) (s : State) (r : Refusal) : perform op s ≠ .refused r :=
  driveAll_ne_refused _ _ r

/-- A command's meaning is no transfer's: a transfer runs while BUSY = 1, where a command is refused. -/
theorem exec_command_not_transfer {i : Instr} (hi : isCommand i = true) (op : MicroOp) :
    ¬ ∀ s, exec i s = transfer op s := by
  intro h
  have hx := h { State.reset with busy := true }
  rw [exec_command_of_busy hi rfl rfl, transfer_eq rfl] at hx
  exact perform_ne_refused _ _ _ hx.symm

/-- Latching the operation code a command has already changes nothing. -/
theorem withOp_self {c : Command} {op : CmdOp} (h : c.op = op) : { c with op := op } = c := by
  rw [← h]

/-- Settles O2: the decoder takes the operation code and the fields the command names, and latching puts each back where it was. -/
theorem presentedCommandIsLatchedWhole : Obligations.PresentedCommandIsLatchedWhole := by
  intro c
  unfold decodeCmd
  split
  case h_16 =>
    have hop : c.op = 0xF#4 := by
      simp only [imp_false] at *
      bv_omega
    exact withOp_self hop
  all_goals exact withOp_self ‹c.op = _›

/-- Settles O27: each of the four shapes of a meaning asks FAULT first. -/
theorem faultedEngineTakesNoStep : Obligations.FaultedEngineTakesNoStep := by
  refine ⟨rfl, fun s r hf => ⟨by simp [step, engineStep, hf], fun i => ?_⟩⟩
  have hw : ∀ o, whenIdle s o = .fault (.halted r) := fun o => by simp [whenIdle, hf]
  rcases exec_shape i with ⟨rs, en, port, w8, rfl⟩ | ⟨program, hd⟩ | ⟨op, hx⟩ | ⟨op, -, hx⟩
  · exact hw _
  · exact (hd.exec s).trans (hw _)
  · exact (hx s).trans (hw _)
  · simp [hx, transfer, hf]

/-- A step of a running engine that has not faulted is a sequencer step (R40). -/
theorem step_of_busy {s : State} (hf : s.fault = none) (hb : s.busy = true) : step s = sequencerStep s := by
  simp [step, engineStep, hf, hb]

/-- A step of an idle engine that has not faulted is the host's next move. -/
theorem step_of_idle {s : State} (hf : s.fault = none) (hb : s.busy = false) : step s = hostStep s := by
  simp [step, engineStep, hf, hb]

/-- A sequencer step with nothing left of PROG ends BUSY (R40). -/
theorem sequencerStep_of_none {s : State} (h : s.prog[s.upc]? = none) : sequencerStep s = .next s.complete := by
  simp [sequencerStep, h]

/-- No sequencer step is refused. -/
theorem sequencerStep_ne_refused {s : State} (hf : s.fault = none) (r : Refusal) : sequencerStep s ≠ .refused r := by
  cases hop : s.prog[s.upc]? with
  | none => simp [sequencerStep_of_none hop]
  | some op =>
    rw [sequencerStep_eq hf hop, Ne, andThen_eq_refused]
    simp [perform_ne_refused]

/-- Settles O33: acceptance's check refuses the command, and the step of a running engine is the sequencer's, which refuses
nothing. -/
theorem noCommandWhileBusy : Obligations.NoCommandWhileBusy := by
  intro s i hf hb hi
  refine ⟨exec_command_of_busy hi hf hb, ?_⟩
  rw [step_of_busy hf hb]
  exact sequencerStep_ne_refused hf _

/-- A sequencer step with an element left performs it, advances `upc`, and leaves BUSY 1 exactly if elements are left (R40). -/
theorem sequencerStep_of_some {s : State} (hf : s.fault = none) (hb : s.busy = true) {op : MicroOp}
    (h : s.prog[s.upc]? = some op) :
    sequencerStep s =
      andThen (perform op s) fun t => .next { t with upc := s.upc + 1, busy := decide (s.upc + 1 < s.prog.length) } := by
  rw [sequencerStep_eq hf h]
  cases ho : perform op s with
  | next t =>
    have k := perform_keeps ho
    simp only [andThen_next, advance_completeAtEnd (k.busy.trans hb), k.upc, k.prog]
  | fault r => rfl
  | refused r => rfl

/-- Settles O50: the step's branch of each clause; a transfer fetched from PROG is its row's meaning by `exec_of_bus9` and
`exec_of_bus5`. -/
theorem stepRunsDecodedInstruction : Obligations.StepRunsDecodedInstruction := by
  refine ⟨fun s c rest hf hb hp hw => ?_, fun s hf hb hp => ?_, fun s i rs b hf hb hop hi => ?_,
    fun s i rs n hf hb hop hi => ?_⟩
  · simp [step_of_idle hf hb, hostStep, hp, hw]
  · simp [step_of_idle hf hb, hostStep, hp]
  · rw [step_of_busy hf hb, sequencerStep_eq hf hop, exec_of_bus9 hi, transfer_eq hf]
  · rw [step_of_busy hf hb, sequencerStep_eq hf hop, exec_of_bus5 hi, transfer_eq hf]

/-- Settles O51: a step of a running engine is the sequencer's, with an element left or with none. -/
theorem stepPerformsNextElement : Obligations.StepPerformsNextElement := by
  refine ⟨fun s hf hb => ?_, fun s => ⟨fun f => rfl, rfl⟩⟩
  rw [step_of_busy hf hb]
  exact ⟨rfl, fun op hop => sequencerStep_of_some hf hb hop, fun hop => sequencerStep_of_none hop⟩

/-! ### A command as a run of the sequencer -/

/-- No sequencer step is made once BUSY is 0. -/
theorem sequencerRun_of_idle {s : State} (hb : s.busy = false) (n : Nat) : sequencerRun n s = .next s := by
  cases n <;> simp [sequencerRun, hb]

theorem sequencerRun_succ {s : State} (hb : s.busy = true) (n : Nat) :
    sequencerRun (n + 1) s = andThen (sequencerStep s) (sequencerRun n) := by
  simp [sequencerRun, hb]

theorem completeAtEnd_of_lt {s : State} (h : s.upc < s.prog.length) : s.completeAtEnd = s := by
  simp [State.completeAtEnd, Nat.not_le.mpr h]

theorem completeAtEnd_of_eq {s : State} (h : s.upc = s.prog.length) : s.completeAtEnd = s.complete := by
  simp [State.completeAtEnd, h]

/-- What is left of PROG, run in one step, is one sequencer step for each element (R41). -/
theorem runOps_eq_sequencerRun {s : State} {pre ops : List MicroOp} (hf : s.fault = none) (hb : s.busy = true)
    (hp : s.prog = pre ++ ops) (hu : s.upc = pre.length) : runOps ops s = sequencerRun ops.length s.completeAtEnd := by
  induction ops generalizing s pre with
  | nil => rw [completeAtEnd_of_eq (by simp [hp, hu])]; rfl
  | cons op ops ih =>
    have hop : s.prog[s.upc]? = some op := by simp [hp, hu]
    rw [completeAtEnd_of_lt (by simp [hp, hu]), List.length_cons, sequencerRun_succ hb, sequencerStep_eq hf hop, runOps,
      andThen_assoc]
    cases ho : perform op s with
    | next t =>
      have k := perform_keeps ho
      exact ih (s := t.advance) (pre := pre ++ [op]) (k.fault.trans hf) (k.busy.trans hb) (by simp [k.prog, hp])
        (by simp [k.upc, hu])
    | fault r => rfl
    | refused r => rfl

/-- A run of the sequencer that ends before the program's end leaves BUSY 1 and has advanced `upc` once a step (R40). -/
theorem sequencerRun_running {s t : State} {k : Nat} (hf : s.fault = none) (hb : s.busy = true)
    (hk : s.upc + k < s.prog.length) (h : sequencerRun k s = .next t) : t.busy = true ∧ t.upc = s.upc + k := by
  induction k generalizing s with
  | zero => cases h; exact ⟨hb, rfl⟩
  | succ k ih =>
    have hop : s.prog[s.upc]? = some (s.prog[s.upc]'(by omega)) := List.getElem?_eq_getElem _
    rw [sequencerRun_succ hb, sequencerStep_of_some hf hb hop] at h
    obtain ⟨v, hv, h⟩ := andThen_eq_next.mp h
    obtain ⟨u, hu, hv⟩ := andThen_eq_next.mp hv
    cases hv
    obtain ⟨tb, tu⟩ := ih (s := { u with upc := s.upc + 1, busy := decide (s.upc + 1 < s.prog.length) })
      ((perform_keeps hu).fault.trans hf) (decide_eq_true (by omega)) (by simp only [(perform_keeps hu).prog]; omega) h
    exact ⟨tb, tu.trans (Nat.succ_add_eq_add_succ _ _)⟩

/-- Settles O53: the one step and the sequencer's run perform the same elements in the same order; with none left both end at
once. -/
theorem commandIsSequencerRun : Obligations.CommandIsSequencerRun := by
  intro s c program hf
  refine ⟨fun hne => ⟨?_, fun k t hk h => ?_⟩, fun he => ⟨?_, fun n hn => ?_⟩⟩
  · have := runOps_eq_sequencerRun (s := s.accept c program) (pre := []) (ops := program s.params c) hf rfl rfl rfl
    rwa [completeAtEnd_of_lt (List.length_pos_of_ne_nil hne)] at this
  · simpa using sequencerRun_running (s := s.accept c program) hf rfl (by simpa using hk) h
  · simp [runProgram, he, runOps, State.complete, State.accept]
  · obtain ⟨m, rfl⟩ := Nat.exists_eq_add_one.mpr hn
    rw [sequencerRun_succ rfl, sequencerStep_of_none (by simp [he]), andThen_next, sequencerRun_of_idle rfl]
    simp [State.complete, State.accept, he]

end Sys2Proof.Machine
end

section
/-!
The invariants of a run, `State.Inv`: each of the host's moves keeps them, with what the move can do taken from the laws.
-/

namespace Sys2Proof.Machine

/-! ### The host's moves -/

/-- All that a step of an idle engine can do. -/
inductive HostStepNext (s t : State) : Prop where
  | idle (h : t = s)
  | wrote (a v : Nat) (u : State) (hw : hostWrite a v s = .next u) (h : t = u.consume)
  | ran (c : Command) (u : State) (hw : (decodeCmd c).wf s.params = true) (he : exec (decodeCmd c) s = .next u)
      (h : t = u.consume)

theorem step_next_of_idle {s t : State} (hb : s.busy = false) (h : step s = .next t) : HostStepNext s t := by
  have hf : s.fault = none := by
    cases hf : s.fault with
    | none => rfl
    | some r => simp [step, engineStep, hf] at h
  rw [step_of_idle hf hb, hostStep] at h
  split at h
  · cases h; exact .idle rfl
  · obtain ⟨u, hw, h⟩ := andThen_eq_next.mp h
    cases h; exact .wrote _ _ u hw rfl
  · split at h
    · obtain ⟨u, he, h⟩ := andThen_eq_next.mp h
      cases h; exact .ran _ u ‹_› he rfl
    · cases h

/-- The value a host write leaves in the register: the engine's bits as they are, the others the host's (R43). -/
def State.hostValue (s : State) (a v : Nat) : Nat :=
  clearBits v (s.ownedBits a) ||| (s.memRead a &&& s.ownedBits a)

theorem hostWrite_eq_next {s t : State} {a v : Nat} :
    hostWrite a v s = .next t ↔ a < 2 ^ s.params.addrWidth ∧ t = s.memWrite a (s.hostValue a v) := accessing_eq_next

theorem memRead_hostWrite {s : State} (w : s.outreg.wf) (a v : Nat) {b k : Nat} (hk : k < s.params.portWidth) :
    ((s.memWrite a (s.hostValue a v)).memRead b).testBit k =
      if b = a ∧ (s.ownedBits a).testBit k = false then v.testBit k else (s.memRead b).testBit k := by
  rw [memRead_memWrite w]
  by_cases hb : b = a
  · subst hb
    simp only [if_true, true_and, Nat.testBit_mod_two_pow, hk, decide_true, Bool.true_and, State.hostValue, Nat.testBit_or,
      testBit_clearBits, Nat.testBit_and]
    cases (s.ownedBits b).testBit k <;> simp
  · simp [hb]

/-- Settles O59: the step writes `State.hostValue` to the one register, whose bits are `memRead_hostWrite`. -/
theorem hostWriteKeepsEngineBits : Obligations.HostWriteKeepsEngineBits := by
  intro s a v rest w hf hb hp ha
  refine ⟨(s.memWrite a (s.hostValue a v)).consume, ?_, by simp [hp], rfl, fun b hne => ?_, fun k hk => ?_⟩
  · rw [step_of_idle hf hb, hostStep, hp]
    exact andThen_eq_next.mpr ⟨_, hostWrite_eq_next.mpr ⟨ha, rfl⟩, rfl⟩
  · exact (memRead_memWrite w a _ b).trans (if_neg hne)
  · refine (memRead_hostWrite w a v hk).trans ?_
    cases (s.ownedBits a).testBit k <;> simp

/-- In an admissible configuration a host write in Ready leaves the Enable line (R43). -/
theorem hostWrite_lineE {s : State} (w : s.outreg.wf) (hr : s.fsm = .ready)
    (hc : initAdmissible s.params s.cfgRS s.cfgEN s.cfgPort s.cfgW8 = true) (a v : Nat) :
    (s.memWrite a (s.hostValue a v)).lineE = s.lineE := by
  obtain ⟨kr, ke, la⟩ := linesApart_of_admissible hc
  have la' : LinesApart (s.memWrite a (s.hostValue a v)) kr ke :=
    ⟨la.rsMask, la.enMask, la.rsIn, la.enIn, la.apart, la.rsOff, la.enOff⟩
  rw [lineE_eq la, lineE_eq la', memWrite_cfgEN, memRead_hostWrite w a v la.enIn, if_neg]
  rintro ⟨rfl, ho⟩
  simp [State.ownedBits, hr, testBit_engineBits, la.enMask] at ho

/-! ### The configuration in Ready -/

/-- An instruction leaves the FSM and the configuration of an engine in Ready as they are. -/
theorem exec_keeps_ready {i : Instr} {s t : State} (hr : s.fsm = .ready) (h : exec i s = .next t) :
    t.fsm = .ready ∧ t.cfgRS = s.cfgRS ∧ t.cfgEN = s.cfgEN ∧ t.cfgPort = s.cfgPort ∧ t.cfgW8 = s.cfgW8 := by
  obtain ⟨-, ⟨r, -, rfl⟩ | ⟨program, -, -, -, -, e⟩ | ⟨rs, en, port, w8, -, -, hu, -, -⟩ | ⟨op, ht, hp⟩⟩ := exec_next h
  · exact ⟨hr, rfl, rfl, rfl, rfl⟩
  · have d := e.drives
    exact ⟨e.fsm.trans hr, d.cfgRS, d.cfgEN, d.cfgPort, d.cfgW8⟩
  · rw [hr] at hu; cases hu
  · obtain ⟨d, -, -, -, hfsm⟩ := perform_drives ht.noSetup hp
    exact ⟨(hfsm.trans (ht.fsm _)).trans hr, d.cfgRS, d.cfgEN, d.cfgPort, d.cfgW8⟩

/-- Settles O57: a host write touches OUTREG alone, and no instruction moves an engine out of Ready. -/
theorem readyIsTerminal : Obligations.ReadyIsTerminal := by
  intro s t hb hr h
  rcases step_next_of_idle hb h with rfl | ⟨a, v, u, hw, rfl⟩ | ⟨c, u, -, he, rfl⟩
  · exact ⟨hr, rfl, rfl, rfl, rfl⟩
  · obtain ⟨-, rfl⟩ := hostWrite_eq_next.mp hw
    exact ⟨hr, rfl, rfl, rfl, rfl⟩
  · exact exec_keeps_ready (t := u) hr he

/-! ### The invariants -/

/-- Settles O56: the fields of `State.reset`. -/
theorem resetValues : Obligations.ResetValues := ⟨rfl, rfl, rfl, rfl, rfl, rfl, rfl⟩

/-- Settles O55: before INIT the clauses about Ready are empty. -/
theorem resetHasInvariants : Obligations.ResetHasInvariants where
  memWf := reset_memory_wf
  memFits := by simp [State.reset]
  idle := rfl
  atEnd := rfl
  fsmRest := .inl rfl
  quiet := fun _ => rfl
  configured := nofun
  drives := nofun
  enableLow := nofun
  traceStrobed := nofun
  traceSettled := nofun
  timerFits := by decide

/-- The invariants do not speak of the host's moves to come. -/
theorem State.Inv.consume {s : State} (h : s.Inv) : s.consume.Inv :=
  ⟨h.memWf, h.memFits, h.idle, h.atEnd, h.fsmRest, h.quiet, h.configured,
    fun hr => (h.drives hr).congr rfl rfl rfl rfl rfl, h.enableLow, h.traceStrobed, h.traceSettled, h.timerFits⟩

/-- The invariants do not speak of FAULT. -/
theorem State.Inv.raise {s : State} (h : s.Inv) (r : FaultReason) : (s.raise r).Inv :=
  ⟨h.memWf, h.memFits, h.idle, h.atEnd, h.fsmRest, h.quiet, h.configured,
    fun hr => (h.drives hr).congr rfl rfl rfl rfl rfl, h.enableLow, h.traceStrobed, h.traceSettled, h.timerFits⟩

/-- A host write keeps the invariants. -/
theorem State.Inv.hostWrite {s t : State} (h : s.Inv) {a v : Nat} (hw : hostWrite a v s = .next t) : t.Inv := by
  obtain ⟨ha, rfl⟩ := hostWrite_eq_next.mp hw
  exact ⟨memWrite_wf h.memWf _ _, memWrite_fits h.memFits ha _, h.idle, h.atEnd, h.fsmRest, h.quiet, h.configured,
    fun hr => (h.drives hr).congr rfl rfl rfl rfl rfl,
    fun hr => (hostWrite_lineE h.memWf hr (h.configured hr) a v).trans (h.enableLow hr),
    h.traceStrobed, h.traceSettled, h.timerFits⟩

/-- What a run of a micro-program starts from so that it can end in Ready with the invariants: a configured engine between
pulses. -/
structure State.Primed (s : State) : Prop where
  memWf : s.outreg.wf
  memFits : s.outreg.fits s.params
  configured : initAdmissible s.params s.cfgRS s.cfgEN s.cfgPort s.cfgW8 = true
  drives : s.CanDrive
  traceStrobed : strobed s.params s.cfgW8 s.trace = true
  traceSettled : phaseAfter s.params .free s.trace = .free
  timerFits : s.timer.current ≤ s.timer.reload ∧ s.timer.reload < 2 ^ s.params.timerWidth

/-- In Ready the engine is primed for the next command. -/
theorem State.Inv.primed {s : State} (h : s.Inv) (hr : s.fsm = .ready) (c : Command) : State.Primed { s with latch := c } :=
  ⟨h.memWf, h.memFits, h.configured hr, (h.drives hr).congr rfl rfl rfl rfl rfl, h.traceStrobed hr, h.traceSettled hr,
    h.timerFits⟩

theorem paramsOk_of_admissible {p : Params} {rs en : PinRef} {port : Nat} {w8 : Bool}
    (h : initAdmissible p rs en port w8 = true) : paramsOk p = true := by
  simp only [initAdmissible, Bool.and_eq_true] at h
  exact h.2

theorem wf_init_iff {p : Params} {rs en : PinRef} {port : Nat} {w8 : Bool} :
    (Instr.init rs en port w8).wf p = true ↔
      rs.addr < 2 ^ p.addrWidth ∧ en.addr < 2 ^ p.addrWidth ∧ port < 2 ^ p.addrWidth := by
  simp only [Instr.wf, Params.hasAddr, Bool.and_eq_true, decide_eq_true_eq, and_assoc]

/-- INIT's step 1 primes the engine for the rest of INIT (R195). -/
theorem State.Inv.primed_init {s : State} (h : s.Inv) {rs en : PinRef} {port : Nat} {w8 : Bool}
    (a : s.AcceptsInit rs en port w8) :
    State.Primed (initConfigured s (Instr.onPort s.commandPort (.init rs en port w8))) := by
  obtain ⟨hrs, hen, hport⟩ := wf_init_iff.mp a.fits
  have ht : s.trace = [] := h.quiet a.uninitialized
  exact {
    memWf := h.memWf
    memFits := h.memFits
    configured := a.admissible
    drives := initConfigured_canDrive (paramsOk_of_admissible a.admissible) hrs hen hport
    traceStrobed := by simp [initConfigured, ht, strobed, alternates, pulsesExact, linesHeld, setupKept, widthKept]
    traceSettled := by simp [initConfigured, ht, phaseAfter]
    timerFits := ⟨Nat.zero_le _, Nat.sub_one_lt (Nat.two_pow_pos _).ne'⟩ }

/-- Driving segments from a primed engine to one that rests in Ready, E low, gives the invariants. -/
theorem State.Primed.inv {s t : State} {es : List Event} (h : s.Primed) (d : Drives s es t)
    (g : Segment s.params s.cfgW8 es) (hb : t.busy = false) (hu : t.upc = t.prog.length) (hr : t.fsm = .ready)
    (hE : t.lineE = false) : t.Inv := by
  obtain ⟨strobed, settled⟩ := strobed_append h.traceStrobed h.traceSettled g
  exact {
    memWf := d.wf h.memWf
    memFits := by rw [d.params]; exact d.fits h.memFits
    idle := hb
    atEnd := hu
    fsmRest := .inr hr
    quiet := fun hn => by rw [hr] at hn; cases hn
    configured := fun _ => by rw [d.params, d.cfgRS, d.cfgEN, d.cfgPort, d.cfgW8]; exact h.configured
    drives := fun _ => d.canDrive h.drives
    enableLow := fun _ => hE
    traceStrobed := fun _ => by rw [d.params, d.cfgW8, d.trace]; exact strobed
    traceSettled := fun _ => by rw [d.params, d.trace]; exact settled
    timerFits := by rw [d.params]; exact d.timerFits h.timerFits }

/-- An accepted display command keeps the invariants. -/
theorem State.Inv.displayed {s t : State} (h : s.Inv) {c : Command} {program : Params → Command → List MicroOp}
    (hp : onlyTransfers (program s.params c)) (hr : s.fsm = .ready)
    (hrun : runOps (program s.params c) (s.accept c program) = .next t) : t.Inv := by
  have e := runAccepted_displayed hp hrun
  refine (h.primed hr c).inv e.drives (Segment.transfers (pulseWaits_of_admissible (h.configured hr)) hp) e.busy
    (by rw [e.upc, e.prog]) (e.fsm.trans hr) ?_
  exact runAccepted_enableLow (h.configured hr) h.memWf hp hrun (h.enableLow hr)

/-- An accepted INIT gives the invariants of Ready. -/
theorem State.Inv.initialised {s t : State} (h : s.Inv) {rs en : PinRef} {port : Nat} {w8 : Bool}
    (a : s.AcceptsInit rs en port w8) (he : execInit rs en port w8 s = .next t)
    (e : Initialised s (Instr.onPort s.commandPort (.init rs en port w8)) t) : t.Inv := by
  obtain ⟨t', ht', effect⟩ := execInit_effect a
  obtain rfl : t' = t := Host.Outcome.next.inj (ht'.symm.trans he)
  exact (h.primed_init a).inv e.drives (Segment.initRest (pulseWaits_of_admissible a.admissible) w8) e.busy
    (by rw [e.upc, e.prog]) e.fsm effect.enableLow

/-- Every command keeps the invariants, whatever it does. -/
theorem State.Inv.command {s t : State} (h : s.Inv) {i : Instr} (hi : isCommand i = true) (hw : i.wf s.params = true)
    (he : exec i s = .next t) : t.Inv := by
  rcases exec_shape i with ⟨rs, en, port, w8, rfl⟩ | ⟨program, hd⟩ | ⟨op, hx⟩ | ⟨op, -, hx⟩
  · obtain ⟨hf, hb, ⟨-, rfl⟩ | ⟨-, -, rfl⟩ | ⟨ha, hu, hE, e⟩⟩ := execInit_cases he
    · exact h.raise _
    · exact h.raise _
    · exact h.initialised ⟨hf, hb, hu, ha, hw, hE, h.memWf⟩ he e
  · obtain ⟨-, -, ⟨-, rfl⟩ | ⟨hr, hrun⟩⟩ := displayCommand_cases ((hd.exec s).symm.trans he)
    · exact h.raise _
    · exact h.displayed (hd.transfers _ _) hr hrun
  · obtain ⟨-, -, rfl⟩ := reservedCommand_eq_next.mp ((hx s).symm.trans he)
    exact h.raise _
  · exact absurd hx (exec_command_not_transfer hi op)

/-- Settles O54: with the invariants the engine is idle, so the step is the host's next move, and each move keeps them. -/
theorem stepKeepsInvariants : Obligations.StepKeepsInvariants := by
  intro s t h hstep
  rcases step_next_of_idle h.idle hstep with rfl | ⟨a, v, u, hw, rfl⟩ | ⟨c, u, hw, he, rfl⟩
  · exact h
  · exact (h.hostWrite hw).consume
  · exact (h.command (isCommand_decodeCmd c) hw he).consume

end Sys2Proof.Machine
end

section
/-!
Driving a segment, and INIT one sequencer step after another: which value FSM has and which events stand after each element of its
program (R36, R191).
-/

namespace Sys2Proof.Machine

/-! ### The lines after a transfer -/

/-- A segment of the interface's width is driven to its end, and each line carries what was written to it last. -/
theorem driveAll_segment_lines {s : State} {es : List Event} (c : s.CanDrive) (w : s.outreg.wf)
    (hc : initAdmissible s.params s.cfgRS s.cfgEN s.cfgPort s.cfgW8 = true) (g : Segment s.params s.cfgW8 es) :
    ∃ t, driveAll es s = .next t ∧ LinesFollow s es t := by
  obtain ⟨kr, ke, la⟩ := linesApart_of_admissible hc
  obtain ⟨t, ht⟩ := driveAll_ends c es
  have hw : widthKept s.cfgW8 es = true := by simpa [widthKept] using g.width []
  exact ⟨t, ht, driveAll_lines la w (portWidth_of_admissible hc) hw ht⟩

/-- Settles O19: a row is driven as the segment of its transfer, which writes RS, E and the data lines as the statement says. -/
theorem linesAfterTransfer : Obligations.LinesAfterTransfer := by
  intro s i hf c w hc
  have pw := pulseWaits_of_admissible hc
  refine ⟨fun rs b hi => ?_, fun rs n hi h4 => ?_⟩
  · obtain ⟨t, ht, l⟩ := driveAll_segment_lines c w hc (Segment.byte pw s.cfgW8 rs b)
    refine ⟨t, by rw [exec_of_bus9 hi, transfer_eq hf]; exact ht, l.rs.trans (lastRS_byte _ _ _ _ _ pw),
      l.enable.trans (lastE_byte pw _ _ _ _), fun h8 => ?_, fun h4 => ?_⟩
    · rw [l.data8 h8, h8, lastByte_byte]
    · rw [l.data4 h4, h4, lastNibble_byte]; rfl
  · obtain ⟨t, ht, l⟩ := driveAll_segment_lines c w hc (h4 ▸ Segment.nibble pw rs n)
    exact ⟨t, by rw [exec_of_bus5 hi, transfer_eq hf]; exact ht, l.rs.trans (lastRS_nibble _ pw _ _),
      l.enable.trans (lastE_nibble pw _ _ _), (l.data4 h4).trans (lastNibble_nibble _ _ _ _)⟩

/-! ### The parts of INIT's program, each ending with its write of FSM -/

/-- Step 2 before its write of FSM (R196). -/
def initPowerOnBody (p : Params) : List MicroOp := .line (.setRS false) :: waitMsOps p.tPowerOnMs

/-- Steps 3 to 5 before their write of FSM (R197 to R199). -/
def initWakeUpBody (p : Params) (w8 : Bool) : List MicroOp :=
  initWakeUp p w8 ++ initSwitch w8 ++ [instrOp (encFunctionSet w8 true false)]

/-- Steps 6 and 7 before their write of FSM (R200, R201). -/
def initDisplayBody : List MicroOp := initDisplay ++ [instrOp (encSetDdram 0)]

/-- INIT after step 1 is three parts, each ending with its write of FSM (R191). -/
theorem initRest_eq_parts (p : Params) (w8 : Bool) :
    initRest p w8 =
      initPowerOnBody p ++ .setFsm .poweringOn ::
        (initWakeUpBody p w8 ++ .setFsm .configuring :: (initDisplayBody ++ [.setFsm .ready])) := by
  simp [initRest, initPowerOn, initPowerOnBody, initFunctionSet, initWakeUpBody, initHome, initDisplayBody]

theorem initPowerOnBody_events (p : Params) (w8 : Bool) : programEvents p w8 (initPowerOnBody p) = initPowerOnEvents p := by
  rw [← initPowerOn_events p w8]
  simp [initPowerOn, initPowerOnBody, programEvents_append, programEvents_cons]

theorem initWakeUpBody_events (p : Params) (w8 : Bool) :
    programEvents p w8 (initWakeUpBody p w8) = initWakeUpEvents p w8 := by
  rw [← initWakeUp_events]
  simp [initFunctionSet, initWakeUpBody, programEvents_append, programEvents_cons]

theorem initDisplayBody_events (p : Params) (w8 : Bool) : programEvents p w8 initDisplayBody = initDisplayEvents p w8 := by
  rw [← initDisplay_events]
  simp [initHome, initDisplayBody, programEvents_append, programEvents_cons]

/-- No micro-operation of the list writes FSM. -/
def keepsFsm (ops : List MicroOp) : Prop := ∀ op ∈ ops, ∀ f, op.fsmAfter f = f

theorem keepsFsm.fsmAfterAll {ops : List MicroOp} (h : keepsFsm ops) (f : Fsm) : fsmAfterAll f ops = f := by
  induction ops generalizing f with
  | nil => rfl
  | cons op ops ih =>
    show Machine.fsmAfterAll (op.fsmAfter f) ops = f
    rw [h op (by simp)]
    exact ih (fun o ho => h o (by simp [ho])) f

theorem keepsFsm.take {ops : List MicroOp} (h : keepsFsm ops) (j : Nat) : keepsFsm (ops.take j) :=
  fun op hop => h op (List.mem_of_mem_take hop)

theorem keepsFsm_append {ops qs : List MicroOp} (h : keepsFsm ops) (g : keepsFsm qs) : keepsFsm (ops ++ qs) :=
  List.forall_mem_append.mpr ⟨h, g⟩

theorem keepsFsm_cons {op : MicroOp} {ops : List MicroOp} (h : ∀ f, op.fsmAfter f = f) (g : keepsFsm ops) :
    keepsFsm (op :: ops) := List.forall_mem_cons.mpr ⟨h, g⟩

theorem keepsFsm_nil : keepsFsm [] := by simp [keepsFsm]

theorem keepsFsm_waitUsOps (n : Nat) : keepsFsm (waitUsOps n) := by
  unfold waitUsOps
  split
  · exact keepsFsm_nil
  · exact keepsFsm_cons (fun _ => rfl) keepsFsm_nil

theorem keepsFsm_waitMsOps (n : Nat) : keepsFsm (waitMsOps n) := by
  unfold waitMsOps
  split
  · exact keepsFsm_nil
  · exact keepsFsm_cons (fun _ => rfl) keepsFsm_nil

theorem initPowerOnBody_keepsFsm (p : Params) : keepsFsm (initPowerOnBody p) :=
  keepsFsm_cons (fun _ => rfl) (keepsFsm_waitMsOps _)

theorem initWakeUpBody_keepsFsm (p : Params) (w8 : Bool) : keepsFsm (initWakeUpBody p w8) := by
  have hw : ∀ f, (wakeUpOp w8).fsmAfter f = f := by cases w8 <;> exact fun _ => rfl
  have hs : keepsFsm (initSwitch w8) := by
    cases w8
    · exact keepsFsm_cons (fun _ => rfl) keepsFsm_nil
    · exact keepsFsm_nil
  have hwait : ∀ n, keepsFsm (wakeUpOp w8 :: waitUsOps n) := fun n => keepsFsm_cons hw (keepsFsm_waitUsOps n)
  exact keepsFsm_append (keepsFsm_append (keepsFsm_append (keepsFsm_append (hwait _) (hwait _)) (hwait _)) hs)
    (keepsFsm_cons (fun _ => rfl) keepsFsm_nil)

theorem initDisplayBody_keepsFsm : keepsFsm initDisplayBody := by
  intro op hop f
  simp only [initDisplayBody, initDisplay, List.mem_append, List.mem_cons, List.not_mem_nil, or_false] at hop
  rcases hop with (rfl | rfl | rfl | rfl) | rfl <;> rfl

/-! ### The first `j` elements of a program that begins with such a part -/

/-- A part has run with its write of FSM exactly if more than its body has. -/
theorem fsmAfterAll_take_part {body : List MicroOp} (h : keepsFsm body) (g f : Fsm) (rest : List MicroOp) (j : Nat) :
    fsmAfterAll g ((body ++ .setFsm f :: rest).take j) =
      if j < body.length + 1 then g else fsmAfterAll f (rest.take (j - (body.length + 1))) := by
  rw [List.take_append, fsmAfterAll_append, (h.take j).fsmAfterAll]
  split
  · rw [Nat.sub_eq_zero_of_le (by omega)]; rfl
  · rw [show j - body.length = j - (body.length + 1) + 1 by omega]; rfl

/-- Right before and right after its write of FSM a part has emitted its body's events. -/
theorem programEvents_take_part (p : Params) (w8 : Bool) {body : List MicroOp} (f : Fsm) (rest : List MicroOp) {j : Nat}
    (hj : j = body.length ∨ j = body.length + 1) :
    programEvents p w8 ((body ++ .setFsm f :: rest).take j) = programEvents p w8 body := by
  rcases hj with rfl | rfl
  · rw [List.take_left']; rfl
  · rw [List.take_length_add_append, programEvents_append]; simp [programEvents_cons]

/-- After a part the program goes on with the rest. -/
theorem programEvents_take_after_part (p : Params) (w8 : Bool) (body : List MicroOp) (f : Fsm) (rest : List MicroOp) (j : Nat) :
    programEvents p w8 ((body ++ .setFsm f :: rest).take (body.length + 1 + j)) =
      programEvents p w8 body ++ programEvents p w8 (rest.take j) := by
  rw [Nat.add_assoc, List.take_length_add_append, programEvents_append, Nat.add_comm 1 j]
  rfl

/-- FSM after the first `j` elements of INIT after step 1 (R191). -/
theorem fsmAfterAll_take_initRest (p : Params) (w8 : Bool) (f : Fsm) (j : Nat) :
    fsmAfterAll f ((initRest p w8).take j) =
      if j < (initPowerOnBody p).length + 1 then f
      else if j < (initPowerOnBody p).length + 1 + ((initWakeUpBody p w8).length + 1) then .poweringOn
      else if j < (initPowerOnBody p).length + 1 + ((initWakeUpBody p w8).length + 1) + (initDisplayBody.length + 1) then
        .configuring
      else .ready := by
  rw [initRest_eq_parts, fsmAfterAll_take_part (initPowerOnBody_keepsFsm p),
    fsmAfterAll_take_part (initWakeUpBody_keepsFsm p w8), fsmAfterAll_take_part initDisplayBody_keepsFsm, List.take_nil]
  exact if_congr Iff.rfl rfl (if_congr (by omega) rfl (if_congr (by omega) rfl rfl))

/-- The events right before and right after INIT's write of PoweringOn (R196). -/
theorem programEvents_take_poweringOn (p : Params) (w8 : Bool) {j : Nat}
    (hj : j = (initPowerOnBody p).length ∨ j = (initPowerOnBody p).length + 1) :
    programEvents p w8 ((initRest p w8).take j) = initPowerOnEvents p := by
  rw [initRest_eq_parts, programEvents_take_part p w8 _ _ hj, initPowerOnBody_events]

/-- The events right before and right after INIT's write of Configuring (R199). -/
theorem programEvents_take_configuring (p : Params) (w8 : Bool) {j : Nat}
    (hj : j = (initWakeUpBody p w8).length ∨ j = (initWakeUpBody p w8).length + 1) :
    programEvents p w8 ((initRest p w8).take ((initPowerOnBody p).length + 1 + j)) =
      initPowerOnEvents p ++ initWakeUpEvents p w8 := by
  rw [initRest_eq_parts, programEvents_take_after_part, programEvents_take_part p w8 _ _ hj, initPowerOnBody_events,
    initWakeUpBody_events]

/-- The events right before and right after INIT's write of Ready (R201). -/
theorem programEvents_take_ready (p : Params) (w8 : Bool) {j : Nat}
    (hj : j = initDisplayBody.length ∨ j = initDisplayBody.length + 1) :
    programEvents p w8
        ((initRest p w8).take ((initPowerOnBody p).length + 1 + ((initWakeUpBody p w8).length + 1 + j))) =
      initEvents p w8 := by
  rw [initRest_eq_parts, programEvents_take_after_part, programEvents_take_after_part, programEvents_take_part p w8 _ _ hj,
    initPowerOnBody_events, initWakeUpBody_events, initDisplayBody_events, initEvents, List.append_assoc]

/-! ### INIT under the sequencer -/

/-- An accepted INIT after its first element, TIMER_INIT (R195). -/
def initTimed (s : State) (c : Command) : State :=
  { s.accept c programInit with timer := s.timer.init s.params.timerWidth, upc := 1 }

/-- An accepted INIT after step 1, the sequencer's registers included (R195). -/
def initRunning (s : State) (c : Command) : State :=
  { initConfigured s c with fsm := s.fsm, busy := true, prog := programInit s.params c, upc := 2 }

theorem initRest_length (p : Params) (w8 : Bool) :
    (initRest p w8).length =
      (initPowerOnBody p).length + 1 + ((initWakeUpBody p w8).length + 1) + (initDisplayBody.length + 1) := by
  simp only [initRest_eq_parts, List.length_cons, List.length_append, List.length_nil]
  omega

theorem initRest_length_pos (p : Params) (w8 : Bool) : 0 < (initRest p w8).length := by
  rw [initRest_length]; omega

theorem programInit_length (p : Params) (c : Command) : (programInit p c).length = (initRest p c.initW8).length + 2 := by
  rw [programInit_eq]; rfl

theorem sequencerStep_accept_init {s : State} (hf : s.fault = none) (c : Command) :
    sequencerStep (s.accept c programInit) = .next (initTimed s c) := by
  have hop : (s.accept c programInit).prog[(s.accept c programInit).upc]? = some .timerInit := by simp [programInit_eq]
  rw [sequencerStep_of_some (s := s.accept c programInit) hf rfl hop]
  show Host.Outcome.next _ = _
  simp [initTimed, programInit_length, State.accept, MicroOp.writes, State.setTimer]

theorem sequencerStep_initTimed {s : State} (hf : s.fault = none) (c : Command) :
    sequencerStep (initTimed s c) = .next (initRunning s c) := by
  have hop : (initTimed s c).prog[(initTimed s c).upc]? = some .storeConfig := by simp [initTimed, programInit_eq]
  rw [sequencerStep_of_some (s := initTimed s c) hf rfl hop]
  show Host.Outcome.next _ = _
  simp [initTimed, initRunning, initConfigured, programInit_length, initRest_length_pos, State.accept, MicroOp.writes,
    State.storeConfig]

/-- Inside step 1 INIT has emitted nothing and FSM is as before (R195). -/
theorem sequencerRun_init_setup {s : State} (hf : s.fault = none) (c : Command) {k : Nat} (hk : k < 2) :
    ∃ t, sequencerRun k (s.accept c programInit) = .next t ∧ t.upc = k ∧ t.busy = true ∧ t.fsm = s.fsm ∧
      t.trace = s.trace := by
  match k with
  | 0 => exact ⟨_, rfl, rfl, rfl, rfl, rfl⟩
  | 1 =>
    refine ⟨initTimed s c, ?_, rfl, rfl, rfl, rfl⟩
    rw [sequencerRun_succ rfl, sequencerStep_accept_init hf]
    rfl

theorem sequencerRun_init_after_setup {s : State} (hf : s.fault = none) (c : Command) (j : Nat) :
    sequencerRun (j + 2) (s.accept c programInit) = sequencerRun j (initRunning s c) := by
  rw [sequencerRun_succ rfl, sequencerStep_accept_init hf, andThen_next, sequencerRun_succ rfl, sequencerStep_initTimed hf,
    andThen_next]

/-- An accepted INIT steps through any first elements of what follows step 1. -/
theorem sequencerRun_init_stepped {s : State} {rs en : PinRef} {port : Nat} {w8 : Bool} (a : s.AcceptsInit rs en port w8)
    {j : Nat} (hj : j ≤ (initRest s.params w8).length) :
    ∃ t, sequencerRun (j + 2) (s.accept (Instr.onPort s.commandPort (.init rs en port w8)) programInit) = .next t ∧
      Stepped (initRunning s (Instr.onPort s.commandPort (.init rs en port w8))) ((initRest s.params w8).take j) t := by
  obtain ⟨hrs, hen, hport⟩ := wf_init_iff.mp a.fits
  have c := initConfigured_canDrive (c := Instr.onPort s.commandPort (.init rs en port w8))
    (paramsOk_of_admissible a.admissible) hrs hen hport
  have hp : (initRunning s (Instr.onPort s.commandPort (.init rs en port w8))).prog =
      [.timerInit, .storeConfig] ++ (initRest s.params w8).take j ++ (initRest s.params w8).drop j := by
    rw [List.append_assoc, List.take_append_drop]
    exact programInit_eq _ _
  obtain ⟨t, ht, st⟩ := sequencerRun_stepped (s := initRunning s (Instr.onPort s.commandPort (.init rs en port w8)))
    (c.congr rfl rfl rfl rfl rfl) a.noFault (fun op hop => initRest_noSetup _ _ op (List.mem_of_mem_take hop)) hp rfl
    (by simp [initRunning, programInit_length, initRest_length_pos])
  rw [List.length_take_of_le hj] at ht
  exact ⟨t, (sequencerRun_init_after_setup a.noFault _ _).trans ht, st⟩

/-- Settles O35: within step 1 by `sequencerRun_init_setup`, after it by what the first elements of `initRest` do. -/
theorem initWritesFsmInOrder : Obligations.InitWritesFsmInOrder := by
  intro s rs en port w8 a
  have hlen := programInit_length s.params (Instr.onPort s.commandPort (.init rs en port w8))
  rw [show (Instr.onPort s.commandPort (.init rs en port w8)).initW8 = w8 from rfl, initRest_length] at hlen
  refine ⟨2 + ((initPowerOnBody s.params).length + 1),
    2 + ((initPowerOnBody s.params).length + 1) + ((initWakeUpBody s.params w8).length + 1), _,
    by omega, by omega, by rw [hlen]; omega, rfl, fun k hk => ?_⟩
  rw [hlen] at hk ⊢
  rcases Nat.lt_or_ge k 2 with h2 | h2
  · obtain ⟨t, ht, hupc, hbusy, hfsm, htrace⟩ := sequencerRun_init_setup a.noFault _ h2
    refine ⟨t, ht, hupc, ?_, ?_, fun _ => htrace, fun h => absurd h (by omega), fun h => absurd h (by omega),
      fun h => absurd h (by omega), fun h => absurd h (by omega)⟩
    · rw [hbusy, decide_eq_true (by omega)]
    · rw [hfsm, a.uninitialized, if_pos (by omega)]
  · obtain ⟨j, rfl⟩ := Nat.exists_eq_add_of_le' h2
    have hj : j ≤ (initRest s.params w8).length := by rw [initRest_length]; omega
    obtain ⟨t, ht, st⟩ := sequencerRun_init_stepped a hj
    have d := st.drives
    have htrace : t.trace = s.trace ++ programEvents s.params w8 ((initRest s.params w8).take j) := d.trace
    refine ⟨t, ht, ?_, ?_, ?_, fun h => ?_, fun _ => ⟨d.configured, d.cfgRS, d.cfgEN, d.cfgPort, d.cfgW8⟩, fun h => ?_,
      fun h => ?_, fun h => ?_⟩
    · rw [st.upc, List.length_take_of_le hj]; exact Nat.add_comm _ _
    · rw [st.busy, List.length_take_of_le hj]
      refine decide_eq_decide.mpr ?_
      show 2 + j < (programInit s.params _).length ↔ _
      rw [hlen]; omega
    · rw [st.fsm, fsmAfterAll_take_initRest]
      exact if_congr (by omega) a.uninitialized (if_congr (by omega) rfl (if_congr (by omega) rfl rfl))
    · obtain rfl : j = 0 := by omega
      simpa using htrace
    · rw [htrace, programEvents_take_poweringOn _ _ (by omega)]
    · obtain ⟨i, rfl⟩ := Nat.exists_eq_add_of_le (show (initPowerOnBody s.params).length + 1 ≤ j by omega)
      rw [htrace, programEvents_take_configuring _ _ (by omega), List.append_assoc]
    · obtain ⟨i, rfl⟩ := Nat.exists_eq_add_of_le
        (show (initPowerOnBody s.params).length + 1 + ((initWakeUpBody s.params w8).length + 1) ≤ j by omega)
      rw [htrace, Nat.add_assoc _ _ i, programEvents_take_ready _ _ (by omega)]

end Sys2Proof.Machine
end

section
/-!
The primitive micro-operations that write a register (R140 to R143): what each emits, what it writes, and what it leaves; and the
presented commands whose operands are too wide (R70, R101).
-/

namespace Sys2Proof.Machine

/-! ### One register written (R14, R73) -/

theorem memRead_memWrite_of_ne {s : State} (w : s.outreg.wf) {a b : Nat} (h : b ≠ a) (v : Nat) :
    (s.memWrite a v).memRead b = s.memRead b :=
  (memRead_memWrite w a v b).trans (if_neg h)

theorem memRead_memWrite_same {s : State} (w : s.outreg.wf) (a v : Nat) :
    (s.memWrite a v).memRead a = v % 2 ^ s.params.portWidth :=
  (memRead_memWrite w a v a).trans (if_pos rfl)

/-- A bit of PORT_WIDTH is the written value's (R14). -/
theorem testBit_memRead_memWrite_same {s : State} (w : s.outreg.wf) (a v : Nat) {k : Nat} (hk : k < s.params.portWidth) :
    ((s.memWrite a v).memRead a).testBit k = v.testBit k := by
  rw [memRead_memWrite_same w, Nat.testBit_mod_two_pow, decide_eq_true hk, Bool.true_and]

/-- A line write, bit by bit (R74). -/
theorem testBit_memRead_writeLine_same {s : State} (w : s.outreg.wf) (pin : PinRef) (b : Bool) {k : Nat}
    (hk : k < s.params.portWidth) :
    ((s.writeLine pin b).memRead pin.addr).testBit k =
      if pin.mask.testBit k then b else (s.memRead pin.addr).testBit k :=
  (testBit_memRead_memWrite_same w _ _ hk).trans (testBit_withLine _ _ _ _)

/-- On an 8-bit port no bit is free, and the data write is the byte (R75). -/
theorem withLowByte_drawBits_zero (s : State) (v : Byte) : withLowByte (s.drawBits 0) v = v.toNat := by
  simp [withLowByte, State.drawBits]

/-! ### The data lines of a port whose bits are known (R42) -/

theorem dataLines8_of_testBit {s : State} {v : Byte} (h : ∀ k, k < 8 → (s.memRead s.cfgPort).testBit k = v.getLsbD k) :
    s.dataLines8 = v :=
  BitVec.eq_of_getLsbD_eq fun k hk => by
    simp only [State.dataLines8, BitVec.getLsbD_ofNat, h k hk, hk, decide_true, Bool.true_and]

theorem dataLines4_of_testBit {s : State} {n : Nibble} (h : ∀ k, k < 4 → (s.memRead s.cfgPort).testBit k = n.getLsbD k) :
    s.dataLines4 = n :=
  BitVec.eq_of_getLsbD_eq fun k hk => by
    simp only [State.dataLines4, BitVec.getLsbD_ofNat, h k hk, hk, decide_true, Bool.true_and]

/-! ### The micro-operations -/

/-- A micro-operation that issues its own event, as all but the waits of length 0 do, and writes a register of the space ends with
that write. -/
theorem perform_line_of_accessing {s t : State} {e : Event} {a : Nat} (ha : a < 2 ^ s.params.addrWidth)
    (he : MicroOp.events s.params s.cfgW8 (.line e) = [e]) (hd : drive e s = accessing s a t) :
    perform (.line e) s = .next t := by
  rw [perform, he]
  exact andThen_eq_next.mpr ⟨t, hd.trans (accessing_eq_next.mpr ⟨ha, rfl⟩), rfl⟩

/-- Settles O9: the line write of RS, read bit by bit. -/
theorem setRsWritesOneLine : Obligations.SetRsWritesOneLine := by
  intro s b w ha
  refine ⟨(s.writeLine s.cfgRS b).emit (.setRS b), ?_, rfl, fun a hne => ?_, fun k hk => ?_⟩
  · exact perform_line_of_accessing ha rfl rfl
  · exact memRead_memWrite_of_ne w hne _
  · exact testBit_memRead_writeLine_same w s.cfgRS b hk

/-- Settles O10: the line write of Enable, read bit by bit. -/
theorem setEWritesOneLine : Obligations.SetEWritesOneLine := by
  intro s b w ha
  refine ⟨(s.writeLine s.cfgEN b).emit (.setE b), ?_, rfl, fun a hne => ?_, fun k hk => ?_⟩
  · exact perform_line_of_accessing ha rfl rfl
  · exact memRead_memWrite_of_ne w hne _
  · exact testBit_memRead_writeLine_same w s.cfgEN b hk

/-- Settles O11: bits 7..0 of the written value are the byte's whatever was drawn, and an 8-bit port draws none. -/
theorem bus8WritesLowByte : Obligations.Bus8WritesLowByte := by
  intro s v w ha h8
  refine ⟨(s.writeBus8 v).emit (.bus8 v), ?_, rfl, fun a hne => ?_, dataLines8_of_testBit fun k hk => ?_, fun hw => ?_⟩
  · exact perform_line_of_accessing ha rfl rfl
  · exact memRead_memWrite_of_ne w hne _
  · exact (testBit_memRead_memWrite_same w _ _ (Nat.lt_of_lt_of_le hk h8)).trans (testBit_withLowByte hk)
  · refine (memRead_memWrite_same w _ _).trans ?_
    rw [hw, Nat.sub_self, withLowByte_drawBits_zero, Nat.mod_eq_of_lt v.isLt]

/-- Settles O12: bits 3..0 of the written value are the nibble's, the others the port's before. -/
theorem bus4WritesLowNibble : Obligations.Bus4WritesLowNibble := by
  intro s n w ha h8
  have bits : ∀ k, k < s.params.portWidth → ((s.writeBus4 n).memRead s.cfgPort).testBit k =
      if k < 4 then n.getLsbD k else (s.memRead s.cfgPort).testBit k := fun k hk =>
    (testBit_memRead_memWrite_same w _ _ hk).trans (testBit_withLowNibble _ _ _)
  refine ⟨(s.writeBus4 n).emit (.bus4 n), ?_, rfl, fun a hne => ?_, dataLines4_of_testBit fun k hk => ?_, fun k h4 hk => ?_⟩
  · exact perform_line_of_accessing ha rfl rfl
  · exact memRead_memWrite_of_ne w hne _
  · exact (bits k (by omega)).trans (if_pos hk)
  · exact (bits k hk).trans (if_neg (Nat.not_lt.mpr h4))

/-! ### Commands with too wide operands -/

theorem wf_init_eq_false_iff {p : Params} {rs en : PinRef} {port : Nat} {w8 : Bool} :
    (Instr.init rs en port w8).wf p = false ↔
      2 ^ p.addrWidth ≤ rs.addr ∨ 2 ^ p.addrWidth ≤ en.addr ∨ 2 ^ p.addrWidth ≤ port := by
  rw [← Bool.not_eq_true, wf_init_iff]
  omega

/-- R101: the only operands whose width is not in their type are INIT's addresses. -/
theorem wf_eq_false_iff {p : Params} {i : Instr} :
    i.wf p = false ↔ ∃ rs en port w8, i = .init rs en port w8 ∧
      (2 ^ p.addrWidth ≤ rs.addr ∨ 2 ^ p.addrWidth ≤ en.addr ∨ 2 ^ p.addrWidth ≤ port) := by
  constructor
  · intro h
    cases i with
    | init rs en port w8 => exact ⟨rs, en, port, w8, rfl, wf_init_eq_false_iff.mp h⟩
    | _ => cases h
  · rintro ⟨rs, en, port, w8, rfl, h⟩
    exact wf_init_eq_false_iff.mpr h

/-- Settles O52: `wf_eq_false_iff` of the decoded command, and the host step's branch for it. -/
theorem presentedInitTooWide : Obligations.PresentedInitTooWide := by
  refine ⟨fun _ _ => wf_eq_false_iff, fun s c rest hf hb hp hw => ?_⟩
  simp [step_of_idle hf hb, hostStep, hp, hw]

end Sys2Proof.Machine
end

section
/-!
The encodings (R100 to R113, R171 to R178): the encoder's bytes as bit fields, the decoder on encoded words, and the bytes and
nibbles the operands form.
-/

namespace Sys2Proof.Machine

/-! ### The encoder's bytes as the bit fields of the table (R107) -/

theorem encEntryMode_eq_append : ∀ i s, encEntryMode i s = 0b000001#6 ++ BitVec.ofBool i ++ BitVec.ofBool s := by
  decide

theorem encDisplayControl_eq_append :
    ∀ d c b, encDisplayControl d c b = 0b00001#5 ++ BitVec.ofBool d ++ BitVec.ofBool c ++ BitVec.ofBool b := by
  decide

theorem encShift_eq_append : ∀ sc rl, encShift sc rl = 0b0001#4 ++ BitVec.ofBool sc ++ BitVec.ofBool rl ++ 0b00#2 := by
  decide

theorem encFunctionSet_eq_append :
    ∀ dl n f, encFunctionSet dl n f =
      0b001#3 ++ BitVec.ofBool dl ++ BitVec.ofBool n ++ BitVec.ofBool f ++ 0b00#2 := by
  decide

theorem encSetCgram_eq_append : ∀ a, encSetCgram a = 0b01#2 ++ a := by
  decide

theorem encSetDdram_eq_append : ∀ a, encSetDdram a = 0b1#1 ++ a := by
  decide

/-! ### The decoder on the words of the rows with operands (R105, R107) -/

theorem decodeBus9_entryModeSet :
    ∀ i s, decodeBus9 (byteWord false (encEntryMode i s)) = .ok (.entryModeSet i s) := by
  decide

theorem decodeBus9_displayControl :
    ∀ d c b, decodeBus9 (byteWord false (encDisplayControl d c b)) = .ok (.displayControl d c b) := by
  decide

theorem decodeBus9_cursorDisplayShift :
    ∀ sc rl, decodeBus9 (byteWord false (encShift sc rl)) = .ok (.cursorDisplayShift sc rl) := by
  decide

theorem decodeBus9_functionSet :
    ∀ dl n f, decodeBus9 (byteWord false (encFunctionSet dl n f)) = .ok (.functionSet dl n f) := by
  decide

theorem decodeBus9_setCgramAddr : ∀ a, decodeBus9 (byteWord false (encSetCgram a)) = .ok (.setCgramAddr a) := by
  decide

theorem decodeBus9_setDdramAddr : ∀ a, decodeBus9 (byteWord false (encSetDdram a)) = .ok (.setDdramAddr a) := by
  decide

theorem decodeBus9_writeData : ∀ d, decodeBus9 (byteWord true d) = .ok (.writeData d) := by
  decide

/-- Settles O1: a command's operands are read back from the fields they were put in, a transfer's from its row's bit fields; a row
without operands has one word. -/
theorem decodeOfEncode : Obligations.DecodeOfEncode := by
  intro i
  cases i with
  | entryModeSet i s => exact decodeBus9_entryModeSet i s
  | displayControl d c b => exact decodeBus9_displayControl d c b
  | cursorDisplayShift sc rl => exact decodeBus9_cursorDisplayShift sc rl
  | functionSet dl n f => exact decodeBus9_functionSet dl n f
  | setCgramAddr a => exact decodeBus9_setCgramAddr a
  | setDdramAddr a => exact decodeBus9_setDdramAddr a
  | writeData d => exact decodeBus9_writeData d
  | _ => rfl

/-- Settles O3: the decoder run on the 512 byte words and on the 32 nibble words. -/
theorem undefinedBusWords : Obligations.UndefinedBusWords := by
  constructor
  · decide
  · decide

/-- Settles O4: the decoder run on each word. -/
theorem specWordsDecode : Obligations.SpecWordsDecode :=
  ⟨rfl, rfl, rfl, rfl, rfl, rfl, rfl, rfl, rfl, rfl, rfl⟩

/-! ### The bytes of a cell and of a glyph (R111, R112) -/

/-- A byte below `2 ^ k` has `k` bits. -/
theorem exists_setWidth_of_toNat_lt {k : Nat} {b : Byte} (h : b.toNat < 2 ^ k) : ∃ c : BitVec k, b = c.setWidth 8 := by
  refine ⟨b.setWidth k, BitVec.eq_of_toNat_eq ?_⟩
  rw [BitVec.toNat_setWidth, BitVec.toNat_setWidth, Nat.mod_eq_of_lt h, Nat.mod_eq_of_lt b.isLt]

/-- Settles O6: a column in range has 4 bits and a row 1 bit, so the two forms are compared on 32 cells. -/
theorem ddramByteOfCell : Obligations.DdramByteOfCell := by
  intro col row hcol hrow
  obtain ⟨c, rfl⟩ := exists_setWidth_of_toNat_lt (k := 4) hcol
  obtain ⟨r, rfl⟩ := exists_setWidth_of_toNat_lt (k := 1) hrow
  clear hcol hrow
  revert c r
  decide

/-- Settles O7: an index in range has 3 bits, so the forms are compared on 8 glyphs. -/
theorem cgramByteOfGlyph : Obligations.CgramByteOfGlyph := by
  intro index hindex
  obtain ⟨i, rfl⟩ := exists_setWidth_of_toNat_lt (k := 3) hindex
  clear hindex
  revert i
  decide

theorem eq_ofNat_of_toNat {b : Byte} {n : Nat} (h : b.toNat = n) : b = BitVec.ofNat 8 n := by
  rw [← h, BitVec.ofNat_toNat, BitVec.setWidth_eq]

/-- R111, the class bit and the row's base in one number. -/
theorem encSetDdram_ddramAddr {col row : Byte} (hcol : col.toNat < 16) (hrow : row.toNat < 2) :
    encSetDdram (ddramAddr col row) = BitVec.ofNat 8 ((if row = 0 then 0x80 else 0xC0) + col.toNat) := by
  refine eq_ofNat_of_toNat ((ddramByteOfCell col row hcol hrow).1.trans ?_)
  split <;> rfl

/-- R112, as the number the byte is. -/
theorem encSetCgram_cgramAddr {index : Byte} (h : index.toNat < 8) :
    encSetCgram (cgramAddr index) = BitVec.ofNat 8 (0x40 + index.toNat * 8) :=
  eq_ofNat_of_toNat (cgramByteOfGlyph index h).1

/-! ### The nibble split (R113) -/

theorem hiNibble_append_loNibble (b : Byte) : hiNibble b ++ loNibble b = b :=
  (BitVec.extractLsb'_append_extractLsb'_eq_extractLsb' rfl).trans BitVec.extractLsb'_eq_self

/-- A byte transfer alone latches its byte, or its nibbles with the high one first (R146, R154). -/
theorem latched_byteEvents (p : Params) (w8 rs : Bool) (b : Byte) : latched (byteEvents p w8 rs b) = byteLatched w8 rs b := by
  simpa [latched, latchedFrom] using latchedFrom_byte p w8 rs b none none []

/-- Settles O8: the nibbles are the byte's two halves, and the transfer latches them in the order of `byteLatched`. -/
theorem nibbleSplitHighFirst : Obligations.NibbleSplitHighFirst := fun p rs b =>
  ⟨rfl, rfl, (hiNibble_append_loNibble b).symm, latched_byteEvents p false rs b⟩

end Sys2Proof.Machine
end

section
/-!
The transfer rows, each by its own word (R105, R106), and the reserved operation codes (R104).
-/

namespace Sys2Proof.Machine

/-- A bus9 row of an engine that has not faulted and can drive its lines has the effect of SEND_BYTE of its word (R146). -/
theorem exec_byteRow_effect {s : State} (hf : s.fault = none) (c : s.CanDrive) (w : s.outreg.wf) {i : Instr} {rs : Bool} {b : Byte}
    (hi : encode i = .bus9 (byteWord rs b)) :
    ∃ t, exec i s = .next t ∧ TransferEffect s (byteEvents s.params s.cfgW8 rs b) t := by
  rw [exec_of_bus9 hi]
  exact transferByte_ends hf c w rs b

/-- A bus5 row of an engine that has not faulted and can drive its lines has the effect of SEND_NIBBLE of its word (R148). -/
theorem exec_nibbleRow_effect {s : State} (hf : s.fault = none) (c : s.CanDrive) (w : s.outreg.wf) {i : Instr} {rs : Bool}
    {n : Nibble} (hi : encode i = .bus5 (nibbleWord rs n)) :
    ∃ t, exec i s = .next t ∧ TransferEffect s (nibbleEvents s.params rs n) t := by
  rw [exec_of_bus5 hi]
  exact transferNibble_ends hf c w rs n

/-- Settles O20: each row's word, its byte laid out as the table has it, and `exec_byteRow_effect`. -/
theorem byteTransferRows : Obligations.ByteTransferRows := by
  intro s hf c w
  refine ⟨exec_byteRow_effect hf c w rfl, exec_byteRow_effect hf c w rfl, fun i sh => exec_byteRow_effect hf c w ?_,
    fun d cu b => exec_byteRow_effect hf c w ?_, fun sc rl => exec_byteRow_effect hf c w ?_,
    fun dl n f => exec_byteRow_effect hf c w ?_, fun a => exec_byteRow_effect hf c w ?_,
    fun a => exec_byteRow_effect hf c w ?_, fun d => exec_byteRow_effect hf c w rfl⟩
  · rw [encode, encEntryMode_eq_append]
  · rw [encode, encDisplayControl_eq_append]
  · rw [encode, encShift_eq_append]
  · rw [encode, encFunctionSet_eq_append]
  · rw [encode, encSetCgram_eq_append]
  · rw [encode, encSetDdram_eq_append]

/-- Settles O21: each row's word and `exec_nibbleRow_effect`. -/
theorem nibbleTransferRows : Obligations.NibbleTransferRows := fun _ hf c w =>
  ⟨exec_nibbleRow_effect hf c w rfl, exec_nibbleRow_effect hf c w rfl⟩

/-- Settles O28: acceptance asks FAULT and BUSY alone before a reserved code raises its fault. -/
theorem reservedCodesFault : Obligations.ReservedCodesFault := by
  intro s hf hb
  have raises : ∀ op, reservedCommand op s = .next (s.raise (.reservedCommand op)) := fun op =>
    reservedCommand_eq_next.mpr ⟨hf, hb, rfl⟩
  exact ⟨raises _, raises _, raises _, raises _, raises _⟩

end Sys2Proof.Machine
end

section
/-!
Three display commands that send bytes their operands choose (R221, R226 to R228), and the commands R115 gives as expansions.
-/

namespace Sys2Proof.Machine

/-! ### SETCUR, CURON, CUROFF, GLYPH -/

/-- R102, R221: SETCUR's range check. -/
theorem cursorInRange_iff {col row : Byte} : cursorInRange col row = true ↔ col.toNat < 16 ∧ row.toNat < 2 := by
  simp only [cursorInRange, Bool.and_eq_true, decide_eq_true_eq]

/-- R102, R228: GLYPH's range check. -/
theorem glyphInRange_iff {index : Byte} : glyphInRange index = true ↔ index.toNat < 8 := decide_eq_true_iff

theorem programSetcur_of_inRange {c : Command} (h : cursorInRange c.arg0 c.arg1 = true) (p : Params) :
    programSetcur p c = [instrOp (encSetDdram (ddramAddr c.arg0 c.arg1))] := if_pos h

theorem programSetcur_of_not_inRange {c : Command} (h : ¬ cursorInRange c.arg0 c.arg1 = true) (p : Params) :
    programSetcur p c = [] := if_neg h

theorem programGlyph_of_inRange {c : Command} (h : glyphInRange c.arg0 = true) (p : Params) :
    programGlyph p c = instrOp (encSetCgram (cgramAddr c.arg0)) :: c.pattern.toList.map dataOp ++ [dataOp 0x00#8] := if_pos h

theorem programGlyph_of_not_inRange {c : Command} (h : ¬ glyphInRange c.arg0 = true) (p : Params) :
    programGlyph p c = [] := if_neg h

/-- The events of one instruction byte (R147). -/
theorem programEvents_instr (p : Params) (w8 : Bool) (b : Byte) : programEvents p w8 [instrOp b] = byteEvents p w8 false b :=
  List.append_nil _

/-- The events of data bytes in a row (R147). -/
theorem programEvents_data (p : Params) (w8 : Bool) (bs : List Byte) :
    programEvents p w8 (bs.map dataOp) = bs.flatMap (byteEvents p w8 true) :=
  List.flatMap_map dataOp (MicroOp.events p w8) bs

/-- Settles O39: in range the program is the one instruction byte of `encSetDdram_ddramAddr`, out of range it is empty. -/
theorem setcurSendsAddress : Obligations.SetcurSendsAddress := by
  refine fun col row => ⟨fun h => ?_, fun h => ?_, faultsUnlessReady_of (fun _ => rfl) fun _ => rfl⟩
  · refine emits_of_program (program := programSetcur) (fun _ => rfl) (fun p _ => programSetcur_transfers p _) fun p w8 c => ?_
    rw [programSetcur_of_inRange (cursorInRange_iff.mpr h), programEvents_instr, ← encSetDdram_ddramAddr h.1 h.2]
    rfl
  · exact silentNoOp_of_program (fun _ => rfl) fun p _ => programSetcur_of_not_inRange (mt cursorInRange_iff.mp h) p

/-- R226: CURON's instruction byte by the blink operand. -/
theorem encDisplayControl_blinkOf (arg0 : Byte) :
    encDisplayControl true true (blinkOf arg0) = if arg0.getLsbD 0 then 0x0F#8 else 0x0E#8 := by
  rw [blinkOf]
  cases arg0.getLsbD 0 <;> rfl

/-- Settles O43: each program is one instruction byte. -/
theorem cursorVisibility : Obligations.CursorVisibility := by
  refine ⟨fun arg0 => ⟨?_, faultsUnlessReady_of (fun _ => rfl) fun _ => rfl⟩, ?_,
    faultsUnlessReady_of (fun _ => rfl) fun _ => rfl⟩
  · refine emits_of_program (program := programCuron) (fun _ => rfl) (fun p _ => programCuron_transfers p _) fun p w8 c => ?_
    rw [← encDisplayControl_blinkOf]
    exact programEvents_instr p w8 _
  · exact emits_of_program (program := programCuroff) (fun _ => rfl) (fun p _ => programCuroff_transfers p _) fun p w8 c =>
      programEvents_instr p w8 _

/-- A pattern's seven bytes in order. -/
theorem pattern_toList (pattern : Vector Byte 7) :
    pattern.toList = [pattern[0], pattern[1], pattern[2], pattern[3], pattern[4], pattern[5], pattern[6]] := by
  conv_lhs => rw [← Vector.ofFn_getElem (xs := pattern), Vector.toList_ofFn]
  simp [List.ofFn_succ]

/-- Settles O44: in range the program is the instruction byte of `encSetCgram_cgramAddr`, the pattern's bytes and a zero byte, out
of range it is empty. -/
theorem glyphSendsPattern : Obligations.GlyphSendsPattern := by
  refine fun index pattern => ⟨fun h => ?_, fun h => ?_, faultsUnlessReady_of (fun _ => rfl) fun _ => rfl⟩
  · refine emits_of_program (program := programGlyph) (fun _ => rfl) (fun p _ => programGlyph_transfers p _) fun p w8 c => ?_
    rw [programGlyph_of_inRange (glyphInRange_iff.mpr h), ← encSetCgram_cgramAddr h]
    simp only [Instr.onPort, pattern_toList, programEvents_append, programEvents_cons, programEvents_data, programEvents_nil,
      events_instrOp, events_dataOp, List.flatMap_cons, List.flatMap_nil, List.append_nil, List.append_assoc]
  · exact silentNoOp_of_program (fun _ => rfl) fun p _ => programGlyph_of_not_inRange (mt glyphInRange_iff.mp h) p

/-! ### Expansions (R115) -/

/-- Wherever a display command is accepted, `is` one after another drives `es`, touches the command registers alone beside that, and
ends where a display command is accepted again. -/
def Expands (is : List Instr) (es : Params → Bool → List Event) : Prop :=
  ∀ s : State, s.AcceptsDisplay →
    ∃ u v, driveAll (es s.params s.cfgW8) s = .next u ∧ execAll is s = .next (u.asIn v) ∧ (u.asIn v).AcceptsDisplay

theorem execAll_append (is js : List Instr) (s : State) : execAll (is ++ js) s = andThen (execAll is s) (execAll js) := by
  induction is generalizing s with
  | nil => rfl
  | cons i is ih =>
    simp only [List.cons_append, execAll, andThen_assoc]
    congr 1
    funext t
    exact ih t

theorem execAll_singleton (i : Instr) (s : State) : execAll [i] s = exec i s := by
  rw [execAll]
  cases exec i s <;> rfl

/-- A command and a list that drive the same events leave the same trace, output registers and timer. -/
theorem Expands.same {i : Instr} {js : List Instr} {es : Params → Bool → List Event} (h : Expands [i] es) (g : Expands js es)
    {s : State} (a : s.AcceptsDisplay) :
    ∃ t u, exec i s = .next t ∧ execAll js s = .next u ∧ t.trace = u.trace ∧ t.outreg = u.outreg ∧ t.timer = u.timer := by
  obtain ⟨x, v, hx, ht, -⟩ := h s a
  obtain ⟨y, w, hy, hu, -⟩ := g s a
  obtain rfl : x = y := Host.Outcome.next.inj (hx.symm.trans hy)
  exact ⟨_, _, (execAll_singleton i s).symm.trans ht, hu, rfl, rfl, rfl⟩

theorem Expands.nil : Expands [] fun _ _ => [] := fun s a => ⟨s, s, rfl, rfl, a⟩

/-- One list after another drives the events of one after those of the other. -/
theorem Expands.append {is js : List Instr} {es fs : Params → Bool → List Event} (h : Expands is es) (g : Expands js fs) :
    Expands (is ++ js) fun p w8 => es p w8 ++ fs p w8 := by
  intro s a
  obtain ⟨u, v, hu, ht, accepts⟩ := h s a
  obtain ⟨x, w, hx, hv, accepts'⟩ := g _ accepts
  have d := driveAll_drives hu
  rw [driveAll_asIn, show (u.asIn v).params = s.params from d.params, show (u.asIn v).cfgW8 = s.cfgW8 from d.cfgW8] at hx
  obtain ⟨y, hy, e⟩ := andThen_eq_next.mp hx
  cases e
  refine ⟨y, w, ?_, ?_, accepts'⟩
  · rw [driveAll_append, hu, andThen_next, hy]
  · rw [execAll_append, ht, andThen_next, hv]
    rfl

/-- An accepted display command ends in a state that accepts the next one. -/
theorem Displayed.accepts {s t : State} {c : Command} {ops : List MicroOp} (e : Displayed s c ops t) (a : s.AcceptsDisplay) :
    t.AcceptsDisplay :=
  have d := e.drives
  ⟨d.fault.trans a.noFault, e.busy, e.fsm.trans a.ready, d.canDrive (a.drives.congr rfl rfl rfl rfl rfl),
    by rw [d.params, d.cfgRS, d.cfgEN, d.cfgPort, d.cfgW8]; exact a.configured, d.wf a.memWf⟩

/-- A display command drives its program's events. -/
theorem Expands.display {i : Instr} {program : Params → Command → List MicroOp} {es : Params → Bool → List Event}
    (hd : Displays i program) (he : ∀ p w8 c, programEvents p w8 (program p (i.onPort c)) = es p w8) : Expands [i] es := by
  intro s a
  have ho := hd.transfers s.params (i.onPort s.commandPort)
  obtain ⟨u, hu⟩ := driveAll_ends a.drives (es s.params s.cfgW8)
  obtain ⟨v, hv⟩ := runOps_transfers ho (s := s.accept (i.onPort s.commandPort) program) <| by
    rw [accept_params, accept_cfgW8, he]
    refine (driveAll_asIn _ s (s.accept (i.onPort s.commandPort) program)).trans ?_
    rw [hu, andThen_next]
  refine ⟨u, v, hu, ?_, (runAccepted_displayed ho hv).accepts a⟩
  rw [execAll_singleton, hd.exec, displayCommand, whenIdle_of_idle a.noFault a.idle, if_pos a.ready]
  exact hv

/-- The clear-display row drives its transfer's events and leaves the command registers (R171). -/
theorem expands_clearDisplay : Expands [.clearDisplay] fun p w8 => byteEvents p w8 false encClear := by
  intro s a
  obtain ⟨u, hu⟩ := driveAll_ends a.drives (byteEvents s.params s.cfgW8 false encClear)
  have d := driveAll_drives hu
  have q := driveAll_sequencer hu
  refine ⟨u, u, hu, ?_, ⟨d.fault.trans a.noFault, q.busy.trans a.idle, q.fsm.trans a.ready, d.canDrive a.drives, ?_, d.wf a.memWf⟩⟩
  · rw [execAll_singleton]
    exact (transfer_eq a.noFault _).trans hu
  · rw [show u.asIn u = u from rfl, d.params, d.cfgRS, d.cfgEN, d.cfgPort, d.cfgW8]
    exact a.configured

theorem expands_home : Expands [.home] fun p w8 => byteEvents p w8 false (encSetDdram 0) :=
  .display ⟨fun _ => rfl, programHome_transfers, fun _ _ _ => rfl⟩ fun p w8 _ => programEvents_instr p w8 _

theorem expands_setcur_origin : Expands [.setcur 0 0] fun p w8 => byteEvents p w8 false (encSetDdram 0) :=
  .display ⟨fun _ => rfl, programSetcur_transfers, fun _ _ _ => rfl⟩ fun p w8 _ => programEvents_instr p w8 _

theorem expands_clear :
    Expands [.clear] fun p w8 => byteEvents p w8 false encClear ++ byteEvents p w8 false (encSetDdram 0) :=
  .display ⟨fun _ => rfl, programClear_transfers, fun _ _ _ => rfl⟩ fun p w8 _ =>
    congrArg (byteEvents p w8 false encClear ++ ·) (programEvents_instr p w8 _)

theorem expands_print (text : List Byte) :
    Expands [.print text] fun p w8 => (textToSend text).flatMap (byteEvents p w8 true) :=
  .display ⟨fun _ => rfl, programPrint_transfers, fun _ _ _ => rfl⟩ fun p w8 _ => programEvents_data p w8 _

theorem expands_putc (b : Byte) : Expands [.putc b] fun p w8 => byteEvents p w8 true b :=
  .display ⟨fun _ => rfl, programPutc_transfers, fun _ _ _ => rfl⟩ fun _ _ _ => List.append_nil _

theorem expands_putc_each (bs : List Byte) : Expands (bs.map .putc) fun p w8 => bs.flatMap (byteEvents p w8 true) := by
  induction bs with
  | nil => exact .nil
  | cons b bs ih => exact (expands_putc b).append ih

/-- Settles O46: a command and its expansion drive the same events. -/
theorem commandsAreExpansions : Obligations.CommandsAreExpansions := by
  refine fun s a => ⟨?_, expands_clear.same (expands_clearDisplay.append expands_setcur_origin) a, fun text =>
    (expands_print text).same (expands_putc_each _) a⟩
  rw [← execAll_singleton (.setcur 0 0)]
  exact expands_home.same expands_setcur_origin a

end Sys2Proof.Machine
end

section
/-!
What a command's program puts on the bus (R109, R147, R148): the elements it may hold, and the transfers latched from them.
-/

namespace Sys2Proof.Machine

/-- The instruction bytes a command sends (R109). -/
def ListedByte (b : Byte) : Prop :=
  b ∈ [0x01#8, 0x06#8, 0x08#8, 0x0C#8, 0x0E#8, 0x0F#8, 0x18#8, 0x1C#8, 0x28#8, 0x30#8, 0x38#8] ∨
    (∃ k, k < 8 ∧ b = BitVec.ofNat 8 (0x40 + 8 * k)) ∨
    ∃ k, k < 16 ∧ (b = BitVec.ofNat 8 (0x80 + k) ∨ b = BitVec.ofNat 8 (0xC0 + k))

/-- What a command's program may hold, for an INIT of the width `w8` (R109, R147, R148). -/
inductive ListedOp (w8 : Bool) : MicroOp → Prop where
  | rsLow : ListedOp w8 (.line (.setRS false))
  | waitUs (n : Nat) : ListedOp w8 (.line (.waitUs n))
  | waitMs (n : Nat) : ListedOp w8 (.line (.waitMs n))
  | instr {b : Byte} (h : ListedByte b) : ListedOp w8 (instrOp b)
  | data (b : Byte) : ListedOp w8 (dataOp b)
  | nibble {n : Nibble} (h : n = 0x3#4 ∨ n = 0x2#4) (h4 : w8 = false) : ListedOp w8 (.sendNibble false n)
  | timerInit : ListedOp w8 .timerInit
  | storeConfig : ListedOp w8 .storeConfig
  | setFsm (f : Fsm) : ListedOp w8 (.setFsm f)

namespace ListedOp

variable {w8 : Bool} {op : MicroOp}

theorem ne_enablePulse (h : ListedOp w8 op) : op ≠ .enablePulse := by
  rintro rfl
  cases h

theorem line_cases (h : ListedOp w8 op) {e : Event} (he : op = .line e) :
    e = .setRS false ∨ (∃ n, e = .waitUs n) ∨ ∃ n, e = .waitMs n := by
  subst he
  cases h with
  | rsLow => exact .inl rfl
  | waitUs n => exact .inr (.inl ⟨n, rfl⟩)
  | waitMs n => exact .inr (.inr ⟨n, rfl⟩)

theorem sendByte_listed (h : ListedOp w8 op) {b : Byte} (hb : op = .sendByte false b) : ListedByte b := by
  subst hb
  cases h
  assumption

theorem sendNibble_cases (h : ListedOp w8 op) {rs : Bool} {n : Nibble} (hn : op = .sendNibble rs n) :
    rs = false ∧ (n = 0x3#4 ∨ n = 0x2#4) ∧ w8 = false := by
  subst hn
  cases h with
  | nibble h h4 => exact ⟨rfl, h, h4⟩

end ListedOp

/-- The transfers latched from a program of listed elements are the elements' own, in order (R147, R154). -/
theorem latchedFrom_listed {p : Params} {w8 wi : Bool} {ops : List MicroOp} (h : ∀ op ∈ ops, ListedOp wi op) (r : Option Bool)
    (d : Option BusValue) : latchedFrom r d (programEvents p w8 ops) = ops.flatMap (MicroOp.transfers w8) := by
  induction ops generalizing r d with
  | nil => rfl
  | cons op ops ih =>
    have hop := h op (by simp)
    obtain ⟨r', d', e⟩ := latchedFrom_op p w8 hop.ne_enablePulse
      (fun e he => (hop.line_cases he).imp (fun hs => ⟨false, hs⟩) id) r d (programEvents p w8 ops)
    rw [programEvents_cons, e, ih fun o ho => h o (by simp [ho]), List.flatMap_cons]

/-! ### Every command's program is listed -/

theorem listed_wakeUpOp (w8 : Bool) : ListedOp w8 (wakeUpOp w8) := by
  cases w8
  · exact .nibble (.inl rfl) rfl
  · exact .instr (.inl (by decide))

theorem listed_waitUsOps (w8 : Bool) (n : Nat) : ∀ op ∈ waitUsOps n, ListedOp w8 op := by
  unfold waitUsOps
  split
  · exact List.forall_mem_nil _
  · exact List.forall_mem_singleton.mpr (.waitUs n)

theorem listed_waitMsOps (w8 : Bool) (n : Nat) : ∀ op ∈ waitMsOps n, ListedOp w8 op := by
  unfold waitMsOps
  split
  · exact List.forall_mem_nil _
  · exact List.forall_mem_singleton.mpr (.waitMs n)

theorem listed_initSwitch (w8 : Bool) : ∀ op ∈ initSwitch w8, ListedOp w8 op := by
  cases w8
  · exact List.forall_mem_singleton.mpr (.nibble (.inr rfl) rfl)
  · exact List.forall_mem_nil _

theorem listedByte_functionSet (w8 : Bool) : ListedByte (encFunctionSet w8 true false) := by
  cases w8
  · exact .inl (by decide)
  · exact .inl (by decide)

theorem listedByte_setDdram_origin : ListedByte (encSetDdram 0) := .inr (.inr ⟨0, by decide, .inl rfl⟩)

/-- INIT's elements (R195 to R201). -/
theorem listed_programInit (p : Params) (c : Command) : ∀ op ∈ programInit p c, ListedOp c.initW8 op := by
  have displayOff : ListedByte (encDisplayControl false false false) := .inl (by decide)
  have clear : ListedByte encClear := .inl (by decide)
  have entryMode : ListedByte (encEntryMode true false) := .inl (by decide)
  have displayOn : ListedByte (encDisplayControl true false false) := .inl (by decide)
  simp only [programInit, initConfigure, initPowerOn, initWakeUp, initFunctionSet, initDisplay, initHome,
    List.forall_mem_append, List.forall_mem_cons, List.not_mem_nil, false_implies, implies_true, true_and, and_true,
    ListedOp.timerInit, ListedOp.storeConfig, ListedOp.rsLow, ListedOp.setFsm, ListedOp.instr, listed_wakeUpOp,
    listedByte_functionSet, listedByte_setDdram_origin, displayOff, clear, entryMode, displayOn]
  have waitsUs := listed_waitUsOps c.initW8
  exact ⟨⟨listed_waitMsOps _ _, ⟨waitsUs _, waitsUs _⟩, waitsUs _⟩, listed_initSwitch _⟩

theorem listed_instr (w8 : Bool) {b : Byte} (h : ListedByte b) : ∀ op ∈ [instrOp b], ListedOp w8 op :=
  List.forall_mem_singleton.mpr (.instr h)

theorem listed_data (w8 : Bool) (bs : List Byte) : ∀ op ∈ bs.map dataOp, ListedOp w8 op :=
  List.forall_mem_map.mpr fun b _ => .data b

/-- SETCUR's byte is 0x80 or 0xC0 plus the column (R111, R221). -/
theorem listed_programSetcur (w8 : Bool) (p : Params) (c : Command) : ∀ op ∈ programSetcur p c, ListedOp w8 op := by
  by_cases h : cursorInRange c.arg0 c.arg1 = true
  · obtain ⟨hcol, hrow⟩ := cursorInRange_iff.mp h
    rw [programSetcur_of_inRange h, encSetDdram_ddramAddr hcol hrow]
    refine listed_instr w8 (.inr (.inr ⟨c.arg0.toNat, hcol, ?_⟩))
    split
    · exact .inl rfl
    · exact .inr rfl
  · rw [programSetcur_of_not_inRange h]
    exact List.forall_mem_nil _

/-- GLYPH's instruction byte is 0x40 plus 8 times the index (R112, R228). -/
theorem listed_programGlyph (w8 : Bool) (p : Params) (c : Command) : ∀ op ∈ programGlyph p c, ListedOp w8 op := by
  by_cases h : glyphInRange c.arg0 = true
  · have hindex := glyphInRange_iff.mp h
    rw [programGlyph_of_inRange h, encSetCgram_cgramAddr hindex, Nat.mul_comm]
    exact List.forall_mem_cons.mpr ⟨.instr (.inr (.inl ⟨c.arg0.toNat, hindex, rfl⟩)),
      List.forall_mem_append.mpr ⟨listed_data w8 _, listed_data w8 [0x00#8]⟩⟩
  · rw [programGlyph_of_not_inRange h]
    exact List.forall_mem_nil _

theorem listed_programCuron (w8 : Bool) (p : Params) (c : Command) : ∀ op ∈ programCuron p c, ListedOp w8 op := by
  refine listed_instr w8 (.inl ?_)
  rw [encDisplayControl_blinkOf]
  split
  · decide
  · decide

/-- R109: every command's program is listed. -/
theorem listed_program (p : Params) (c : Command) :
    ∀ program ∈ [programInit, programSetcur, programPutc, programPrint, programScrl, programScrr, programCuron, programCuroff,
      programGlyph, programClear, programHome], ∀ op ∈ program p c, ListedOp c.initW8 op := by
  simp only [List.forall_mem_cons, List.not_mem_nil, false_implies, implies_true, and_true]
  exact ⟨listed_programInit p c, listed_programSetcur _ p c, listed_data _ [c.arg0], listed_data _ _,
    listed_instr _ (.inl (by decide)), listed_instr _ (.inl (by decide)), listed_programCuron _ p c,
    listed_instr _ (.inl (by decide)), listed_programGlyph _ p c,
    List.forall_mem_cons.mpr ⟨.instr (.inl (by decide)), listed_instr _ listedByte_setDdram_origin⟩,
    listed_instr _ listedByte_setDdram_origin⟩

/-- A display command's program is byte transfers alone (R220). -/
theorem onlyTransfers_displayProgram (p : Params) (c : Command) :
    ∀ program ∈ [programSetcur, programPutc, programPrint, programScrl, programScrr, programCuron, programCuroff, programGlyph,
      programClear, programHome], onlyTransfers (program p c) := by
  simp only [List.forall_mem_cons, List.not_mem_nil, false_implies, implies_true, and_true]
  exact ⟨programSetcur_transfers p c, programPutc_transfers p c, programPrint_transfers p c, programScrl_transfers p c,
    programScrr_transfers p c, programCuron_transfers p c, programCuroff_transfers p c, programGlyph_transfers p c,
    programClear_transfers p c, programHome_transfers p c⟩

/-- Settles O48: every element of a command's program is listed, and listed elements latch their own transfers. -/
theorem emittedTransfersListed : Obligations.EmittedTransfersListed := by
  refine fun p c => ⟨fun program hp op hop rs n hn => ?_, fun program hp => ?_⟩
  · obtain ⟨_, _, rfl⟩ := onlyTransfers_displayProgram p c program hp op hop
    cases hn
  · have listed := listed_program p c program hp
    refine ⟨fun w8 => latchedFrom_listed listed none none, fun op hop => ?_⟩
    have h := listed op hop
    exact ⟨⟨h.ne_enablePulse, fun _ he => h.line_cases he⟩, fun _ hb => h.sendByte_listed hb,
      fun _ _ hn => h.sendNibble_cases hn⟩

end Sys2Proof.Machine
end

section
/-!
The waits and the delay timer (R145, R281 to R286): what a wait of one or more units leaves, and the timers that never set their
flag.
-/

namespace Sys2Proof.Machine

/-! ### A timer that does not count (R286, U11) -/

theorem Timer.counts_load_eq_false_iff {w p : Nat} {t : Timer} :
    (t.load w p).counts = false ↔ (p - 1) % 2 ^ w = 0 ∨ t.configured = false := by
  simp only [Timer.counts, Timer.load_configured, Timer.load_reload, Bool.and_eq_false_iff, bne_eq_false_iff_eq]
  exact or_comm

/-- A timer at 0 that does not count stays as it is: it is not configured, or it reloads 0 (R286). -/
theorem Timer.cycle_of_not_counts {t : Timer} (hc : t.counts = false) (h0 : t.current = 0) : t.cycle = t := by
  by_cases configured : t.configured = true
  · have reload : t.reload = t.current := by simpa [Timer.counts, configured, h0] using hc
    rw [Timer.cycle, if_pos configured, if_pos h0]
    exact congrArg (fun c => { t with current := c }) reload
  · rw [Timer.cycle, if_neg configured]

theorem Timer.run_of_not_counts {t : Timer} (hc : t.counts = false) (h0 : t.current = 0) (n : Nat) : Timer.run n t = t := by
  induction n with
  | zero => rfl
  | succ n ih => rw [Timer.run_succ, ih, Timer.cycle_of_not_counts hc h0]

theorem Timer.waitTicks_of_not_counts {w p : Nat} {t : Timer} (hc : (t.load w p).counts = false) (k : Nat) :
    t.waitTicks w p k = none := by
  simp [Timer.waitTicks, hc]

/-! ### The wait of `n > 0` units (R284, R285) -/

/-- A wait on a timer that does not count is stuck (U11). -/
theorem waiting_of_not_counts {s : State} {p n : Nat} (hn : 0 < n) (hc : (s.timer.load s.params.timerWidth p).counts = false)
    (e : Event) : waiting p n e s = .fault .waitNeverReturns := by
  obtain ⟨m, rfl⟩ := Nat.exists_eq_add_one.mpr hn
  simp [waiting, Timer.waitUnits, Timer.waitTicks_of_not_counts hc]

/-- A wait that ends emits its event and leaves the reload register at its period less one. -/
theorem waiting_of_waitsEnd {s : State} {p n : Nat} (hn : 0 < n) (hw : s.waitsEnd p) (e : Event) :
    ∃ t, waiting p n e s = .next t ∧
      t = { s with trace := s.trace ++ [e], timer := t.timer, draws := t.draws } ∧ t.timer.reload = p - 1 := by
  obtain ⟨configured, h2, hp⟩ := hw
  obtain ⟨u, hu⟩ := Timer.waitUnits_ends n s.draws configured h2 hp
  refine ⟨_, waiting_eq_next.mpr ⟨u, hu, rfl⟩, rfl, ?_⟩
  obtain ⟨h0, -⟩ | ⟨m, -, -, rfl⟩ := Timer.waitUnits_cases hu
  · omega
  · exact Nat.mod_eq_of_lt (by omega)

theorem driveAll_singleton (e : Event) (s : State) : driveAll [e] s = drive e s := by
  rw [driveAll]
  cases drive e s <;> rfl

theorem perform_waitUs {n : Nat} (hn : 0 < n) (s : State) :
    perform (.line (.waitUs n)) s = waiting s.params.ticksPerUs n (.waitUs n) s := by
  rw [perform, events_waitUs, issueUs, if_neg hn.ne']
  exact driveAll_singleton _ _

theorem perform_waitMs {n : Nat} (hn : 0 < n) (s : State) :
    perform (.line (.waitMs n)) s = waiting s.params.ticksPerMs n (.waitMs n) s := by
  rw [perform, events_waitMs, issueMs, if_neg hn.ne']
  exact driveAll_singleton _ _

/-- Settles O14: an issued wait is `waiting` of its unit's period, and one of length 0 has no event to drive. -/
theorem waitsEmitTheirEvent : Obligations.WaitsEmitTheirEvent := by
  refine fun s n c => ⟨fun hn => ?_, fun hn => ?_, rfl, rfl⟩
  · rw [perform_waitUs hn]
    exact waiting_of_waitsEnd hn c.waitsUs _
  · rw [perform_waitMs hn]
    exact waiting_of_waitsEnd hn c.waitsMs _

/-- Settles O24: such a timer, loaded, is the same after any number of cycles, and a wait asks whether it counts. -/
theorem reloadZeroIsStuck : Obligations.ReloadZeroIsStuck := by
  refine ⟨fun w p t h => ?_, fun s n hn => ⟨fun h => ?_, fun h => ?_⟩⟩
  · have hc := Timer.counts_load_eq_false_iff.mpr h
    exact ⟨fun n => by rw [Timer.run_of_not_counts hc rfl, Timer.load_countFlag], Timer.waitTicks_of_not_counts hc⟩
  · rw [perform_waitUs hn, waiting_of_not_counts hn (Timer.counts_load_eq_false_iff.mpr h)]
  · rw [perform_waitMs hn, waiting_of_not_counts hn (Timer.counts_load_eq_false_iff.mpr h)]

end Sys2Proof.Machine
end

section
/-!
ENABLE_PULSE (R144): driving events that move neither RS nor the data lines.
-/

namespace Sys2Proof.Machine

/-- Driving lines changes OUTREG, the timer, TRACE and the count of free values alone. -/
theorem driveAll_frame {s t : State} {es : List Event} (h : driveAll es s = .next t) :
    t = { s with outreg := t.outreg, timer := t.timer, draws := t.draws, trace := s.trace ++ es } := by
  have d := driveAll_drives h
  have q := driveAll_sequencer h
  cases s
  cases t
  simp only [State.mk.injEq, true_and, and_true]
  exact ⟨d.params, d.cfgRS, d.cfgEN, d.cfgPort, d.cfgW8, q.fsm, q.busy, q.prog, q.upc, d.latch, d.trace, d.fault, d.presented⟩

/-- An event that moves neither RS nor the data lines writes no register but the Enable line's. -/
theorem drive_memRead_of_still {s t : State} {e : Event} (w : s.outreg.wf) (he : e.movesLine = false)
    (h : drive e s = .next t) {a : Nat} (ha : a ≠ s.cfgEN.addr) : t.memRead a = s.memRead a := by
  cases e with
  | setE b =>
    obtain ⟨-, rfl⟩ := accessing_eq_next.mp h
    exact memRead_memWrite_of_ne w ha _
  | waitUs n =>
    obtain ⟨_, -, rfl⟩ := waiting_eq_next.mp h
    rfl
  | waitMs n =>
    obtain ⟨_, -, rfl⟩ := waiting_eq_next.mp h
    rfl
  | _ => cases he

theorem driveAll_memRead_of_still {s t : State} {es : List Event} (w : s.outreg.wf) (hes : ∀ e ∈ es, e.movesLine = false)
    (h : driveAll es s = .next t) {a : Nat} (ha : a ≠ s.cfgEN.addr) : t.memRead a = s.memRead a := by
  induction es generalizing s with
  | nil => cases h; rfl
  | cons e es ih =>
    obtain ⟨u, hu, ht⟩ := andThen_eq_next.mp h
    have d := drive_drives hu
    rw [ih (d.wf w) (fun f hf => hes f (by simp [hf])) ht (by rw [d.cfgEN]; exact ha)]
    exact drive_memRead_of_still w (hes e (by simp)) hu ha

/-- Such an event changes no bit outside the Enable line's mask. -/
theorem touches_enable_of_still {s : State} {e : Event} (he : e.movesLine = false) {k : Nat}
    (hk : s.cfgEN.mask.testBit k = false) (a : Nat) : touches s a k e = false := by
  cases e with
  | setE b => simp [touches, hk]
  | waitUs n => rfl
  | waitMs n => rfl
  | _ => cases he

/-- A write of a one-bit Enable line is what the line carries (R42, R74). -/
theorem lineE_writeLine {s : State} (w : s.outreg.wf) {k : Nat} (hk : k < s.params.portWidth) (hm : s.cfgEN.mask = 2 ^ k)
    (b : Bool) : (s.writeLine s.cfgEN b).lineE = b := by
  rw [State.lineE, State.pinHigh, writeLine_cfgEN, hm, and_two_pow_ne_zero, testBit_memRead_writeLine_same w _ _ hk, hm,
    Nat.testBit_two_pow_self, if_pos rfl]

theorem drive_lineE_of_still {s t : State} {e : Event} (w : s.outreg.wf) {k : Nat} (hk : k < s.params.portWidth)
    (hm : s.cfgEN.mask = 2 ^ k) (he : e.movesLine = false) (h : drive e s = .next t) : t.lineE = lastE s.lineE [e] := by
  cases e with
  | setE b =>
    obtain ⟨-, rfl⟩ := accessing_eq_next.mp h
    exact lineE_writeLine w hk hm b
  | waitUs n =>
    obtain ⟨_, -, rfl⟩ := waiting_eq_next.mp h
    rfl
  | waitMs n =>
    obtain ⟨_, -, rfl⟩ := waiting_eq_next.mp h
    rfl
  | _ => cases he

/-- Where RS and the data lines stand still, a one-bit Enable line carries what was written to it last, wherever those lines
are. -/
theorem driveAll_lineE_of_still {s t : State} {es : List Event} (w : s.outreg.wf) {k : Nat} (hk : k < s.params.portWidth)
    (hm : s.cfgEN.mask = 2 ^ k) (hes : ∀ e ∈ es, e.movesLine = false) (h : driveAll es s = .next t) :
    t.lineE = lastE s.lineE es := by
  induction es generalizing s with
  | nil => cases h; rfl
  | cons e es ih =>
    obtain ⟨u, hu, ht⟩ := andThen_eq_next.mp h
    have d := drive_drives hu
    rw [ih (d.wf w) (by rw [d.params]; exact hk) (by rw [d.cfgEN]; exact hm) (fun f hf => hes f (by simp [hf])) ht,
      drive_lineE_of_still w hk hm (hes e (by simp)) hu]
    rfl

/-- A pulse moves neither RS nor the data lines (R144). -/
theorem movesLine_of_mem_pulse {p : Params} (h : PulseWaits p) : ∀ e ∈ pulseEvents p, e.movesLine = false := by
  rw [pulseEvents_eq h]
  simp [Event.movesLine]

/-- Settles O13: the pulse's events are driven to their end, and each moves the Enable line or none. -/
theorem enablePulseProtocol : Obligations.EnablePulseProtocol := by
  intro s c w hp hE
  have pw := PulseWaits.of_paramsOk hp
  have still := movesLine_of_mem_pulse pw
  obtain ⟨j, hj, hm⟩ := isOneBit_iff.mp hE
  obtain ⟨t, ht⟩ := driveAll_ends c (pulseEvents s.params)
  refine ⟨t, ht, pulseEvents_eq pw ▸ driveAll_frame ht, ?_, fun a ha => driveAll_memRead_of_still w still ht ha,
    fun k hk hout => ?_⟩
  · rw [driveAll_lineE_of_still w hj hm still ht, lastE_pulse pw]
  · exact (driveAll_drives ht).bits w _ k hk fun e he => touches_enable_of_still (still e he) hout _

end Sys2Proof.Machine
end

section
/-!
SEND_BYTE and SEND_NIBBLE (R146, R148): their events spelled out, their pulses and data writes (R151), and their least durations
(R152).
-/

namespace Sys2Proof.Machine

/-- The long wait is issued under the minimum of R12. -/
theorem issueMs_tLongMs {p : Params} (h : paramsOk p = true) : issueMs p.tLongMs = [.waitMs p.tLongMs] := by
  simp only [paramsOk, Bool.and_eq_true] at h
  have hlong := (timingOk_iff.mp h.1.2).2.2.2.2.2.2
  exact if_neg (by omega)

/-- The trace after a micro-operation other than INIT's setup. -/
theorem perform_trace {s : State} (c : s.CanDrive) {op : MicroOp} (hop : op.isSetup = false) :
    ∃ t, perform op s = .next t ∧ t.trace = s.trace ++ op.events s.params s.cfgW8 := by
  obtain ⟨t, ht⟩ := perform_ends c hop
  exact ⟨t, ht, (perform_drives hop ht).1.trace⟩

/-- Settles O15: the events of SEND_BYTE with those of its pulses and of its long wait written out. -/
theorem sendByteProtocol : Obligations.SendByteProtocol := by
  intro s rs b c hp
  obtain ⟨t, ht, htrace⟩ := perform_trace c (op := .sendByte rs b) rfl
  refine ⟨t, ht, ?_⟩
  rw [htrace, events_sendByte, byteEvents, pulseEvents_eq (PulseWaits.of_paramsOk hp), issueMs_tLongMs hp, List.append_assoc,
    List.append_assoc, List.append_assoc]
  rfl

/-- Settles O16: the events of SEND_NIBBLE with those of its pulse written out. -/
theorem sendNibbleProtocol : Obligations.SendNibbleProtocol := by
  intro s rs n c hp
  obtain ⟨t, ht, htrace⟩ := perform_trace c (op := .sendNibble rs n) rfl
  refine ⟨t, ht, ?_⟩
  rw [htrace, events_sendNibble, nibbleEvents, pulseEvents_eq (PulseWaits.of_paramsOk hp)]
  rfl

/-! ### Pulses and data writes (R151) -/

theorem pulseCount_append (es fs : List Event) : pulseCount (es ++ fs) = pulseCount es + pulseCount fs := List.countP_append

@[simp] theorem pulseCount_issueUs (n : Nat) : pulseCount (issueUs n) = 0 := by
  unfold issueUs
  split <;> rfl

@[simp] theorem pulseCount_issueMs (n : Nat) : pulseCount (issueMs n) = 0 := by
  unfold issueMs
  split <;> rfl

@[simp] theorem writesData_issueUs (n : Nat) : (issueUs n).filter Event.writesData = [] := by
  unfold issueUs
  split <;> rfl

@[simp] theorem writesData_issueMs (n : Nat) : (issueMs n).filter Event.writesData = [] := by
  unfold issueMs
  split <;> rfl

/-- ENABLE_PULSE is one pulse, whatever its waits are (R144). -/
@[simp] theorem pulseCount_pulse (p : Params) : pulseCount (pulseEvents p) = 1 := by
  simp only [pulseEvents, pulseCount_append, pulseCount_issueUs]
  rfl

/-- ENABLE_PULSE writes no data. -/
@[simp] theorem writesData_pulse (p : Params) : (pulseEvents p).filter Event.writesData = [] := by
  simp only [pulseEvents, List.filter_append, writesData_issueUs]
  rfl

theorem pulseCount_latch (p : Params) {e : Event} (he : e.writesData = true) : pulseCount (e :: pulseEvents p) = 1 := by
  have hne : ¬ (e == .setE false) = true := fun h => by
    rw [beq_iff_eq.mp h] at he
    cases he
  exact (List.countP_cons_of_neg (p := (· == Event.setE false)) hne).trans (pulseCount_pulse p)

theorem writesData_latch (p : Params) {e : Event} (he : e.writesData = true) :
    (e :: pulseEvents p).filter Event.writesData = [e] := by
  rw [List.filter_cons_of_pos he, writesData_pulse]

/-- One pulse for each data write of the width (R146). -/
theorem pulseCount_byte (p : Params) (w8 rs : Bool) (b : Byte) : pulseCount (byteEvents p w8 rs b) = if w8 then 1 else 2 := by
  have long : pulseCount (if longWait p rs b then issueMs p.tLongMs else []) = 0 := by
    split
    · exact pulseCount_issueMs _
    · rfl
  have rsLine : pulseCount [.setRS rs] = 0 := rfl
  rw [byteEvents, pulseCount_append, pulseCount_append, long, rsLine]
  cases w8
  · rw [if_neg Bool.false_ne_true, pulseCount_append, pulseCount_latch p rfl, pulseCount_latch p rfl]
    rfl
  · rw [if_pos rfl, pulseCount_latch p rfl]
    rfl

/-- The data writes of a byte transfer, the high nibble first (R146). -/
theorem writesData_byte (p : Params) (w8 rs : Bool) (b : Byte) :
    (byteEvents p w8 rs b).filter Event.writesData = if w8 then [.bus8 b] else [.bus4 (hiNibble b), .bus4 (loNibble b)] := by
  have long : (if longWait p rs b then issueMs p.tLongMs else []).filter Event.writesData = [] := by
    split
    · exact writesData_issueMs _
    · rfl
  have rsLine : [Event.setRS rs].filter Event.writesData = [] := rfl
  rw [byteEvents, List.filter_append, List.filter_append, long, rsLine, List.append_nil, List.nil_append]
  cases w8
  · rw [if_neg Bool.false_ne_true, List.filter_append, writesData_latch p rfl, writesData_latch p rfl]
    rfl
  · rw [if_pos rfl, writesData_latch p rfl]
    rfl

/-- Settles O18: `pulseCount_byte` and `writesData_byte` for each width. -/
theorem pulsesPerByte : Obligations.PulsesPerByte := fun p rs b =>
  ⟨⟨pulseCount_byte p false rs b, writesData_byte p false rs b⟩, pulseCount_byte p true rs b, writesData_byte p true rs b⟩

/-! ### Least durations (R152) -/

@[simp] theorem minMicros_issueUs (n : Nat) : minMicros (issueUs n) = n := by
  unfold issueUs
  split
  · exact (‹n = 0›).symm
  · rfl

@[simp] theorem minMicros_issueMs (n : Nat) : minMicros (issueMs n) = 1000 * n := by
  unfold issueMs
  split
  · rw [‹n = 0›]; rfl
  · rfl

/-- A pulse takes its three waits (R144). -/
theorem minMicros_pulse (p : Params) : minMicros (pulseEvents p) = p.tSetupUs + p.tPulseUs + p.tSettleUs := by
  simp [pulseEvents, minMicros_append, Event.micros, Nat.add_assoc]

/-- A byte transfer takes its pulses and, where the predicate holds, its long wait (R146). -/
theorem minMicros_byte (p : Params) (w8 rs : Bool) (b : Byte) :
    minMicros (byteEvents p w8 rs b) =
      (if w8 then 1 else 2) * (p.tSetupUs + p.tPulseUs + p.tSettleUs) +
        if longWait p rs b then 1000 * p.tLongMs else 0 := by
  have long : minMicros (if longWait p rs b then issueMs p.tLongMs else []) = if longWait p rs b then 1000 * p.tLongMs else 0 := by
    split
    · exact minMicros_issueMs _
    · rfl
  rw [byteEvents, minMicros_append, long, minMicros_append]
  congr 1
  cases w8
  · simp [minMicros_append, minMicros_pulse, Event.micros, Nat.two_mul]
  · simp [minMicros_pulse, Event.micros]

/-- A stand-alone nibble transfer takes one pulse (R148). -/
theorem minMicros_nibble (p : Params) (rs : Bool) (n : Nibble) :
    minMicros (nibbleEvents p rs n) = p.tSetupUs + p.tPulseUs + p.tSettleUs := by
  simp [nibbleEvents, minMicros_pulse, Event.micros]

end Sys2Proof.Machine
end

section
/-!
The long-wait predicate (R150), and the two commands that turn on it: CLEAR and HOME (R229, R230).
-/

namespace Sys2Proof.Machine

/-- Clear-display is a long instruction under either setting (R150). -/
theorem longWait_clear (p : Params) : longWait p false 0x01#8 = true := by
  unfold longWait
  cases p.longWaitRule <;> rfl

/-- Set-DDRAM-address 0 is a long instruction under neither setting (R150). -/
theorem longWait_setDdram_origin (p : Params) : longWait p false 0x80#8 = false := by
  unfold longWait
  cases p.longWaitRule <;> rfl

/-- Settles O37: the durations by their waits, at the defaults. -/
theorem transferDurations : Obligations.TransferDurations := by
  rintro p ⟨-, -, -, -, hsetup, hpulse, hsettle, hlong⟩
  refine ⟨fun rs b h => ?_, fun rs b h => ?_, longWait_clear p, fun rs n => ?_⟩
  · simp [minMicros_byte, h, hsetup, hpulse, hsettle]
  · simp [minMicros_byte, h, hsetup, hpulse, hsettle, hlong]
  · rw [minMicros_nibble, hsetup, hpulse, hsettle]

/-- R150, as the spec words it. -/
theorem longWait_iff (p : Params) (rs : Bool) (b : Byte) :
    longWait p rs b = true ↔
      rs = false ∧ match p.longWaitRule with
        | .equal => b = 0x01#8 ∨ b = 0x02#8
        | .below4 => b.toNat < 0x04 := by
  unfold longWait
  cases p.longWaitRule <;> simp [encClear, encReturnHome]

/-- Being below 4 and being 0x01 or 0x02 differ on 0x00 and 0x03 alone. -/
theorem settings_differ_iff :
    ∀ b : Byte, (b == encClear || b == encReturnHome) ≠ decide (b.toNat < 4) ↔ b = 0x00#8 ∨ b = 0x03#8 := by
  decide

/-- The two settings tell the instruction bytes 0x00 and 0x03 apart and no others (R150). -/
theorem longWait_settings_differ_iff (p : Params) (rs : Bool) (b : Byte) :
    longWait { p with longWaitRule := .equal } rs b ≠ longWait { p with longWaitRule := .below4 } rs b ↔
      rs = false ∧ (b = 0x00#8 ∨ b = 0x03#8) := by
  cases rs with
  | true => exact iff_of_false (fun h => h rfl) nofun
  | false => exact (settings_differ_iff b).trans (and_iff_right rfl).symm

/-- No command sends 0x00 or 0x03 as an instruction byte (R109). -/
theorem ListedByte.ne_zero_three {b : Byte} (h : ListedByte b) : ¬ (b = 0x00#8 ∨ b = 0x03#8) := by
  obtain h | ⟨k, hk, rfl⟩ | ⟨k, hk, rfl | rfl⟩ := h
  · revert b; decide
  · revert k; decide
  · revert k; decide
  · revert k; decide

/-- An element of a command's program has the same events under both settings. -/
theorem ListedOp.events_equal_below4 {wi : Bool} {op : MicroOp} (h : ListedOp wi op) (p : Params) (w8 : Bool) :
    op.events { p with longWaitRule := .equal } w8 = op.events { p with longWaitRule := .below4 } w8 := by
  have byte : ∀ (rs : Bool) (b : Byte), ¬ (rs = false ∧ (b = 0x00#8 ∨ b = 0x03#8)) →
      byteEvents { p with longWaitRule := .equal } w8 rs b = byteEvents { p with longWaitRule := .below4 } w8 rs b := by
    intro rs b hb
    rw [← longWait_settings_differ_iff p, not_not] at hb
    rw [byteEvents, byteEvents, hb]
    rfl
  cases h with
  | instr hb => exact byte _ _ fun hl => hb.ne_zero_three hl.2
  | data b => exact byte _ _ fun hl => Bool.noConfusion hl.1
  | _ => rfl

/-- Settles O17: what the predicate says, where its settings differ, and that no listed element is there. -/
theorem longWaitPredicate : Obligations.LongWaitPredicate := by
  refine ⟨longWait_iff, longWait_settings_differ_iff, fun p w8 c program hp => ?_⟩
  exact List.flatMap_congr fun op hop => (listed_program p c program hp op hop).events_equal_below4 p w8

/-- Settles O45: CLEAR's program is two instruction bytes, HOME's is one, and `longWait_clear` and `longWait_setDdram_origin` say
which has its long wait. -/
theorem clearAndHome : Obligations.ClearAndHome := by
  refine ⟨⟨?_, faultsUnlessReady_of (fun _ => rfl) fun _ => rfl⟩, ⟨?_, faultsUnlessReady_of (fun _ => rfl) fun _ => rfl⟩,
    fun p => ⟨longWait_clear p, longWait_setDdram_origin p⟩⟩
  · exact emits_of_program (program := programClear) (fun _ => rfl) (fun p _ => programClear_transfers p _) fun p w8 _ =>
      congrArg (byteEvents p w8 false encClear ++ ·) (programEvents_instr p w8 _)
  · exact emits_of_program (program := programHome) (fun _ => rfl) (fun p _ => programHome_transfers p _) fun p w8 _ =>
      programEvents_instr p w8 _

end Sys2Proof.Machine
end

section
/-!
The strobing properties (R153) of what one command adds to the trace.
-/

namespace Sys2Proof.Machine

theorem strobed_nil (p : Params) (w8 : Bool) : strobed p w8 [] = true := rfl

/-- A segment on its own is strobed. -/
theorem Segment.strobed {p : Params} {w8 : Bool} {es : List Event} (g : Segment p w8 es) : strobed p w8 es = true :=
  (strobed_append (strobed_nil p w8) rfl g).1

/-- What an accepted display command adds is strobed: nothing for one that raises a fault, else its program's transfers. -/
theorem exec_command_strobed {i : Instr} (hi : isCommand i = true) {s t : State} (a : s.AcceptsDisplay) (he : exec i s = .next t) :
    ∃ es, t.trace = s.trace ++ es ∧ strobed s.params s.cfgW8 es = true := by
  have raised : ∀ r, ∃ es, (s.raise r).trace = s.trace ++ es ∧ strobed s.params s.cfgW8 es = true := fun r =>
    ⟨[], (List.append_nil _).symm, strobed_nil _ _⟩
  rcases exec_shape i with ⟨rs, en, port, w8, rfl⟩ | ⟨program, hd⟩ | ⟨op, hx⟩ | ⟨op, -, hx⟩
  · obtain ⟨-, -, ⟨-, rfl⟩ | ⟨-, -, rfl⟩ | ⟨-, hu, -, -⟩⟩ := execInit_cases he
    · exact raised _
    · exact raised _
    · rw [a.ready] at hu; cases hu
  · obtain ⟨-, -, ⟨-, rfl⟩ | ⟨-, hrun⟩⟩ := displayCommand_cases ((hd.exec s).symm.trans he)
    · exact raised _
    · have transfers := hd.transfers s.params (i.onPort s.commandPort)
      exact ⟨_, (runAccepted_displayed transfers hrun).drives.trace,
        (Segment.transfers (AcceptsDisplay.pulseWaits a) transfers).strobed⟩
  · obtain ⟨-, -, rfl⟩ := reservedCommand_eq_next.mp ((hx s).symm.trans he)
    exact raised _
  · exact absurd hx (exec_command_not_transfer hi op)

/-- INIT's events are strobed on the width they are for. -/
theorem strobed_initEvents {p : Params} (h : PulseWaits p) (w8 : Bool) : strobed p w8 (initEvents p w8) = true := by
  rw [← initRest_events]
  exact (Segment.initRest h w8).strobed

/-- Settles O49: `exec_command_strobed` for the display commands, `strobed_initEvents` for INIT. -/
theorem commandTracesStrobed : Obligations.CommandTracesStrobed := by
  refine ⟨fun i s t hi a he => exec_command_strobed hi a he, fun s t rs en port w8 a he => ?_⟩
  obtain ⟨u, hu, effect⟩ := execInit_effect a
  obtain rfl : u = t := Host.Outcome.next.inj (hu.symm.trans he)
  exact ⟨_, effect.trace, strobed_initEvents (pulseWaits_of_admissible a.admissible) w8⟩

end Sys2Proof.Machine
end

section
/-!
The encoder's bytes as numbers (R171 to R178).
-/

namespace Sys2Proof.Machine

/-- Bits side by side weigh what the upper ones weigh, shifted past the lower ones, and what the lower ones weigh. -/
theorem toNat_append_eq_add {m n : Nat} (x : BitVec m) (y : BitVec n) : (x ++ y).toNat = 2 ^ n * x.toNat + y.toNat := by
  rw [BitVec.toNat_append, ← Nat.shiftLeft_add_eq_or_of_lt y.isLt, Nat.shiftLeft_eq, Nat.mul_comm]

/-- Settles O5: each byte is its row's bit fields side by side, and a number is the sum of its fields, each at its place. -/
theorem encoderBytes : Obligations.EncoderBytes := by
  refine ⟨rfl, rfl, fun i s => ?entryMode, fun d c b => ?displayControl, fun sc rl => ?shift, fun dl n f => ?functionSet,
    fun a => ?cgram, fun a => ?ddram⟩
  case' entryMode => rw [encEntryMode_eq_append]
  case' displayControl => rw [encDisplayControl_eq_append]
  case' shift => rw [encShift_eq_append]
  case' functionSet => rw [encFunctionSet_eq_append]
  case' cgram => rw [encSetCgram_eq_append]
  case' ddram => rw [encSetDdram_eq_append]
  all_goals simp only [toNat_append_eq_add, BitVec.toNat_ofBool, BitVec.toNat_ofNat]; omega

end Sys2Proof.Machine
end

section
/-!
INIT (R192 to R203): its faults, its whole effect, the transfers, pulses, events and least duration of its sequence, and that it
alone moves the FSM.
-/

namespace Sys2Proof.Machine

/-- Settles O29: INIT on an idle engine is its two tests of R193 and R194 in that order. -/
theorem initFaultsInOrder : Obligations.InitFaultsInOrder := by
  intro s rs en port w8 hf hb
  refine ⟨fun inadmissible => ?_, fun admissible initialised => ?_⟩
  · exact (whenIdle_of_idle hf hb).trans (if_neg (Bool.eq_false_iff.mp inadmissible))
  · exact (whenIdle_of_idle hf hb).trans ((if_pos admissible).trans (if_neg initialised))

/-- Settles O34: `execInit_effect`. -/
theorem initRunsWholeSequence : Obligations.InitRunsWholeSequence := fun _ _ _ _ _ a => execInit_effect a

/-- Settles O58: of the four kinds of next state (`exec_next`) INIT's alone has another FSM. -/
theorem onlyInitMovesFsm : Obligations.OnlyInitMovesFsm := by
  intro i s t h
  obtain ⟨-, next⟩ := exec_next h
  rcases next with ⟨r, -, rfl⟩ | ⟨program, -, -, -, -, e⟩ | ⟨rs, en, port, w8, rfl, -, hu, -, e⟩ | ⟨op, ht, hp⟩
  · exact ⟨rfl, .inl rfl⟩
  · exact ⟨e.drives.params, .inl e.fsm⟩
  · exact ⟨e.drives.params, .inr ⟨⟨rs, en, port, w8, rfl⟩, hu, e.fsm⟩⟩
  · obtain ⟨d, -, -, -, hfsm⟩ := perform_drives ht.noSetup hp
    exact ⟨d.params, .inl (hfsm.trans (ht.fsm _))⟩

/-! ### The transfers and pulses of INIT (R203) -/

theorem listed_initRest (p : Params) (w8 : Bool) : ∀ op ∈ initRest p w8, ListedOp w8 op := by
  have h := listed_programInit p { Command.blank 0x0#4 with initW8 := w8 }
  rw [programInit_eq] at h
  exact (List.forall_mem_cons.mp (List.forall_mem_cons.mp h).2).2

theorem transfers_waitUsOps (w8 : Bool) (n : Nat) : (waitUsOps n).flatMap (MicroOp.transfers w8) = [] := by
  unfold waitUsOps
  split <;> rfl

theorem transfers_waitMsOps (w8 : Bool) (n : Nat) : (waitMsOps n).flatMap (MicroOp.transfers w8) = [] := by
  unfold waitMsOps
  split <;> rfl

/-- The transfers of INIT's program: whole bytes, or the four stand-alone nibbles and then the bytes' halves (R203). -/
theorem transfers_initRest (p : Params) (w8 : Bool) :
    (initRest p w8).flatMap (MicroOp.transfers w8) =
      if w8 then
        [0x30#8, 0x30#8, 0x30#8, 0x38#8, 0x08#8, 0x01#8, 0x06#8, 0x0C#8, 0x80#8].map fun b => ⟨false, .byte b⟩
      else
        [0x3#4, 0x3#4, 0x3#4, 0x2#4, 0x2#4, 0x8#4, 0x0#4, 0x8#4, 0x0#4, 0x1#4, 0x0#4, 0x6#4, 0x0#4, 0xC#4, 0x8#4,
          0x0#4].map fun n => ⟨false, .nibble n⟩ := by
  simp only [initRest, initPowerOn, initWakeUp, List.flatMap_append, List.flatMap_cons, transfers_waitUsOps, transfers_waitMsOps]
  cases w8 <;> rfl

/-- A stand-alone nibble transfer is one pulse (R148). -/
theorem pulseCount_nibble (p : Params) (rs : Bool) (n : Nibble) : pulseCount (nibbleEvents p rs n) = 1 := by
  rw [nibbleEvents, pulseCount_append, pulseCount_pulse]
  rfl

/-- A listed element pulses once for each of its transfers (R151). -/
theorem ListedOp.pulseCount_events {wi : Bool} {op : MicroOp} (h : ListedOp wi op) (p : Params) (w8 : Bool) :
    pulseCount (op.events p w8) = (op.transfers w8).length := by
  have byte : ∀ rs b, pulseCount (byteEvents p w8 rs b) = (byteLatched w8 rs b).length := fun rs b => by
    rw [pulseCount_byte]
    cases w8 <;> rfl
  cases h with
  | waitUs n => exact pulseCount_issueUs n
  | waitMs n => exact pulseCount_issueMs n
  | instr h => exact byte _ _
  | data b => exact byte _ _
  | nibble h h4 => exact pulseCount_nibble p _ _
  | _ => rfl

theorem pulseCount_listed {wi : Bool} {ops : List MicroOp} (h : ∀ op ∈ ops, ListedOp wi op) (p : Params) (w8 : Bool) :
    pulseCount (programEvents p w8 ops) = (ops.flatMap (MicroOp.transfers w8)).length := by
  induction ops with
  | nil => rfl
  | cons op ops ih =>
    obtain ⟨hop, hops⟩ := List.forall_mem_cons.mp h
    rw [programEvents_cons, pulseCount_append, hop.pulseCount_events, ih hops, List.flatMap_cons, List.length_append]

/-! ### The events and least duration of INIT (R203) -/

/-- An instruction byte of 4 or more has no long wait under either setting (R150). -/
theorem longWait_of_four_le {b : Byte} (h : 4 ≤ b.toNat) (p : Params) (rs : Bool) : longWait p rs b = false := by
  rw [Bool.eq_false_iff, Ne, longWait_iff]
  rintro ⟨-, hb⟩
  split at hb
  · rcases hb with rfl | rfl <;> exact absurd h (by decide)
  · omega

theorem length_pulse {p : Params} (h : PulseWaits p) : (pulseEvents p).length = 5 := by
  rw [pulseEvents_eq h]
  rfl

/-- The RS write, a data write and its pulse for each value of the width, and the long wait where the predicate holds (R146). -/
theorem length_byte {p : Params} (h : PulseWaits p) (w8 rs : Bool) (b : Byte) :
    (byteEvents p w8 rs b).length =
      (if w8 then 7 else 13) + (if longWait p rs b then (issueMs p.tLongMs).length else 0) := by
  rw [byteEvents, List.length_append, apply_ite List.length]
  cases w8 <;> simp [length_pulse h]

theorem length_nibble {p : Params} (h : PulseWaits p) (rs : Bool) (n : Nibble) : (nibbleEvents p rs n).length = 7 := by
  simp [nibbleEvents, length_pulse h]

/-- With default timing INIT has as many events as R203 counts. -/
theorem length_initEvents_of_default {p : Params} (h : Params.hasDefaultTiming p) (w8 : Bool) :
    (initEvents p w8).length = if w8 then 68 else 111 := by
  obtain ⟨powerOn, wake1, wake2, wake3, setup, pulse, settle, long⟩ := h
  have pw : PulseWaits p := ⟨by omega, by omega, by omega⟩
  cases w8 <;>
    simp [initEvents, initPowerOnEvents, initWakeUpEvents, initWakeUpEvents.wakeUp, initDisplayEvents, length_byte pw,
      length_nibble pw, longWait_of_four_le, longWait_clear, issueUs, issueMs, powerOn, wake1, wake2, wake3, long]

/-- With default timing INIT takes as long as R203 says. -/
theorem minMicros_initEvents_of_default {p : Params} (h : Params.hasDefaultTiming p) (w8 : Bool) :
    minMicros (initEvents p w8) = if w8 then 24623 else 24952 := by
  obtain ⟨powerOn, wake1, wake2, wake3, setup, pulse, settle, long⟩ := h
  cases w8 <;>
    simp [initEvents, initPowerOnEvents, initWakeUpEvents, initWakeUpEvents.wakeUp, initDisplayEvents, minMicros_append,
      minMicros_byte, minMicros_nibble, longWait_of_four_le, longWait_clear, Event.micros, powerOn, wake1, wake2, wake3, setup,
      pulse, settle, long]

/-- Settles O36: `execInit_effect` gives the events, which are those of a listed program. -/
theorem initLatchedTransfers : Obligations.InitLatchedTransfers := by
  intro s rs en port w8 a
  obtain ⟨t, ht, effect⟩ := execInit_effect a
  have listed := listed_initRest s.params w8
  refine ⟨t, initEvents s.params w8, ht, effect.trace, ?_, ?_, fun h =>
    ⟨length_initEvents_of_default h w8, minMicros_initEvents_of_default h w8⟩⟩
  · rw [← initRest_events, latched, latchedFrom_listed listed, transfers_initRest]
  · rw [← initRest_events, pulseCount_listed listed, transfers_initRest]
    cases w8 <;> rfl

end Sys2Proof.Machine
end

section
/-!
PUTC, PRINT, SCRL and SCRR (R222 to R225).
-/

namespace Sys2Proof.Machine

/-- Settles O40: PUTC's program is the one data byte. -/
theorem putcSendsByte : Obligations.PutcSendsByte := fun _ =>
  ⟨emits_of_program (program := programPutc) (fun _ => rfl) (fun p _ => programPutc_transfers p _) fun _ _ _ => List.append_nil _,
    faultsUnlessReady_of (fun _ => rfl) fun _ => rfl⟩

/-- A text with no zero byte is sent whole (R223). -/
theorem textToSend_of_ne_zero {sent : List Byte} (h : ∀ b ∈ sent, b ≠ 0) : textToSend sent = sent :=
  List.takeWhile_eq_self_iff.mpr fun b hb => decide_eq_true (h b hb)

/-- The first zero byte ends the text (R223). -/
theorem textToSend_of_terminated {sent : List Byte} (h : ∀ b ∈ sent, b ≠ 0) (rest : List Byte) :
    textToSend (sent ++ 0x00#8 :: rest) = sent :=
  (List.takeWhile_append_of_pos fun b hb => decide_eq_true (h b hb)).trans (List.append_nil _)

/-- PRINT sends the bytes of `textToSend` as data bytes (R223). -/
theorem emits_print (text : List Byte) : Emits (.print text) fun p w8 => (textToSend text).flatMap (byteEvents p w8 true) :=
  emits_of_program (program := programPrint) (fun _ => rfl) (fun p _ => programPrint_transfers p _) fun p w8 _ =>
    programEvents_data p w8 _

/-- Settles O41: `emits_print` of a text with and without a zero byte. -/
theorem printSendsText : Obligations.PrintSendsText := by
  refine ⟨fun sent rest h => ⟨?_, ?_⟩, fun text => faultsUnlessReady_of (fun _ => rfl) fun _ => rfl⟩
  · simpa only [textToSend_of_terminated h] using emits_print (sent ++ 0x00#8 :: rest)
  · simpa only [textToSend_of_ne_zero h] using emits_print sent

/-- Settles O42: each program is one instruction byte. -/
theorem scrollSendsShift : Obligations.ScrollSendsShift := by
  refine ⟨⟨?_, faultsUnlessReady_of (fun _ => rfl) fun _ => rfl⟩, ?_, faultsUnlessReady_of (fun _ => rfl) fun _ => rfl⟩
  · exact emits_of_program (program := programScrl) (fun _ => rfl) (fun p _ => programScrl_transfers p _) fun p w8 _ =>
      programEvents_instr p w8 _
  · exact emits_of_program (program := programScrr) (fun _ => rfl) (fun p _ => programScrr_transfers p _) fun p w8 _ =>
      programEvents_instr p w8 _

end Sys2Proof.Machine
end

section
/-!
The events of a command depend on the parameters and the interface width alone (R220(d)).
-/

namespace Sys2Proof.Machine

/-- The events a command adds, in every state that accepts display commands, as one function of the parameters and the interface
width: those of its program, which is the same over any command port, and none where it raises a fault. -/
theorem exec_command_trace {i : Instr} (hi : isCommand i = true) :
    ∃ es : Params → Bool → List Event, ∀ s t : State, s.AcceptsDisplay → exec i s = .next t →
      t.trace = s.trace ++ es s.params s.cfgW8 := by
  have raised : ∀ (s : State) (r : FaultReason), (s.raise r).trace = s.trace ++ [] := fun s _ => (List.append_nil s.trace).symm
  rcases exec_shape i with ⟨rs, en, port, w8, rfl⟩ | ⟨program, hd⟩ | ⟨op, hx⟩ | ⟨op, -, hx⟩
  · refine ⟨fun _ _ => [], fun s t a he => ?_⟩
    obtain ⟨-, -, ⟨-, rfl⟩ | ⟨-, -, rfl⟩ | ⟨-, uninitialized, -⟩⟩ := execInit_cases he
    · exact raised s _
    · exact raised s _
    · rw [a.ready] at uninitialized; cases uninitialized
  · refine ⟨fun p w8 => programEvents p w8 (program p (i.onPort (.blank 0))), fun s t a he => ?_⟩
    obtain ⟨-, -, ⟨notReady, -⟩ | ⟨-, hrun⟩⟩ := displayCommand_cases ((hd.exec s).symm.trans he)
    · exact absurd a.ready notReady
    · have displayed := runAccepted_displayed (hd.transfers _ _) hrun
      rw [hd.named s.params s.commandPort (.blank 0)] at displayed
      exact displayed.drives.trace
  · refine ⟨fun _ _ => [], fun s t _ he => ?_⟩
    obtain ⟨-, -, rfl⟩ := reservedCommand_eq_next.mp ((hx s).symm.trans he)
    exact raised s _
  · exact absurd hx (exec_command_not_transfer hi op)

/-- Settles O47: `exec_command_trace` in both states. -/
theorem sameCommandSameEvents : Obligations.SameCommandSameEvents := by
  intro i s s' t t' hi a a' hp hw he he'
  obtain ⟨es, trace⟩ := exec_command_trace hi
  refine ⟨es s.params s.cfgW8, trace s t a he, ?_⟩
  rw [hp, hw]
  exact trace s' t' a' he'

end Sys2Proof.Machine
end

section
/-!
The delay timer's registers and constants (R281, R282), the cycle its count flag sets on (R286), and what a wait of several units
takes (R283 to R285, R287).
-/

namespace Sys2Proof.Machine

/-! ### The constants (R281) and the registers after TIMER_INIT (R282) -/

/-- Settles O32: each conjunct of `timerOk` says its part of R281. -/
theorem admissibleTimerConstants : Obligations.AdmissibleTimerConstants := by
  intro p
  simp only [timerOk, Bool.and_eq_true, decide_eq_true_eq, and_assoc]

theorem perform_timerInit (s : State) :
    perform .timerInit s = .next (s.setTimer ⟨true, 2 ^ s.params.timerWidth - 1, 0, false, true⟩) := rfl

/-- Settles O22: what TIMER_INIT writes depends on TIMER_WIDTH alone, so writing it again changes nothing. -/
theorem timerInitRegisters : Obligations.TimerInitRegisters := by
  refine ⟨perform_timerInit, fun s t h => ?_, fun p c => by rw [programInit_eq, List.head?_cons]⟩
  rw [perform_timerInit] at h
  cases h
  rw [perform_timerInit]
  rfl

/-! ### The cycle the count flag sets on (R286) -/

/-- A cycle sets the flag of a configured timer exactly where the counter goes from 1 to 0 (R286). -/
theorem Timer.cycle_countFlag (t : Timer) :
    t.cycle.countFlag = (t.countFlag || (t.configured && t.current == 1)) := by
  by_cases configured : t.configured = true
  · by_cases h0 : t.current = 0 <;> simp [Timer.cycle, configured, h0]
  · simp [Timer.cycle, configured]

/-- No cycle clears the flag; a write to the counter does (R286). -/
theorem Timer.run_keeps_countFlag {t : Timer} (h : t.countFlag = true) (n : Nat) : (Timer.run n t).countFlag = true := by
  induction n with
  | zero => exact h
  | succ n ih => rw [Timer.run_succ, Timer.cycle_countFlag, ih, Bool.true_or]

/-- While a loaded timer has not counted down to 1, its flag is clear. -/
theorem Timer.run_loaded_countFlag_clear {w p : Nat} {t : Timer} (hc : t.configured = true) {k : Nat}
    (hk : k ≤ (p - 1) % 2 ^ w) : (Timer.run k (t.load w p)).countFlag = false := by
  induction k with
  | zero => rfl
  | succ k ih =>
    have notOne : (Timer.run k (t.load w p)).current ≠ 1 := by
      cases k with
      | zero => exact Nat.zero_ne_one
      | succ j => rw [Timer.run_loaded_current hc (by omega)]; omega
    rw [Timer.run_succ, Timer.cycle_countFlag, ih (by omega), beq_false_of_ne notOne, Bool.and_false, Bool.or_false]

/-- The cycle after as many cycles as the reload value, if that is not 0, takes the counter from 1 to 0. -/
theorem Timer.run_loaded_countFlag_set {w p : Nat} {t : Timer} (hc : t.configured = true) (hr : (p - 1) % 2 ^ w ≠ 0) :
    (Timer.run ((p - 1) % 2 ^ w + 1) (t.load w p)).countFlag = true := by
  obtain ⟨j, hj⟩ := Nat.exists_eq_add_one_of_ne_zero hr
  have one : (Timer.run ((p - 1) % 2 ^ w) (t.load w p)).current = 1 := by
    rw [hj, Timer.run_loaded_current hc (by omega)]
    omega
  simp [Timer.run_succ, Timer.cycle_countFlag, one, hc]

theorem reload_eq {w p : Nat} (h2 : 2 ≤ p) (hw : p ≤ 2 ^ w) : (p - 1) % 2 ^ w + 1 = p := by
  rw [Nat.mod_eq_of_lt (by omega)]
  omega

/-- Settles O23: the reload value is `p - 1`, and the flag sets where the countdown from it ends. -/
theorem countFlagSetsAfterPeriod : Obligations.CountFlagSetsAfterPeriod := by
  intro w p t hc h2 hw
  have period := reload_eq h2 hw
  refine ⟨fun k hk => Timer.run_loaded_countFlag_clear hc (by omega), ?_, ?_⟩
  · simpa only [period] using Timer.run_loaded_countFlag_set (t := t) hc (reload_ne_zero h2 hw)
  · simpa only [period, Nat.sub_self] using Timer.run_loaded_current (t := t) hc (le_refl ((p - 1) % 2 ^ w))

/-! ### `n` units are `n` calls (R284, R285) -/

theorem Timer.waitTicks_eq_some {w p k : Nat} {t u : Timer} :
    t.waitTicks w p k = some u ↔ (t.load w p).counts = true ∧ u = (t.load w p).polled k := by
  rw [Timer.waitTicks]
  split <;> rename_i h <;> simp [h, eq_comm]

/-- A call sees nothing of the call before it: loading overwrites every register a poll moves (R283). -/
theorem Timer.waitTicks_polled (w p k j : Nat) (t : Timer) :
    ((t.load w p).polled j).waitTicks w p k = t.waitTicks w p k := rfl

theorem Timer.waitUnits_succ (w p n k : Nat) (t : Timer) :
    t.waitUnits w p (n + 1) k = (t.waitTicks w p k).bind (Timer.waitUnits w p n (k + 1)) := by
  by_cases counts : (t.load w p).counts = true
  · rw [Timer.waitTicks_eq_some.mpr ⟨counts, rfl⟩, Option.bind_some]
    cases n with
    | zero => exact Timer.waitTicks_eq_some.mpr ⟨counts, rfl⟩
    | succ m => rw [Timer.waitUnits, Timer.waitUnits, Timer.waitTicks_polled, Nat.add_assoc, Nat.add_comm 1 m]
  · have stuck := Timer.waitTicks_of_not_counts (Bool.eq_false_of_not_eq_true counts)
    rw [Timer.waitUnits, stuck, stuck, Option.bind_none]

/-- Settles O25, by induction on the units left. -/
theorem waitComposesUnits : Obligations.WaitComposesUnits := by
  intro w p n
  induction n with
  | zero => exact fun k t => rfl
  | succ n ih =>
    intro k t
    rw [Timer.waitUnits_succ, waitTicksTimes, funext (ih (k + 1))]

/-! ### What the calls take together (R283, R287) -/

theorem waitTicksCounted_fst (w p n k : Nat) (t : Timer) :
    (waitTicksCounted w p n k t).map Prod.fst = waitTicksTimes w p n k t := by
  induction n generalizing k t with
  | zero => rfl
  | succ n ih =>
    rw [waitTicksCounted, waitTicksTimes, ← funext (ih (k + 1)), Option.map_bind]
    congr 1
    funext u
    simp [Function.comp_def]

/-- Each poll takes its period at least, so `n` polls take `n` periods at least. -/
theorem waitTicksCounted_ge {w p : Nat} (h2 : 2 ≤ p) (hw : p ≤ 2 ^ w) {n k c : Nat} {t u : Timer}
    (h : waitTicksCounted w p n k t = some (u, c)) : n * p ≤ c := by
  induction n generalizing k c t with
  | zero => omega
  | succ n ih =>
    rw [waitTicksCounted] at h
    obtain ⟨t', -, h⟩ := Option.bind_eq_some_iff.mp h
    obtain ⟨⟨u', c'⟩, rest, h⟩ := Option.map_eq_some_iff.mp h
    cases h
    have restCycles := ih rest
    rw [Timer.load_pollCycles, reload_eq h2 hw, Nat.succ_mul]
    omega

/-- A wait that ends leaves what its calls leave, and they take its periods at least. -/
theorem waiting_counted {s : State} {p : Nat} (hw : s.waitsEnd p) (n : Nat) (e : Event) :
    ∃ u c, waitTicksCounted s.params.timerWidth p n s.draws s.timer = some (u, c) ∧
      waiting p n e s = .next { s with trace := s.trace ++ [e], timer := u, draws := s.draws + n } ∧ n * p ≤ c := by
  obtain ⟨configured, h2, hp⟩ := hw
  obtain ⟨u, hu⟩ := Timer.waitUnits_ends n s.draws configured h2 hp
  have calls := hu
  rw [waitComposesUnits, ← waitTicksCounted_fst] at calls
  obtain ⟨⟨u, c⟩, counted, rfl⟩ := Option.map_eq_some_iff.mp calls
  exact ⟨u, c, counted, waiting_eq_next.mpr ⟨u, hu, rfl⟩, waitTicksCounted_ge h2 hp counted⟩

/-- `n` periods of `p` cycles, each at least a `unit`-th of a second of the core clock, are at least `n` such parts (R287). -/
theorem clock_le_cycles {n p c clock unit : Nat} (hc : n * p ≤ c) (hp : clock ≤ p * unit) : n * clock ≤ c * unit :=
  calc n * clock ≤ n * (p * unit) := Nat.mul_le_mul_left n hp
    _ = n * p * unit := (Nat.mul_assoc n p unit).symm
    _ ≤ c * unit := Nat.mul_le_mul_right unit hc

/-- Settles O26: the flag set on cycle `p` stays set while the poll lasts, and the units' periods add up. -/
theorem waitsLastTheirTime : Obligations.WaitsLastTheirTime := by
  refine ⟨fun w p k t u h2 hw hu => ?_, fun s n drives admissible hn => ⟨?_, ?_⟩⟩
  · obtain ⟨counts, rfl⟩ := Timer.waitTicks_eq_some.mp hu
    have configured : t.configured = true := (Bool.and_eq_true_iff.mp counts).1
    obtain ⟨-, flagSet, -⟩ := countFlagSetsAfterPeriod w p t configured h2 hw
    have cycles : (t.load w p).pollCycles k = p + Config.freePollLatency k := by
      rw [Timer.load_pollCycles, reload_eq h2 hw]
    refine ⟨cycles, ?_, rfl, Nat.mod_eq_of_lt (by omega)⟩
    rw [cycles, Timer.run_add]
    exact Timer.run_keeps_countFlag flagSet _
  · obtain ⟨-, clock, -⟩ := (admissibleTimerConstants s.params).mp admissible
    obtain ⟨u, c, counted, ends, periods⟩ := waiting_counted drives.waitsUs n (.waitUs n)
    exact ⟨u, c, counted, (perform_waitUs hn s).trans ends, clock_le_cycles periods clock⟩
  · obtain ⟨-, -, clock⟩ := (admissibleTimerConstants s.params).mp admissible
    obtain ⟨u, c, counted, ends, periods⟩ := waiting_counted drives.waitsMs n (.waitMs n)
    exact ⟨u, c, counted, (perform_waitMs hn s).trans ends, clock_le_cycles periods clock⟩

end Sys2Proof.Machine
end

section
/-!
What a command costs with default timing (R152, R320), and the INIT that is refused (R303).
-/

namespace Sys2Proof.Machine

/-! ### The refused INIT (R303) -/

/-- Settles O30: INIT on an idle engine is its tests in order, and the last one reads the Enable line of its own operand. -/
theorem initRefusedWhileEnableHigh : Obligations.InitRefusedWhileEnableHigh := by
  intro s rs en port w8 hf hb admissible uninitialized enableBit
  have high : s.pinHigh en = true := bne_iff_ne.mpr enableBit
  exact (whenIdle_of_idle hf hb).trans ((if_pos admissible).trans ((if_pos uninitialized).trans (if_pos high)))

/-! ### What events cost (R152) -/

/-- With default timing `es p w8` are `n8` events of at least `us8` microseconds on the 8-bit interface, `n4` and `us4` on the 4-bit
one. -/
def EventsCost (es : Params → Bool → List Event) (us8 us4 n8 n4 : Nat) : Prop :=
  ∀ p w8, Params.hasDefaultTiming p →
    minMicros (es p w8) = (if w8 then us8 else us4) ∧ (es p w8).length = (if w8 then n8 else n4)

/-- A display command costs what the events it emits cost. -/
theorem Emits.costs {i : Instr} {es : Params → Bool → List Event} {us8 us4 n8 n4 : Nat} (he : Emits i es)
    (hc : EventsCost es us8 us4 n8 n4) : Costs i us8 us4 n8 n4 := by
  intro s a timing
  obtain ⟨t, ht, effect⟩ := he s a
  exact ⟨t, _, ht, effect.trace, hc s.params s.cfgW8 timing⟩

/-- A command out of range is accepted and costs nothing (R220(c)). -/
theorem costs_silentNoOp {i : Instr} (h : ∀ s : State, s.AcceptsDisplay → exec i s = .next (silentNoOp s i)) : Costs i 0 0 0 0 :=
  fun s a _ => ⟨_, [], h s a, (List.append_nil _).symm, (ite_self 0).symm, (ite_self 0).symm⟩

namespace EventsCost

theorem nil : EventsCost (fun _ _ => []) 0 0 0 0 := fun _ _ _ => ⟨(ite_self 0).symm, (ite_self 0).symm⟩

/-- The costs of events in a row add up. -/
theorem append {es fs : Params → Bool → List Event} {us8 us4 n8 n4 vs8 vs4 m8 m4 : Nat} (h : EventsCost es us8 us4 n8 n4)
    (g : EventsCost fs vs8 vs4 m8 m4) :
    EventsCost (fun p w8 => es p w8 ++ fs p w8) (us8 + vs8) (us4 + vs4) (n8 + m8) (n4 + m4) := by
  intro p w8 timing
  obtain ⟨time, count⟩ := h p w8 timing
  obtain ⟨time', count'⟩ := g p w8 timing
  rw [minMicros_append, List.length_append, time, time', count, count']
  cases w8 <;> exact ⟨rfl, rfl⟩

/-- A byte transfer without the long wait is its pulses (R152). -/
theorem byte {rs : Bool} {b : Byte} (h : ∀ p, longWait p rs b = false) :
    EventsCost (fun p w8 => byteEvents p w8 rs b) 47 94 7 13 := by
  rintro p w8 ⟨-, -, -, -, setup, pulse, settle, -⟩
  have pw : PulseWaits p := ⟨by omega, by omega, by omega⟩
  cases w8 <;> simp [minMicros_byte, length_byte pw, h, setup, pulse, settle]

/-- Clear-display is its pulses and the long wait (R152). -/
theorem clearByte : EventsCost (fun p w8 => byteEvents p w8 false 0x01#8) 5047 5094 8 14 := by
  rintro p w8 ⟨-, -, -, -, setup, pulse, settle, long⟩
  have pw : PulseWaits p := ⟨by omega, by omega, by omega⟩
  cases w8 <;> simp [minMicros_byte, length_byte pw, longWait_clear, issueMs, setup, pulse, settle, long]

/-- An instruction byte of 4 or more is never long (R150). -/
theorem instr {b : Byte} (h : 4 ≤ b.toNat) : EventsCost (fun p w8 => byteEvents p w8 false b) 47 94 7 13 :=
  byte fun p => longWait_of_four_le h p false

/-- A data byte is never long (R150). -/
theorem data (b : Byte) : EventsCost (fun p w8 => byteEvents p w8 true b) 47 94 7 13 := byte fun _ => rfl

/-- Data bytes in a row cost each the same. -/
theorem dataBytes (bs : List Byte) :
    EventsCost (fun p w8 => bs.flatMap (byteEvents p w8 true)) (47 * bs.length) (94 * bs.length) (7 * bs.length)
      (13 * bs.length) := by
  induction bs with
  | nil => exact nil
  | cons b bs ih =>
    simp only [List.length_cons, Nat.add_comm _ 1, Nat.mul_add]
    exact (data b).append ih

end EventsCost

/-! ### The costs of the commands (R320) -/

/-- The set-DDRAM-address byte of a cell in range is not below 4 (R111). -/
theorem four_le_setcurByte {col row : Byte} (h : col.toNat < 16) :
    4 ≤ (BitVec.ofNat 8 ((if row = 0 then 0x80 else 0xC0) + col.toNat)).toNat := by
  rw [BitVec.toNat_ofNat]
  split <;> omega

/-- The set-CGRAM-address byte of a glyph in range is not below 4 (R112). -/
theorem four_le_glyphByte {index : Byte} (h : index.toNat < 8) : 4 ≤ (BitVec.ofNat 8 (0x40 + index.toNat * 8)).toNat := by
  rw [BitVec.toNat_ofNat]
  omega

/-- SETCUR is one instruction byte in range, and nothing out of range. -/
theorem costs_setcur (col row : Byte) :
    (col.toNat < 16 ∧ row.toNat < 2 → Costs (.setcur col row) 47 94 7 13) ∧
      (¬ (col.toNat < 16 ∧ row.toNat < 2) → Costs (.setcur col row) 0 0 0 0) := by
  obtain ⟨sends, silent, -⟩ := setcurSendsAddress col row
  exact ⟨fun h => (sends h).costs (.instr (four_le_setcurByte h.1)), fun h => costs_silentNoOp (silent h)⟩

/-- CURON is one instruction byte, with blink or without. -/
theorem costs_curon (arg0 : Byte) : Costs (.curon arg0) 47 94 7 13 := by
  obtain ⟨sends, -⟩ := cursorVisibility.1 arg0
  refine sends.costs (.instr ?_)
  split <;> decide

/-- GLYPH is one instruction byte and eight data bytes in range, and nothing out of range. -/
theorem costs_glyph (index : Byte) (pattern : Vector Byte 7) :
    (index.toNat < 8 → Costs (.glyph index pattern) 423 846 63 117) ∧
      (¬ index.toNat < 8 → Costs (.glyph index pattern) 0 0 0 0) := by
  obtain ⟨sends, silent, -⟩ := glyphSendsPattern index pattern
  have rows := (EventsCost.data pattern[0]).append (.data pattern[1]) |>.append (.data pattern[2]) |>.append (.data pattern[3])
    |>.append (.data pattern[4]) |>.append (.data pattern[5]) |>.append (.data pattern[6])
  exact ⟨fun h => (sends h).costs (((EventsCost.instr (four_le_glyphByte h)).append rows).append (.data _)),
    fun h => costs_silentNoOp (silent h)⟩

/-- Settles O38: INIT's row is R203's, and each display command costs what the events of its own statement cost. -/
theorem commandDurations : Obligations.CommandDurations := by
  obtain ⟨⟨scrl, -⟩, scrr, -⟩ := scrollSendsShift
  obtain ⟨-, curoff, -⟩ := cursorVisibility
  obtain ⟨⟨clear, -⟩, ⟨home, -⟩, -⟩ := clearAndHome
  refine ⟨fun s rs en port w8 a timing => ?init, costs_setcur, home.costs (.instr (by decide)),
    fun b => (putcSendsByte b).1.costs (.data b), fun text => (emits_print text).costs (.dataBytes _),
    scrl.costs (.instr (by decide)), scrr.costs (.instr (by decide)), costs_curon, curoff.costs (.instr (by decide)), costs_glyph,
    clear.costs (EventsCost.clearByte.append (.instr (by decide)))⟩
  case init =>
    obtain ⟨t, es, ht, htrace, -, -, costs⟩ := initLatchedTransfers s rs en port w8 a
    obtain ⟨count, time⟩ := costs timing
    exact ⟨t, es, ht, htrace, time, count⟩

end Sys2Proof.Machine
end
